-- ==== Sys2Proof/Word.lean ====
section
/-! DEFINITION. The word types of the block: bytes, 32-bit register fields, 64-bit bus words and
binary64 values held as their bit patterns (00_scope.md R13, R15; 20_memory.md R89, R90). -/

namespace Sys2Proof

/-- One byte of the device window. -/
abbrev Byte := BitVec 8

/-- An unsigned 32-bit register field (rates and lengths, 10_state.md R36 to R39). -/
abbrev U32 := BitVec 32

/-- One 64-bit bus word (20_memory.md R90). -/
abbrev Word := BitVec 64

/-- An IEEE 754 binary64 value, held as its bit pattern (00_scope.md R14, R15). -/
abbrev F64 := BitVec 64

/-- A complex value is a pair (re, im) of binary64 values (00_scope.md R16). -/
abbrev Cplx := F64 × F64

/-- An address of the 24-bit device window (20_memory.md R80). -/
abbrev BusAddr := BitVec 24

end Sys2Proof
end

