-- ==== Sys2Proof/Syntax.lean ====
section
/-! DEFINITION. The commands of the block, one constructor per row of spec/opcode_table.json
(30_encoding.md R110, R112). A command has no operand fields: every operand is a register or a buffer. -/

namespace Sys2Proof

/-- The ten commands of 30_encoding.md R112. -/
inductive Instr where
  /-- `NOP`, 44_control.md R252. -/
  | nop
  /-- `SOFT_RESET`, 44_control.md R253. -/
  | softReset
  /-- `ANALYZE`, 40_spectrum.md R130. -/
  | analyze
  /-- `SQ_EVALUATE`, 41_squelch.md R150. -/
  | sqEvaluate
  /-- `DEMOD_INIT`, 42_demod.md R170. -/
  | demodInit
  /-- `DEMODULATE`, 42_demod.md R177. -/
  | demodulate
  /-- `MORSE_INIT`, 43_morse.md R220. -/
  | morseInit
  /-- `MORSE_RESET`, 43_morse.md R222. -/
  | morseReset
  /-- `MORSE_FEED`, 43_morse.md R224. -/
  | morseFeed
  /-- `PROCESS_BLOCK`, 44_control.md R255. -/
  | processBlock
  deriving DecidableEq, Repr

/-- Every command, in the table's order. -/
def Instr.all : List Instr :=
  [.nop, .softReset, .analyze, .sqEvaluate, .demodInit, .demodulate, .morseInit, .morseReset, .morseFeed, .processBlock]

end Sys2Proof
end

