-- ==== Sys2Proof/Decode.lean ====
section
/-! DEFINITION. The decoder of 30_encoding.md R111, total on every 64-bit word and on any bytes, rejecting by
name, and the encoder written from the same table (R112). -/

namespace Sys2Proof

/-- Why a word is no command. Both of the first two complete with `ERR_ILLEGAL_CMD` (30_encoding.md R111, R113). -/
inductive DecodeError where
  /-- A nonzero bit in [63:8] (30_encoding.md R113). -/
  | reservedBits
  /-- `OP` is not in the table (30_encoding.md R113). -/
  | unassignedOpcode
  /-- Fewer than the eight bytes of one word (30_encoding.md R115); no bus access can give this. -/
  | truncated
  deriving DecidableEq, Repr

/-- The field `OP`, bits [7:0] of a command word (30_encoding.md R110). -/
def cmdOp (w : Word) : Byte := w.extractLsb' 0 8

/-- The field `RSV`, bits [63:8] of a command word (30_encoding.md R110). -/
def cmdRsv (w : Word) : BitVec 56 := w.extractLsb' 8 56

/-- The opcode `OP` of a command (30_encoding.md R112). -/
def Instr.opcode : Instr → Byte
  | .nop => 0x00
  | .softReset => 0x01
  | .analyze => 0x10
  | .sqEvaluate => 0x20
  | .demodInit => 0x30
  | .demodulate => 0x31
  | .morseInit => 0x40
  | .morseReset => 0x41
  | .morseFeed => 0x42
  | .processBlock => 0x50

/-- The command an opcode names (30_encoding.md R112). -/
def decodeOp (op : Byte) : Option Instr :=
  match op.toNat with
  | 0x00 => some .nop
  | 0x01 => some .softReset
  | 0x10 => some .analyze
  | 0x20 => some .sqEvaluate
  | 0x30 => some .demodInit
  | 0x31 => some .demodulate
  | 0x40 => some .morseInit
  | 0x41 => some .morseReset
  | 0x42 => some .morseFeed
  | 0x50 => some .processBlock
  | _ => none

/-- Decode one command word (30_encoding.md R111): a nonzero reserved field or an unassigned opcode is illegal. -/
def decode (w : Word) : Except DecodeError Instr :=
  if cmdRsv w = 0 then
    match decodeOp (cmdOp w) with
    | some i => .ok i
    | none => .error .unassignedOpcode
  else .error .reservedBits

/-- The little-endian number of a list of bytes (20_memory.md R89). -/
def natOfBytes : List Byte → Nat
  | [] => 0
  | b :: bs => b.toNat + 256 * natOfBytes bs

/-- The first `n` bytes of a number, least significant first (20_memory.md R89). -/
def bytesOfNat : Nat → Nat → List Byte
  | 0, _ => []
  | n + 1, x => BitVec.ofNat 8 x :: bytesOfNat n (x / 256)

/-- The 64-bit word of eight bytes, the first in bits [7:0] (20_memory.md R89). -/
def wordOfBytes (bs : List Byte) : Word := BitVec.ofNat 64 (natOfBytes bs)

/-- The eight bytes of a word, bits [7:0] first (20_memory.md R89). -/
def bytesOfWord (w : Word) : List Byte := bytesOfNat 8 w.toNat

/-- Decode the command at the head of a byte sequence: one 64-bit little-endian word and the bytes after it
(30_encoding.md R110, R115). -/
def decodeBytes (bs : List Byte) : Except DecodeError (Instr × List Byte) :=
  if bs.length < 8 then .error .truncated
  else (decode (wordOfBytes (bs.take 8))).map fun i => (i, bs.drop 8)

/-- The command word of a command: its opcode zero-extended to 64 bits (30_encoding.md R110, R112, R117). -/
def encode (i : Instr) : Word := i.opcode.setWidth 64

/-- The bytes of the command word as the bus carries them (20_memory.md R89). -/
def encodeBytes (i : Instr) : List Byte := bytesOfWord (encode i)

/-- What the decoder reads from a command whose `nbits` low bits are `w`, every higher bit 0. The one word is laid out
in its byte order and given to `decodeBytes`. -/
def decodeTableWord (nbits w : Nat) : Option Instr :=
  match decodeBytes (bytesOfNat 8 (w % 2 ^ nbits)) with
  | .ok (i, _) => some i
  | .error _ => none

end Sys2Proof
end

