-- ==== Sys2Proof/Config.lean ====
section
/-! DEFINITION. What an implementation fixes (the parameters of 00_scope.md R10, the constants of R11) and the free
values, which the spec leaves open: opaque constants without a body, so that no proof can see their value. -/

namespace Sys2Proof

/-- The numerics configuration `NUM` (00_scope.md R10, R15; 93_implementation_defined.md I3): the binary64 reference, or any
other choice of total functions, the `k`-th of which the opaque `Config.other…` constants below name. -/
inductive Numerics where
  | reference
  | other (k : Nat)
  deriving DecidableEq, Repr

/-- The implementation parameters of 00_scope.md R10. They are fixed for a machine; the State carries them so that a
statement over all states covers every legal configuration. -/
structure Params where
  /-- `BLOCK_MAX`, capacity of `IQBUF`, `AUDIOBUF` and `ENVBUF` in samples. -/
  blockMax : Nat
  /-- `FFT_MAX`, largest legal `FFT_SIZE` and capacity of `SPECBUF` in bins. -/
  fftMax : Nat
  /-- `TEXT_CAP`, capacity of `TEXTBUF` in characters. -/
  textCap : Nat
  /-- `AA_ORDER`, order of the anti-alias low-pass. -/
  aaOrder : Nat
  /-- `AA_FRAC`, anti-alias cutoff as a fraction of the audio Nyquist frequency. -/
  aaFrac : F64
  /-- `NUM`, the numerics configuration. -/
  num : Numerics
  /-- `DEVICE_BASE`, the host address of the window's offset 0; the platform's (20_memory.md R96). -/
  deviceBase : Option Nat
  deriving DecidableEq, Repr

/-- The default configuration of 00_scope.md R10; `AA_FRAC` is the binary64 value nearest 0.8. -/
def Params.default : Params :=
  { blockMax := 4096, fftMax := 4096, textCap := 4096, aaOrder := 5, aaFrac := 0x3FE999999999999A#64,
    num := .reference, deviceBase := none }

/-- The legal ranges of 00_scope.md R10. `AA_FRAC` is legal when its pattern lies strictly between those of +0.0 and 1.0. -/
def Params.legal (p : Params) : Bool :=
  (1 ≤ p.blockMax && p.blockMax ≤ 65536) && (1 ≤ p.fftMax && p.fftMax ≤ 131072) &&
  (8 ≤ p.textCap && p.textCap ≤ 1048576 && p.textCap % 8 == 0) && (1 ≤ p.aaOrder && p.aaOrder ≤ 16) &&
  (0 < p.aaFrac.toNat && p.aaFrac.toNat < 0x3FF0000000000000) &&
  (match p.deviceBase with | none => true | some b => b % 8 == 0)

/-- Where a free value is stored; one constructor per kind of place, so that different places get independent values. -/
inductive Site where
  /-- A word of a buffer, by its byte address. -/
  | bufferWord (addr : Nat)
  | smoothed | dur | dot | kfm | alpha | fmLastPhase | fmDeY | mcThr | mcRate
  | mode | fs | fa | decim | decPhase
  | aaB (i : Nat) | aaA (i : Nat) | aaZ (i : Nat) | pfB (i : Nat) | pfA (i : Nat) | pfZ (i : Nat)
  deriving DecidableEq, Repr

namespace Config

/-! ### Free values -/

/-- FREE VALUE (93_implementation_defined.md I19): sign and payload of a NaN that the `draw`-th drawing operation stores at
`site`; `Machine.nanOf` reads it as a NaN pattern. -/
opaque nanPattern (draw : Nat) (site : Site) : Word

/-- FREE VALUE (93 I4; 42_demod.md R170): the value of an unspecified hidden element drawn at `draw`. -/
opaque unspecified (draw : Nat) (site : Site) : Word

/-- FREE VALUE (93 I1; 20_memory.md R94): the byte an unwritten buffer address holds after the `epoch`-th power-on. -/
opaque powerOnByte (epoch addr : Nat) : Byte

/-- FREE VALUE (93 I2; 70_reset_and_hazards.md R312): what a host read of an output returns while `BUSY = 1`; a fresh
one for every such read. -/
opaque busyRead (draw : Nat) : Word

/-! ### The numerics configurations other than the reference (93 I3): arbitrary total functions -/

/-- `NUM.log10` of the `k`-th other configuration. -/
opaque otherLog10 (k : Nat) (x : F64) : F64
/-- `NUM.cos` of the `k`-th other configuration. -/
opaque otherCos (k : Nat) (x : F64) : F64
/-- `NUM.sin` of the `k`-th other configuration. -/
opaque otherSin (k : Nat) (x : F64) : F64
/-- `NUM.tan` of the `k`-th other configuration. -/
opaque otherTan (k : Nat) (x : F64) : F64
/-- `NUM.sqrt` of the `k`-th other configuration. -/
opaque otherSqrt (k : Nat) (x : F64) : F64
/-- `NUM.atan2` of the `k`-th other configuration, before the range and the zero cases of 00_scope.md R15. -/
opaque otherAtan2 (k : Nat) (y x : F64) : F64
/-- `NUM.cexp` of the `k`-th other configuration. -/
opaque otherCexp (k : Nat) (x : F64) : Cplx
/-- `NUM.dft` of the `k`-th other configuration: bin `i` of the transform of `v`. -/
opaque otherDft (k : Nat) (v : List Cplx) (i : Nat) : Cplx
/-- `NUM.butter_lp` of the `k`-th other configuration: the coefficients `(b[i], a[i])`. -/
opaque otherButterLp (k : Nat) (order : Nat) (wn : F64) (i : Nat) : F64 × F64
/-- `NUM.butter_bp` of the `k`-th other configuration: the coefficients `(b[i], a[i])`. -/
opaque otherButterBp (k : Nat) (order : Nat) (w1 w2 : F64) (i : Nat) : F64 × F64

/-! ### Constants fixed by the source (00_scope.md R11, R12) -/

/-- ε, the binary64 value nearest 1e-10. -/
def epsilon : F64 := 0x3DDB7CDFD9D7BDBB#64
/-- α of the squelch smoothing, the binary64 value 0.1. -/
def sqAlpha : F64 := 0x3FB999999999999A#64
/-- τ of the FM de-emphasis, the binary64 value nearest 75e-6. -/
def fmTau : F64 := 0x3F13A92A30553261#64
/-- π, the binary64 value 3.141592653589793 (00_scope.md R15). -/
def pi : F64 := 0x400921FB54442D18#64
/-- `PENDING_CAP`, the capacity of the pending Morse code in symbols. -/
def pendingCap : Nat := 32
/-- The identity constant (10_state.md R31). -/
def idWord : Word := 0x5752534452303037#64

end Config

end Sys2Proof
end

