-- ==== Sys2Proof/Machine/State.lean ====
section
/-! DEFINITION. Everything the spec gives the machine (10_state.md, 20_memory.md R81), as plain data, with the model's own
fields named as such, and the state after reset (70_reset_and_hazards.md R300, R303). -/

namespace Sys2Proof.Machine

/-- The five modes of the selector (00_scope.md R20). -/
inductive Mode where
  | am | fm | usb | lsb | cw
  deriving DecidableEq, Repr

/-- A symbol of the pending Morse code (10_state.md R67). -/
inductive Symbol where
  | dot | dash
  deriving DecidableEq, Repr

/-- The bus response of a host access (20_memory.md R80). -/
inductive Response where
  | okay | slverr
  deriving DecidableEq, Repr

/-- One host bus access (20_memory.md R80; 30_encoding.md R119). -/
inductive Access where
  | read (addr : BusAddr)
  | write (addr : BusAddr) (data : Word)
  deriving DecidableEq, Repr

/-- What the host gets back from one access: the response, and the data of a read (0 for a write). -/
structure Reply where
  response : Response
  data : Word
  deriving DecidableEq, Repr

/-- One step of the environment still to come (00_scope.md R8). The MODEL's own: the spec leaves the host's program to the host
and the schedule to the model (93_implementation_defined.md I8). -/
inductive Event where
  /-- A host access, R8(a) or (b). -/
  | access (a : Access)
  /-- The core gets its turn, R8(c). -/
  | core
  /-- A power-on reset, R8(d). -/
  | powerOn
  /-- `WAIT` of 30_encoding.md R118: read `STATUS` until `BUSY` reads 0; after a read that shows 1 the core gets a turn. -/
  | wait
  /-- `GETTEXT` of 30_encoding.md R118: read `TEXT_LEN`, then as many words of `TEXTBUF` as the value read needs. -/
  | getText
  deriving DecidableEq, Repr

/-- The control registers that hold a value of their own (10_state.md R34 to R52, R56), reduced to their defined fields (R61). -/
structure Csr where
  /-- `CTRL.SQ_EN`, R34. -/
  sqEn : Bool
  /-- `MODE.MODE_SEL`, R35. -/
  modeSel : BitVec 3
  /-- `SAMPLE_RATE`, R36. -/
  sampleRate : U32
  /-- `AUDIO_RATE`, R37. -/
  audioRate : U32
  /-- `FFT_SIZE`, R38. -/
  fftSize : U32
  /-- `IQ_LEN`, R39. -/
  iqLen : U32
  /-- `CENTER_FREQ`, R40. -/
  centerFreq : F64
  /-- `SQ_THRESHOLD_DB`, R41. -/
  sqThresholdDb : F64
  /-- `SQ_HYST_DB`, R42. -/
  sqHystDb : F64
  /-- `FM_DEVIATION_HZ`, R43. -/
  fmDeviationHz : F64
  /-- `MORSE_WPM`, R44. -/
  morseWpm : F64
  /-- `MORSE_DET_THR`, R45. -/
  morseDetThr : F64
  /-- `MORSE_RATE`, R46. -/
  morseRate : U32
  /-- `ENV_LEN`, R47. -/
  envLen : U32
  /-- `SPEC_LEN`, R48. -/
  specLen : U32
  /-- `SPEC_FFT_SIZE`, R49. -/
  specFftSize : U32
  /-- `SPEC_CENTER_FREQ`, R50. -/
  specCenterFreq : F64
  /-- `SPEC_SAMPLE_RATE`, R51. -/
  specSampleRate : U32
  /-- `AUDIO_LEN`, R52. -/
  audioLen : U32
  /-- `TEXT_INC`, R56. -/
  textInc : Word
  deriving DecidableEq, Repr

/-- The fields of `STATUS` that are held there (10_state.md R33). `BUSY`, `DEMOD_VALID` and `MORSE_VALID` mirror other state. -/
structure Status where
  /-- `TEXT_OVF`, bit 3. -/
  textOvf : Bool
  /-- `CMD_OVR`, bit 4. -/
  cmdOvr : Bool
  /-- `WR_DROP`, bit 5. -/
  wrDrop : Bool
  /-- `ERR`, bits [15:8]. -/
  err : Byte
  /-- `LAST_OP`, bits [23:16]. -/
  lastOp : Byte
  deriving DecidableEq, Repr

/-- The demodulator: configuration `st.dm` (10_state.md R62), decimator (R63), FM (R64) and post-filter state (R65). -/
structure Demod where
  /-- `st.dm.valid`. -/
  valid : Bool
  /-- `st.dm.mode`. -/
  mode : Mode
  /-- `st.dm.fs`. -/
  fs : U32
  /-- `st.dm.fa`. -/
  fa : U32
  /-- `st.dm.D`. -/
  decim : U32
  /-- `st.dm.kfm`. -/
  kfm : F64
  /-- `st.dm.alpha`. -/
  alpha : F64
  /-- `st.dm.aa_b`. -/
  aaB : List F64
  /-- `st.dm.aa_a`. -/
  aaA : List F64
  /-- `st.dm.pf_b`. -/
  pfB : List F64
  /-- `st.dm.pf_a`. -/
  pfA : List F64
  /-- `st.aa_z`. -/
  aaZ : List F64
  /-- `st.dec_phase`. -/
  decPhase : U32
  /-- `st.fm_last_phase`. -/
  fmLastPhase : F64
  /-- `st.fm_de_y`. -/
  fmDeY : F64
  /-- `st.pf_z`. -/
  pfZ : List F64
  deriving DecidableEq, Repr

/-- The squelch state `st.sq` (10_state.md R66). -/
structure Squelch where
  smoothed : F64
  lastOpen : Bool
  primed : Bool
  isOpenOut : Bool
  deriving DecidableEq, Repr

/-- The Morse state `st.mc` (10_state.md R67). -/
structure Morse where
  valid : Bool
  dot : F64
  thr : F64
  rate : U32
  code : List Symbol
  text : List Byte
  last : Bool
  dur : F64
  deriving DecidableEq, Repr

/-- The buffers as a list of (address, byte) pairs, addresses strictly rising. An unlisted address holds no value of its own:
reading it gives the free value drawn for it at power-on (`readByte`, Machine/Ops.lean). -/
abbrev Memory := List Host.Cell

/-- The canonical form: addresses strictly rising. (An unlisted address holds nothing, so no listed byte can equal it.) -/
def Memory.wf : Memory → Bool
  | [] => true
  | [_] => true
  | c :: d :: m => decide (c.1 < d.1) && Memory.wf (d :: m)

/-- The machine. -/
structure State where
  /-- The control registers. -/
  csr : Csr
  /-- The flags and codes of `STATUS`. -/
  status : Status
  /-- The demodulator. -/
  dm : Demod
  /-- The squelch gate. -/
  sq : Squelch
  /-- The Morse decoder. -/
  mc : Morse
  /-- The pending command `st.cmd`, or none (10_state.md R69). -/
  cmd : Option Word
  /-- The five buffers (20_memory.md R81). -/
  mem : Memory
  /-- The MODEL's own: the parameters of 00_scope.md R10. No step changes them. -/
  params : Params
  /-- The MODEL's own: the steps of the host and the environment still to come, first first. -/
  agenda : List Event
  /-- The MODEL's own: the replies the host has had, newest first. -/
  replies : List Reply
  /-- The MODEL's own: how many commands and resets have drawn free values, the argument of the next draw. -/
  draws : Nat
  /-- The MODEL's own: how many reads of an output while busy have drawn a value (93 I2). -/
  busyReads : Nat
  /-- The MODEL's own: how many power-on resets have drawn the buffers anew. -/
  epoch : Nat
  deriving DecidableEq, Repr

/-- Why a step would stop the machine: never. A command error is a code in `STATUS.ERR`, a bad access is an `SLVERR` reply, and there
is no trap (60_exceptions.md R272, R276, R277), so this closed inductive has no constructor. -/
inductive Fault
  deriving DecidableEq, Repr

/-- Why an instruction would be refused. -/
inductive Refusal where
  /-- Raised by an arm of `exec` whose instruction has no meaning yet (safe: the model stops). No arm raises it. -/
  | notModelled (mnemonic : String)
  deriving DecidableEq, Repr

/-- The reset values of the control registers (70_reset_and_hazards.md R303). -/
def Csr.reset : Csr :=
  { sqEn := true, modeSel := 0, sampleRate := 0, audioRate := 0, fftSize := 0, iqLen := 0,
    centerFreq := 0, sqThresholdDb := 0xC049000000000000#64, sqHystDb := 0x4008000000000000#64,
    fmDeviationHz := 0x40F24F8000000000#64, morseWpm := 0x4034000000000000#64, morseDetThr := 0x3FD3333333333333#64,
    morseRate := 0, envLen := 0, specLen := 0, specFftSize := 0, specCenterFreq := 0, specSampleRate := 0,
    audioLen := 0, textInc := 0 }

/-- `STATUS` after a power-on reset (70_reset_and_hazards.md R303). -/
def Status.reset : Status := { textOvf := false, cmdOvr := false, wrDrop := false, err := 0, lastOp := 0 }

/-- The squelch state after reset and after `DEMOD_INIT` (10_state.md R66): -100.0 dB, closed, unprimed. -/
def Squelch.reset : Squelch := { smoothed := 0xC059000000000000#64, lastOpen := false, primed := false, isOpenOut := false }

/-- The demodulator after reset: `valid = 0`. The spec leaves every other field unspecified (10_state.md R62 to R65); the zeros are
the model's (log 3, DESIGN CHOICE). -/
def Demod.reset (aaOrder : Nat) : Demod :=
  { valid := false, mode := .am, fs := 0, fa := 0, decim := 0, kfm := 0, alpha := 0,
    aaB := List.replicate (aaOrder + 1) 0, aaA := List.replicate (aaOrder + 1) 0,
    pfB := List.replicate 11 0, pfA := List.replicate 11 0,
    aaZ := List.replicate aaOrder 0, decPhase := 0, fmLastPhase := 0, fmDeY := 0, pfZ := List.replicate 10 0 }

/-- The Morse decoder after reset (10_state.md R67). `dot`, `thr` and `rate` are unspecified there; the zeros are the model's
(log 3, DESIGN CHOICE). -/
def Morse.reset : Morse :=
  { valid := false, dot := 0, thr := 0, rate := 0, code := [], text := [], last := false, dur := 0 }

/-- The machine right after a power-on reset (70_reset_and_hazards.md R300, R303), in the default configuration of 00_scope.md R10. -/
def State.reset : State :=
  { csr := Csr.reset, status := Status.reset, dm := Demod.reset Params.default.aaOrder, sq := Squelch.reset, mc := Morse.reset,
    cmd := none, mem := [], params := Params.default, agenda := [], replies := [], draws := 0, busyReads := 0, epoch := 0 }

end Sys2Proof.Machine
end

