-- ==== Sys2Proof/Machine/Map.lean ====
section
/-! DEFINITION. The map of the device window: the 32 register slots (10_state.md section 2; 20_memory.md R82) and the five
buffers (20_memory.md R81, R83 to R88), and what an address names (R84, R90, R91). -/

namespace Sys2Proof.Machine

/-- The buffers of 20_memory.md R81. -/
inductive Region where
  | iqbuf | specbuf | audiobuf | envbuf | textbuf
  deriving DecidableEq, Repr

/-- The register slots of 10_state.md section 2, with the three reserved ones of R60. -/
inductive Reg where
  | id | cmd | status | ctrl | mode | sampleRate | audioRate | fftSize | iqLen | centerFreq
  | sqThresholdDb | sqHystDb | fmDeviationHz | morseWpm | morseDetThr | morseRate | envLen
  | specLen | specFftSize | specCenterFreq | specSampleRate | audioLen | sqResult | sqPowerDb
  | textLen | textInc | morseCode | morseDuration | demodInfo | reservedE8 | reservedF0 | reservedF8
  deriving DecidableEq, Repr

/-- The slots in the order of their offsets. -/
def Reg.all : List Reg :=
  [.id, .cmd, .status, .ctrl, .mode, .sampleRate, .audioRate, .fftSize, .iqLen, .centerFreq,
   .sqThresholdDb, .sqHystDb, .fmDeviationHz, .morseWpm, .morseDetThr, .morseRate, .envLen,
   .specLen, .specFftSize, .specCenterFreq, .specSampleRate, .audioLen, .sqResult, .sqPowerDb,
   .textLen, .textInc, .morseCode, .morseDuration, .demodInfo, .reservedE8, .reservedF0, .reservedF8]

/-- The byte offset of a register, `8·index` (10_state.md section 2). -/
def regOffset (r : Reg) : Nat := 8 * Reg.all.idxOf r

/-- A register a host write stores into: the `RW` rows of 10_state.md section 2. -/
def regWritable : Reg → Bool
  | .ctrl | .mode | .sampleRate | .audioRate | .fftSize | .iqLen | .centerFreq | .sqThresholdDb | .sqHystDb
  | .fmDeviationHz | .morseWpm | .morseDetThr | .morseRate | .envLen => true
  | _ => false

/-- An output register: a read of it while `BUSY = 1` returns a draw (70_reset_and_hazards.md R312). -/
def regIsOutput : Reg → Bool
  | .specLen | .specFftSize | .specCenterFreq | .specSampleRate | .audioLen | .sqResult | .sqPowerDb
  | .textLen | .textInc | .morseCode | .morseDuration | .demodInfo => true
  | _ => false

def Region.all : List Region := [.iqbuf, .specbuf, .audiobuf, .envbuf, .textbuf]

/-- The base of a buffer (20_memory.md R81). -/
def regionBase : Region → Nat
  | .iqbuf => 0x100000
  | .specbuf => 0x200000
  | .audiobuf => 0x300000
  | .envbuf => 0x400000
  | .textbuf => 0x500000

/-- The size used of a buffer, in bytes (20_memory.md R81). -/
def regionUsed (p : Params) : Region → Nat
  | .iqbuf => 16 * p.blockMax
  | .specbuf => 8 * p.fftMax
  | .audiobuf => 8 * p.blockMax
  | .envbuf => 8 * p.blockMax
  | .textbuf => p.textCap

/-- The host may write the buffers marked `RW` (20_memory.md R81). -/
def regionWritable : Region → Bool
  | .iqbuf | .envbuf => true
  | .specbuf | .audiobuf | .textbuf => false

/-- An output buffer: a read of it while `BUSY = 1` returns a draw (70_reset_and_hazards.md R312). -/
def regionIsOutput : Region → Bool
  | .iqbuf => false
  | .specbuf | .audiobuf | .envbuf | .textbuf => true

/-- The address lies in the size used of the region (20_memory.md R84). -/
def inRegion (p : Params) (addr : Nat) (r : Region) : Bool :=
  regionBase r ≤ addr && addr < regionBase r + regionUsed p r

/-- What a host access names. -/
inductive Target where
  /-- A register slot. -/
  | reg (r : Reg)
  /-- A word of a buffer, at its byte address. -/
  | buffer (r : Region) (addr : Nat)
  /-- 20_memory.md R84. -/
  | unmapped
  /-- `addr mod 8 ≠ 0`, 20_memory.md R91. -/
  | misaligned
  deriving DecidableEq, Repr

/-- What an address of the window names (20_memory.md R82, R84, R90, R91). -/
def locate (p : Params) (addr : Nat) : Target :=
  if addr % 8 ≠ 0 then .misaligned
  else
    match Reg.all[addr / 8]? with
    | some r => .reg r
    | none =>
      match Region.all.find? (inRegion p addr) with
      | some r => .buffer r addr
      | none => .unmapped

/-- The address in the host's own space of an offset of the window (20_memory.md R96), where the platform gives a base. -/
def hostAddress (p : Params) (offset : BusAddr) : Option Nat := p.deviceBase.map (· + offset.toNat)

/-- The address of word `n` of `ENVBUF` (20_memory.md R87). -/
def envAddr (n : Nat) : Nat := regionBase .envbuf + 8 * n

/-- The address of the real word of sample `i` of `IQBUF`; the imaginary word is 8 above (20_memory.md R83). -/
def iqAddr (i : Nat) : Nat := regionBase .iqbuf + 16 * i

/-- The address of bin `k` of `SPECBUF` (20_memory.md R85). -/
def specAddr (k : Nat) : Nat := regionBase .specbuf + 8 * k

/-- The address of sample `m` of `AUDIOBUF` (20_memory.md R86). -/
def audioAddr (m : Nat) : Nat := regionBase .audiobuf + 8 * m

/-- The address of character `i` of `TEXTBUF` (20_memory.md R88). -/
def textAddr (i : Nat) : Nat := regionBase .textbuf + i

end Sys2Proof.Machine
end

