-- ==== Sys2Proof/Machine/Float64.lean ====
section
/-! DEFINITION. IEEE 754 binary64 arithmetic, exactly (00_scope.md R15, R16, R21): `+ - × /`, comparison, `fmod`, square root
and the conversion of an unsigned integer. Every operation computes the exact result in natural numbers and rounds once, to
nearest with ties to even. Subnormals are kept, overflow gives an infinity, an invalid operation gives a NaN. A NaN is carried as one
pattern inside a command; where it is stored, `settle` (Machine/Ops.lean) draws its sign and payload (93 I19). -/

namespace Sys2Proof.Machine

/-- The magnitude pattern of an infinity. -/
def f64InfMag : Nat := 0x7FF0000000000000

/-- The NaN that stands, inside a command, for a NaN an operation produced (00_scope.md R21). -/
def f64NaN : F64 := 0x7FF8000000000000#64

def f64Zero : F64 := 0x0000000000000000#64
def f64One : F64 := 0x3FF0000000000000#64
def f64NegOne : F64 := 0xBFF0000000000000#64
def f64Two : F64 := 0x4000000000000000#64
def f64Inf : F64 := 0x7FF0000000000000#64

/-- The sign bit. -/
def f64Neg (x : F64) : Bool := x.msb

/-- The pattern without its sign bit. -/
def f64Mag (x : F64) : Nat := x.toNat % 2 ^ 63

def f64IsNaN (x : F64) : Bool := f64InfMag < f64Mag x
def f64IsInf (x : F64) : Bool := f64Mag x == f64InfMag
def f64IsZero (x : F64) : Bool := f64Mag x == 0

/-- Finite: neither an infinity nor a NaN (00_scope.md R17). -/
def f64IsFinite (x : F64) : Bool := f64Mag x < f64InfMag

/-- The scale of a finite value: its magnitude is `f64Sig x * 2^(f64Scale x - 1074)`. -/
def f64Scale (x : F64) : Nat := f64Mag x / 2 ^ 52 - 1

/-- The significand of a finite value, with the hidden bit of a normal one. -/
def f64Sig (x : F64) : Nat :=
  if f64Mag x / 2 ^ 52 = 0 then f64Mag x % 2 ^ 52 else f64Mag x % 2 ^ 52 + 2 ^ 52

/-- The pattern of a sign and a magnitude. -/
def f64Pack (neg : Bool) (mag : Nat) : F64 := BitVec.ofNat 64 (if neg then 2 ^ 63 + mag else mag)

/-- Divide by `2^k`, rounding to nearest, ties to even. -/
def roundShift (m k : Nat) : Nat :=
  if 2 * (m % 2 ^ k) > 2 ^ k ∨ (2 * (m % 2 ^ k) = 2 ^ k ∧ m / 2 ^ k % 2 = 1) then m / 2 ^ k + 1 else m / 2 ^ k

/-- The binary64 value nearest `m * 2^(e - b) * 2^(-1074)`, ties to even, with the given sign (00_scope.md R15). The exponent of
the last place is `q - 1074`; the subtraction stops at 0, which is where the subnormals begin. -/
def f64Round (neg : Bool) (m e b : Nat) : F64 :=
  if m = 0 then f64Pack neg 0
  else
    let q := e + Nat.log2 m - (b + 52)
    let r := if q + b ≤ e then m * 2 ^ (e - (q + b)) else roundShift m (q + b - e)
    f64Pack neg (min (q * 2 ^ 52 + r) f64InfMag)

/-- The conversion `f64(n)` of an unsigned integer (00_scope.md R21); exact up to 53 bits. -/
def f64OfNat (n : Nat) : F64 := f64Round false n 1074 0

/-- Sign flip. -/
def f64Negate (x : F64) : F64 := x ^^^ 0x8000000000000000#64

/-- Absolute value: the sign bit cleared. -/
def f64Abs (x : F64) : F64 := x &&& 0x7FFFFFFFFFFFFFFF#64

/-- binary64 `+` (00_scope.md R15, R21). An exact zero sum is `+0.0`, but for two negative zeros. -/
def f64Add (x y : F64) : F64 :=
  if f64IsNaN x || f64IsNaN y then f64NaN
  else if f64IsInf x then (if f64IsInf y && f64Neg x != f64Neg y then f64NaN else x)
  else if f64IsInf y then y
  else
    let e := min (f64Scale x) (f64Scale y)
    let a := f64Sig x * 2 ^ (f64Scale x - e)
    let b := f64Sig y * 2 ^ (f64Scale y - e)
    if f64Neg x = f64Neg y then f64Round (f64Neg x) (a + b) e 0
    else if a = b then f64Zero
    else if b < a then f64Round (f64Neg x) (a - b) e 0
    else f64Round (f64Neg y) (b - a) e 0

/-- binary64 `-`. -/
def f64Sub (x y : F64) : F64 := f64Add x (f64Negate y)

/-- binary64 `×`. -/
def f64Mul (x y : F64) : F64 :=
  let neg := f64Neg x != f64Neg y
  if f64IsNaN x || f64IsNaN y then f64NaN
  else if f64IsInf x || f64IsInf y then
    (if f64IsZero x || f64IsZero y then f64NaN else f64Pack neg f64InfMag)
  else f64Round neg (f64Sig x * f64Sig y) (f64Scale x + f64Scale y) 1074

/-- A quotient of naturals with one sticky bit below it: `2 * ⌊n / d⌋`, plus 1 where the division is not exact. -/
def stickyDiv (n d : Nat) : Nat := 2 * (n / d) + (if n % d = 0 then 0 else 1)

/-- binary64 `/`. -/
def f64Div (x y : F64) : F64 :=
  let neg := f64Neg x != f64Neg y
  if f64IsNaN x || f64IsNaN y then f64NaN
  else if f64IsInf x then (if f64IsInf y then f64NaN else f64Pack neg f64InfMag)
  else if f64IsInf y then f64Pack neg 0
  else if f64IsZero y then (if f64IsZero x then f64NaN else f64Pack neg f64InfMag)
  else f64Round neg (stickyDiv (f64Sig x * 2 ^ 120) (f64Sig y)) (f64Scale x + 1074) (f64Scale y + 121)

/-- The exact IEEE 754 remainder with the sign of the dividend (42_demod.md R182). -/
def f64Fmod (x y : F64) : F64 :=
  if f64IsNaN x || f64IsNaN y || f64IsInf x || f64IsZero y then f64NaN
  else if f64IsInf y then x
  else
    let e := min (f64Scale x) (f64Scale y)
    f64Round (f64Neg x) (f64Sig x * 2 ^ (f64Scale x - e) % (f64Sig y * 2 ^ (f64Scale y - e))) e 0

/-- `x < y`, false where either is a NaN (00_scope.md R15). -/
def f64Lt (x y : F64) : Bool :=
  !(f64IsNaN x) && !(f64IsNaN y) &&
  match f64Neg x, f64Neg y with
  | false, false => decide (f64Mag x < f64Mag y)
  | true, true => decide (f64Mag y < f64Mag x)
  | true, false => !(f64IsZero x && f64IsZero y)
  | false, true => false

/-- `x ≤ y`, false where either is a NaN. -/
def f64Le (x y : F64) : Bool := !(f64IsNaN x) && !(f64IsNaN y) && !(f64Lt y x)

/-- `x = y` as values: zeros of either sign are equal, a NaN equals nothing. -/
def f64Eq (x y : F64) : Bool := f64Le x y && f64Le y x

/-- One Newton step after another towards `⌊√n⌋`, from above, until it stops falling. -/
def isqrtLoop (n : Nat) : Nat → Nat → Nat
  | 0, x => x
  | fuel + 1, x => if (x + n / x) / 2 < x then isqrtLoop n fuel ((x + n / x) / 2) else x

/-- `⌊√n⌋`. -/
def isqrt (n : Nat) : Nat := if n = 0 then 0 else isqrtLoop n 64 (2 ^ (Nat.log2 n / 2 + 1))

/-- The correctly rounded square root (the reference `NUM.sqrt`, 00_scope.md R15). -/
def f64Sqrt (x : F64) : F64 :=
  if f64IsNaN x then f64NaN
  else if f64IsZero x then x
  else if f64Neg x then f64NaN
  else if f64IsInf x then x
  else
    let n := (if f64Scale x % 2 = 1 then 2 * f64Sig x else f64Sig x) * 2 ^ 120
    let r := isqrt n
    f64Round false (2 * r + (if r * r = n then 0 else 1)) (f64Scale x / 2 + 537) 61

/-- The correctly rounded integer power `x^n` of a finite `x`. -/
def f64PowNat (x : F64) (n : Nat) : F64 :=
  if f64IsNaN x then f64NaN
  else if f64IsInf x then f64Pack (f64Neg x && n % 2 == 1) f64InfMag
  else f64Round (f64Neg x && n % 2 == 1) (f64Sig x ^ n) (f64Scale x * n + 1074) (1074 * n)

/-- `Σ t_n` evaluated as `((t_0 + t_1) + t_2) + …` (00_scope.md R15). -/
def f64Sum : List F64 → F64
  | [] => f64Zero
  | t :: ts => ts.foldl f64Add t

/-! ### Complex arithmetic (00_scope.md R16) -/

def cAdd (s t : Cplx) : Cplx := (f64Add s.1 t.1, f64Add s.2 t.2)
def cSub (s t : Cplx) : Cplx := (f64Sub s.1 t.1, f64Sub s.2 t.2)

/-- `(a,b)·(c,d) = (a·c - b·d, a·d + b·c)`. -/
def cMul (s t : Cplx) : Cplx :=
  (f64Sub (f64Mul s.1 t.1) (f64Mul s.2 t.2), f64Add (f64Mul s.1 t.2) (f64Mul s.2 t.1))

/-- `w·(a,b) = (w·a, w·b)`. -/
def cScale (w : F64) (s : Cplx) : Cplx := (f64Mul w s.1, f64Mul w s.2)

/-- `conj(s) = (re, -im)`. -/
def cConj (s : Cplx) : Cplx := (s.1, f64Negate s.2)

/-- `re·re + im·im`. -/
def cNormSq (s : Cplx) : F64 := f64Add (f64Mul s.1 s.1) (f64Mul s.2 s.2)

end Sys2Proof.Machine
end

