-- ==== Sys2Proof/Machine/Numerics.lean ====
section
/-! DEFINITION. The numerics configuration `NUM` (00_scope.md R15; 40_spectrum.md R132; 42_demod.md R174, R175). The reference
configuration rounds each real function correctly: it brackets the exact value between two fixed-point numbers, rounds both, and
doubles the precision until the two agree. `dft`, `butter_lp` and `butter_bp` follow the algorithms written in their rules. Every other
configuration is an opaque total function of Config.lean. -/

namespace Sys2Proof.Machine

/-! ### Fixed-point series (numbers scaled by `2^p`) -/

/-- `t/(2k+1) - t'/(2k+3) + …`, the next power of the argument given by `next`; stops when a power vanishes. -/
def atanTerms (next : Nat → Nat) : Nat → Nat → Nat → Nat
  | 0, _, _ => 0
  | fuel + 1, k, t => if t = 0 then 0 else t / (2 * k + 1) - atanTerms next fuel (k + 1) (next t)

/-- `t/(2k+1) + t'/(2k+3) + …`. -/
def atanhTerms (next : Nat → Nat) : Nat → Nat → Nat → Nat
  | 0, _, _ => 0
  | fuel + 1, k, t => if t = 0 then 0 else t / (2 * k + 1) + atanhTerms next fuel (k + 1) (next t)

/-- An alternating Taylor series `t - t' + t'' - …`, the term after the `k`-th given by `next k`. -/
def taylorTerms (next : Nat → Nat → Nat) : Nat → Nat → Nat → Nat
  | 0, _, _ => 0
  | fuel + 1, k, t => if t = 0 then 0 else t - taylorTerms next fuel (k + 1) (next k t)

/-- `arctan(1/n)`. -/
def atanInvFix (n p : Nat) : Nat := atanTerms (fun t => t / (n * n)) (p + 1) 0 (2 ^ p / n)

/-- π, within 2 units, by Machin's formula with 32 guard bits. -/
def piFix (p : Nat) : Nat := (16 * atanInvFix 5 (p + 32) - 4 * atanInvFix 239 (p + 32)) / 2 ^ 32

/-- `2·artanh(a/b)`, for `0 ≤ a/b ≤ 1/3`. -/
def atanhFix (a b p : Nat) : Nat :=
  let z := a * 2 ^ p / b
  let z2 := z * z / 2 ^ p
  2 * atanhTerms (fun t => t * z2 / 2 ^ p) (p + 1) 0 z

/-- `ln 2 = 2·artanh(1/3)`. -/
def ln2Fix (p : Nat) : Nat := atanhFix 1 3 p

/-- `ln 10 = 3·ln 2 + 2·artanh(1/9)`. -/
def ln10Fix (p : Nat) : Nat := 3 * ln2Fix p + atanhFix 1 9 p

/-- `arctan(a/b)` for `0 < a ≤ b`; above 1/2 as `π/4 - arctan((b-a)/(b+a))`. -/
def atanFix (a b p : Nat) : Nat :=
  let series := fun (n d : Nat) =>
    let z := n * 2 ^ p / d
    let z2 := z * z / 2 ^ p
    atanTerms (fun t => t * z2 / 2 ^ p) (p + 1) 0 z
  if b < 2 * a then piFix p / 4 - series (b - a) (b + a) else series a b

/-- Sine and cosine of `|x|`, each as a sign and a magnitude, after reduction by multiples of π/2. -/
def sinCosFix (x : F64) (p : Nat) : (Bool × Nat) × (Bool × Nat) :=
  let big := p + (f64Scale x - 1021) + 8
  let v := f64Sig x * 2 ^ (f64Scale x + big) / 2 ^ 1074
  let h := piFix big / 2
  let k := (2 * v + h) / (2 * h)
  let neg := decide (v < k * h)
  let r := (if neg then k * h - v else v - k * h) / 2 ^ (big - p)
  let r2 := r * r / 2 ^ p
  let s := taylorTerms (fun j t => t * r2 / 2 ^ p / ((2 * j + 2) * (2 * j + 3))) (p + 1) 0 r
  let c := taylorTerms (fun j t => t * r2 / 2 ^ p / ((2 * j + 1) * (2 * j + 2))) (p + 1) 0 (2 ^ p)
  match k % 4 with
  | 0 => ((neg, s), (false, c))
  | 1 => ((false, c), (!neg, s))
  | 2 => ((!neg, s), (true, c))
  | _ => ((true, c), (neg, s))

/-- The error allowed for a fixed-point series of precision `p`, in units. -/
def seriesErr (p : Nat) : Nat := 4 * p + 64

/-- Round the value that `bounds p` brackets (sign, lower and upper magnitude scaled by `2^p`), doubling `p` until both ends round
to one binary64 value. -/
def zivRound (bounds : Nat → Bool × Nat × Nat) : Nat → Nat → F64
  | 0, p => f64Round (bounds p).1 (bounds p).2.1 1074 p
  | fuel + 1, p =>
    let lo := f64Round (bounds p).1 (bounds p).2.1 1074 p
    if lo = f64Round (bounds p).1 (bounds p).2.2 1074 p then lo else zivRound bounds fuel (2 * p)

/-- The number of zero bits after the binary point of `|x| < 1`. -/
def leadingZeros (x : F64) : Nat := 1074 - (f64Scale x + Nat.log2 (f64Sig x))

/-! ### The reference functions of a real argument (00_scope.md R15) -/

def refSin (x : F64) : F64 :=
  if !(f64IsFinite x) then f64NaN
  else if f64IsZero x then x
  else zivRound (fun p =>
    let s := (sinCosFix x p).1
    (s.1 != f64Neg x, s.2 - seriesErr p, s.2 + seriesErr p)) 5 (192 + leadingZeros x)

def refCos (x : F64) : F64 :=
  if !(f64IsFinite x) then f64NaN
  else zivRound (fun p =>
    let c := (sinCosFix x p).2
    (c.1, c.2 - seriesErr p, c.2 + seriesErr p)) 5 192

def refTan (x : F64) : F64 :=
  if !(f64IsFinite x) then f64NaN
  else if f64IsZero x then x
  else zivRound (fun p =>
    let sc := sinCosFix x p
    let e := seriesErr p
    ((sc.1.1 != sc.2.1) != f64Neg x, (sc.1.2 - e) * 2 ^ p / (sc.2.2 + e), (sc.1.2 + e) * 2 ^ p / (sc.2.2 - e) + 1))
    5 (192 + leadingZeros x)

/-- `log10`: with `|x| = t·2^k`, `1 ≤ t < 2`, it is `(ln t + k·ln 2) / ln 10`. A zero gives `-∞`, a negative value a NaN. -/
def refLog10 (x : F64) : F64 :=
  if f64IsNaN x then f64NaN
  else if f64IsZero x then f64Pack true f64InfMag
  else if f64Neg x then f64NaN
  else if f64IsInf x then x
  else if x = f64One then f64Zero
  else
    let m := f64Sig x
    let l := Nat.log2 m
    zivRound (fun p =>
      let lnT := atanhFix (m - 2 ^ l) (m + 2 ^ l) p
      let neg := decide (f64Scale x + l < 1074)
      let k := if neg then 1074 - (f64Scale x + l) else f64Scale x + l - 1074
      let n := if neg then k * ln2Fix p - lnT else k * ln2Fix p + lnT
      let e := (k + 4) * seriesErr p
      let d := ln10Fix p
      (neg, (n - e) * 2 ^ p / (d + 8 * seriesErr p), (n + e) * 2 ^ p / (d - 8 * seriesErr p) + 1)) 5 192

/-- The range `[-π, π]` of `NUM.atan2`. -/
def inPiRange (x : F64) : Bool := f64Mag x ≤ f64Mag Config.pi

/-- `x` held to the range of `NUM.atan2` (00_scope.md R15): outside it, the end of the range with sign `neg` (DESIGN CHOICE, log 18). -/
def withinPi (neg : Bool) (x : F64) : F64 := if inPiRange x then x else f64Pack neg (f64Mag Config.pi)

/-- `atan2` with a zero first argument follows the sign of that zero (00_scope.md R15). -/
def atan2Zero (y x : F64) : F64 := if f64Neg x then f64Pack (f64Neg y) (f64Mag Config.pi) else y

/-- The reference `atan2` for a first argument that is no zero. The infinite cases are the IEEE 754 ones. -/
def refAtan2 (y x : F64) : F64 :=
  if f64IsNaN y || f64IsNaN x then f64NaN
  else if f64IsInf y then
    (if f64IsInf x then (if f64Neg x then f64Pack (f64Neg y) 0x4002D97C7F3321D2 else f64Pack (f64Neg y) 0x3FE921FB54442D18)
     else f64Pack (f64Neg y) 0x3FF921FB54442D18)
  else if f64IsInf x then (if f64Neg x then f64Pack (f64Neg y) (f64Mag Config.pi) else f64Pack (f64Neg y) 0)
  else if f64IsZero x then f64Pack (f64Neg y) 0x3FF921FB54442D18
  else
    let m := min (f64Scale y) (f64Scale x)
    let a := f64Sig y * 2 ^ (f64Scale y - m)
    let b := f64Sig x * 2 ^ (f64Scale x - m)
    withinPi (f64Neg y) <| zivRound (fun p =>
      let first := if a ≤ b then atanFix a b p else piFix p / 2 - atanFix b a p
      let v := if f64Neg x then piFix p - first else first
      (f64Neg y, v - 4 * seriesErr p, v + 4 * seriesErr p)) 5
      (if f64Neg x then 192 else 192 + (Nat.log2 b - Nat.log2 a))

/-! ### The primitives of `NUM` -/

def numLog10 : Numerics → F64 → F64
  | .reference, x => refLog10 x
  | .other k, x => Config.otherLog10 k x

def numCos : Numerics → F64 → F64
  | .reference, x => refCos x
  | .other k, x => Config.otherCos k x

def numSin : Numerics → F64 → F64
  | .reference, x => refSin x
  | .other k, x => Config.otherSin k x

def numTan : Numerics → F64 → F64
  | .reference, x => refTan x
  | .other k, x => Config.otherTan k x

def numSqrt : Numerics → F64 → F64
  | .reference, x => f64Sqrt x
  | .other k, x => Config.otherSqrt k x

/-- `NUM.atan2(y, x)`: the zero cases are fixed, and every value lies in `[-π, π]`, in every configuration. -/
def numAtan2 (c : Numerics) (y x : F64) : F64 :=
  if f64IsZero y && !(f64IsNaN x) then atan2Zero y x
  else
    match c with
    | .reference => refAtan2 y x
    | .other k => withinPi false (Config.otherAtan2 k y x)

/-- `NUM.cexp(θ) = cos θ + i·sin θ`. -/
def numCexp : Numerics → F64 → Cplx
  | .reference, x => (refCos x, refSin x)
  | .other k, x => Config.otherCexp k x

/-- `|s| = NUM.sqrt(re·re + im·im)` (00_scope.md R16). -/
def cAbs (c : Numerics) (s : Cplx) : F64 := numSqrt c (cNormSq s)

/-- The `i`-th element of a list of complex values. -/
def cAt (v : List Cplx) (i : Nat) : Cplx := v.getD i (f64Zero, f64Zero)

/-- `Σ` of complex values, from the left. -/
def cSum : List Cplx → Cplx
  | [] => (f64Zero, f64Zero)
  | t :: ts => ts.foldl cAdd t

/-- Bin `k` of the reference transform: the sum of 40_spectrum.md R132 from `n = 0`, the angle taken as
`-(2π × (k·n mod N)) / N`. -/
def refDftBin (v : List Cplx) (k : Nat) : Cplx :=
  cSum ((List.range v.length).map fun n =>
    cMul (cAt v n) (numCexp .reference
      (f64Negate (f64Div (f64Mul (f64Mul f64Two Config.pi) (f64OfNat (k * n % v.length))) (f64OfNat v.length)))))

/-- Bin `k` of `NUM.dft(v)` (40_spectrum.md R132). -/
def numDftBin : Numerics → List Cplx → Nat → Cplx
  | .reference, v, k => refDftBin v k
  | .other j, v, k => Config.otherDft j v k

/-! ### The Butterworth designs (42_demod.md R174, R175) -/

/-- Complex division, scaled by the larger component of the divisor. -/
def cDiv (a b : Cplx) : Cplx :=
  if f64Le (f64Abs b.2) (f64Abs b.1) then
    let r := f64Div b.2 b.1
    let d := f64Add b.1 (f64Mul b.2 r)
    (f64Div (f64Add a.1 (f64Mul a.2 r)) d, f64Div (f64Sub a.2 (f64Mul a.1 r)) d)
  else
    let r := f64Div b.1 b.2
    let d := f64Add (f64Mul b.1 r) b.2
    (f64Div (f64Add (f64Mul a.1 r) a.2) d, f64Div (f64Sub (f64Mul a.2 r) a.1) d)

/-- The principal complex square root `csqrt`. -/
def cSqrt (z : Cplx) : Cplx :=
  let t := f64Sqrt (f64Div (f64Add (f64Abs z.1) (f64Sqrt (cNormSq z))) f64Two)
  if f64IsZero t then (f64Zero, z.2)
  else if f64Lt z.1 f64Zero then (f64Div (f64Abs z.2) (f64Mul f64Two t), f64Pack (f64Neg z.2) (f64Mag t))
  else (t, f64Div z.2 (f64Mul f64Two t))

/-- The integer `-N + 1 + 2j` as a binary64 value. -/
def poleIndex (n j : Nat) : F64 :=
  if n - 1 ≤ 2 * j then f64OfNat (2 * j - (n - 1)) else f64Negate (f64OfNat (n - 1 - 2 * j))

/-- The analogue prototype poles `-cexp(π·m / 2N)`. -/
def protoPoles (n : Nat) : List Cplx :=
  (List.range n).map fun j =>
    let e := numCexp .reference (f64Div (f64Mul Config.pi (poleIndex n j)) (f64OfNat (2 * n)))
    (f64Negate e.1, f64Negate e.2)

/-- Multiply a polynomial (highest power first) by `x - r`: each coefficient less `r` times the one before it. -/
def polyStep (r : Cplx) : Cplx → List Cplx → List Cplx
  | before, [] => [cSub (f64Zero, f64Zero) (cMul r before)]
  | before, c :: cs => cSub c (cMul r before) :: polyStep r c cs

/-- `Π (x - r)`, highest power first. -/
def polyOfRoots (roots : List Cplx) : List Cplx :=
  roots.foldl (fun cs r => match cs with | [] => [] | c :: rest => c :: polyStep r c rest) [(f64One, f64Zero)]

/-- The real number 4.0 as a complex value (the bilinear transform at `fs = 2`). -/
def cFour : Cplx := (0x4010000000000000#64, f64Zero)

/-- `(4 + p) / (4 - p)` (42_demod.md R174). -/
def bilinear (p : Cplx) : Cplx := cDiv (cAdd cFour p) (cSub cFour p)

/-- `Π_j (4 - p[j])`. -/
def bilinearGain (ps : List Cplx) : Cplx := ps.foldl (fun acc p => cMul acc (cSub cFour p)) (f64One, f64Zero)

/-- The pre-warped edge `4 × tan(π × W / 2)`. -/
def prewarp (w : F64) : F64 :=
  f64Mul 0x4010000000000000#64 (refTan (f64Div (f64Mul Config.pi w) f64Two))

/-- The reference Butterworth low-pass of 42_demod.md R174: `(b, a)`. -/
def refButterLp (n : Nat) (wn : F64) : List F64 × List F64 :=
  let warped := prewarp wn
  let ps := (protoPoles n).map (cScale warped)
  let k := f64Mul (f64PowNat warped n) (cDiv (f64One, f64Zero) (bilinearGain ps)).1
  ((List.range (n + 1)).map fun i => f64Mul k (f64OfNat (Nat.choose n i)),
   (polyOfRoots (ps.map bilinear)).map Prod.fst)

/-- Coefficient `i` of `(x - 1)^N (x + 1)^N`, highest power first. -/
def bandCoeff (n i : Nat) : F64 :=
  if i % 2 = 1 then f64Zero
  else if i / 2 % 2 = 1 then f64Negate (f64OfNat (Nat.choose n (i / 2))) else f64OfNat (Nat.choose n (i / 2))

/-- The reference Butterworth band-pass of 42_demod.md R175: `(b, a)`. -/
def refButterBp (n : Nat) (lo hi : F64) : List F64 × List F64 :=
  let w1 := prewarp lo
  let w2 := prewarp hi
  let bw := f64Sub w2 w1
  let wo := f64Sqrt (f64Mul w1 w2)
  let pl := (protoPoles n).map fun p => (f64Div (f64Mul p.1 bw) f64Two, f64Div (f64Mul p.2 bw) f64Two)
  let rt := pl.map fun p => cSqrt (cSub (cMul p p) (f64Mul wo wo, f64Zero))
  let qs := List.zipWith cAdd pl rt ++ List.zipWith cSub pl rt
  let k := f64Mul (f64PowNat bw n)
    (cDiv (f64PowNat 0x4010000000000000#64 n, f64Zero) (bilinearGain qs)).1
  ((List.range (2 * n + 1)).map fun i => f64Mul k (bandCoeff n i), (polyOfRoots (qs.map bilinear)).map Prod.fst)

/-- The coefficient lists of an other configuration, with `a[0] = 1.0` (42_demod.md R174, R175). -/
def otherCoeffs (n : Nat) (c : Nat → F64 × F64) : List F64 × List F64 :=
  ((List.range (n + 1)).map fun i => (c i).1, f64One :: (List.range n).map fun i => (c (i + 1)).2)

/-- `NUM.butter_lp(N, Wn)` (42_demod.md R174). -/
def numButterLp : Numerics → Nat → F64 → List F64 × List F64
  | .reference, n, wn => refButterLp n wn
  | .other k, n, wn => otherCoeffs n (Config.otherButterLp k n wn)

/-- `NUM.butter_bp(N, W1, W2)` (42_demod.md R175). -/
def numButterBp : Numerics → Nat → F64 → F64 → List F64 × List F64
  | .reference, n, lo, hi => refButterBp n lo hi
  | .other k, n, lo, hi => otherCoeffs (2 * n) (Config.otherButterBp k n lo hi)

end Sys2Proof.Machine
end

