-- ==== Sys2Proof/Machine/Ops.lean ====
section
/-! DEFINITION. The named operations over memory and registers, the drawing of free values, and the one way a command ends:
raising an error and completion (44_control.md R251; 60_exceptions.md R272 to R274). -/

namespace Sys2Proof.Machine

/-! ### Memory -/

/-- The byte listed at an address. -/
def memGet : Memory → Nat → Option Byte
  | [], _ => none
  | c :: m, a => if c.1 = a then some c.2 else memGet m a

/-- Store a byte, keeping the addresses strictly rising. -/
def memSet : Memory → Nat → Byte → Memory
  | [], a, b => [(a, b)]
  | c :: m, a, b => if a < c.1 then (a, b) :: c :: m else if c.1 = a then (a, b) :: m else c :: memSet m a b

/-- Store bytes at consecutive addresses. -/
def memSetBytes (m : Memory) (a : Nat) : List Byte → Memory
  | [] => m
  | b :: bs => memSetBytes (memSet m a b) (a + 1) bs

/-- Store one 64-bit word, little-endian (20_memory.md R89). -/
def memSetWord (m : Memory) (a : Nat) (w : Word) : Memory := memSetBytes m a (bytesOfWord w)

/-- Store words at consecutive word addresses. -/
def memSetWords (m : Memory) (a : Nat) : List Word → Memory
  | [] => m
  | w :: ws => memSetWords (memSetWord m a w) (a + 8) ws

/-- What a byte of a buffer holds: the byte last written, or the free value drawn for it at the last power-on reset
(20_memory.md R94; 93_implementation_defined.md I1). -/
def readByte (s : State) (a : Nat) : Byte := (memGet s.mem a).getD (Config.powerOnByte s.epoch a)

/-- The 64-bit word at an address, little-endian (20_memory.md R80, R89). -/
def readWord (s : State) (a : Nat) : Word := wordOfBytes ((List.range 8).map fun i => readByte s (a + i))

/-! ### Free values -/

/-- The NaN pattern of a free word: its sign and payload, with the exponent all ones and a nonzero fraction. -/
def nanOf (w : Word) : F64 :=
  f64Pack w.msb (f64InfMag + (if w.toNat % 2 ^ 52 = 0 then 2 ^ 51 else w.toNat % 2 ^ 52))

/-- The pattern stored for a computed value: a NaN gets a free sign and payload (00_scope.md R21; 93 I19). -/
def settle (draw : Nat) (site : Site) (x : F64) : F64 :=
  if f64IsNaN x then nanOf (Config.nanPattern draw site) else x

/-- `settle` for the elements of a list, each with a site of its own. -/
def settleList (draw : Nat) (site : Nat → Site) : List F64 → List F64
  | [] => []
  | x :: xs => settle draw (site 0) x :: settleList draw (fun i => site (i + 1)) xs

/-- A list of `n` unspecified words. -/
def unspecifiedList (draw : Nat) (site : Nat → Site) (n : Nat) : List F64 :=
  (List.range n).map fun i => Config.unspecified draw (site i)

/-- The mode of an unspecified word: any of the five. -/
def modeOfWord (w : Word) : Mode :=
  match w.toNat % 5 with
  | 0 => .am
  | 1 => .fm
  | 2 => .usb
  | 3 => .lsb
  | _ => .cw

/-- The operation has drawn: the next one draws anew. -/
def drawn (s : State) : State := { s with draws := s.draws + 1 }

/-- Store computed values in consecutive buffer words from `a`, each NaN with a free pattern. -/
def storeValues (s : State) (a : Nat) (xs : List F64) : State :=
  { s with mem := memSetWords s.mem a (settleList s.draws (fun i => .bufferWord (a + 8 * i)) xs) }

/-! ### Errors and completion -/

/-- The error codes of 60_exceptions.md R271. -/
inductive ErrCode where
  | ok | illegalCmd | length | nonfinite | cfgFft | cfgSquelch | cfgMode | cfgRate | cfgDecim | cfgCutoff
  | cfgDeviation | cfgWpm | cfgMorseRate | cfgDetect | noDemod | noMorse
  deriving DecidableEq, Repr

/-- The code written to `STATUS.ERR` (60_exceptions.md R271). -/
def errByte : ErrCode → Byte
  | .ok => 0x00
  | .illegalCmd => 0x01
  | .length => 0x02
  | .nonfinite => 0x03
  | .cfgFft => 0x04
  | .cfgSquelch => 0x05
  | .cfgMode => 0x06
  | .cfgRate => 0x07
  | .cfgDecim => 0x08
  | .cfgCutoff => 0x09
  | .cfgDeviation => 0x0A
  | .cfgWpm => 0x0B
  | .cfgMorseRate => 0x0C
  | .cfgDetect => 0x0D
  | .noDemod => 0x0E
  | .noMorse => 0x0F

/-- `COMPLETE` (44_control.md R251): the code, the opcode field of the word, and no command pending any more. -/
def complete (op : Byte) (code : ErrCode) (s : State) : State :=
  { s with status := { s.status with err := errByte code, lastOp := op }, cmd := none }

/-- `raise E` (60_exceptions.md R272, R274): every effect is discarded, so the completion acts on the state at entry. -/
def raise (op : Byte) (code : ErrCode) (s : State) : State := complete op code s

/-- The first error a command's checks find, in their order (60_exceptions.md R272, R273). -/
def firstError : List (Bool × ErrCode) → Option ErrCode
  | [] => none
  | (true, e) :: _ => some e
  | (false, _) :: cs => firstError cs

/-- Run a command: its checks in order, then its effects, then completion (44_control.md R250, R251). -/
def runCommand (op : Byte) (checks : List (Bool × ErrCode)) (effect : State → State) (s : State) : State :=
  match firstError checks with
  | some e => raise op e s
  | none => complete op .ok (effect s)

/-- The completion of an illegal command word `w` (30_encoding.md R111). -/
def rejectWord (w : Word) (s : State) : State := raise (cmdOp w) .illegalCmd s

/-! ### Reset (70_reset_and_hazards.md R300, R301; 44_control.md R253) -/

/-- The demodulator after a reset: not valid, every other field unspecified (10_state.md R62 to R65; 93 I4). -/
def demodAfterReset (draw aaOrder : Nat) : Demod :=
  { valid := false
    mode := modeOfWord (Config.unspecified draw .mode)
    fs := (Config.unspecified draw .fs).setWidth 32
    fa := (Config.unspecified draw .fa).setWidth 32
    decim := (Config.unspecified draw .decim).setWidth 32
    kfm := Config.unspecified draw .kfm
    alpha := Config.unspecified draw .alpha
    aaB := unspecifiedList draw .aaB (aaOrder + 1)
    aaA := unspecifiedList draw .aaA (aaOrder + 1)
    pfB := unspecifiedList draw .pfB 11
    pfA := unspecifiedList draw .pfA 11
    aaZ := unspecifiedList draw .aaZ aaOrder
    decPhase := (Config.unspecified draw .decPhase).setWidth 32
    fmLastPhase := Config.unspecified draw .fmLastPhase
    fmDeY := Config.unspecified draw .fmDeY
    pfZ := unspecifiedList draw .pfZ 10 }

/-- The Morse decoder after a reset: `dot`, `thr` and `rate` unspecified (10_state.md R67). -/
def morseAfterReset (draw : Nat) : Morse :=
  { valid := false
    dot := Config.unspecified draw .dot
    thr := Config.unspecified draw .mcThr
    rate := (Config.unspecified draw .mcRate).setWidth 32
    code := [], text := [], last := false, dur := f64Zero }

/-- The registers and the hidden state after a reset, the buffers kept (44_control.md R253; 70_reset_and_hazards.md R301). -/
def resetRegisters (s : State) : State :=
  drawn { s with
    csr := Csr.reset, status := Status.reset, dm := demodAfterReset s.draws s.params.aaOrder, sq := Squelch.reset,
    mc := morseAfterReset s.draws }

/-- A power-on reset (70_reset_and_hazards.md R300, R302): no command is pending and every buffer byte is drawn anew. -/
def powerOnReset (s : State) : State :=
  { resetRegisters s with cmd := none, mem := [], epoch := s.epoch + 1 }

end Sys2Proof.Machine
end

