-- ==== Sys2Proof/Machine/Flags.lean ====
section
/-! DEFINITION. The flags and the register views composed from state (10_state.md R33, R53 to R59, R68): what each register
slot reads as, and what a host write to it stores (R61). -/

namespace Sys2Proof.Machine

/-- Bit `i` of a word, set or clear. -/
def flagBit (b : Bool) (i : Nat) : Word := if b then 1#64 <<< i else 0#64

/-- A field of `n` bits placed at bit `i`. -/
def field {n : Nat} (v : BitVec n) (i : Nat) : Word := v.setWidth 64 <<< i

/-- `STATUS.BUSY`: a command is pending (10_state.md R33, R69). -/
def busy (s : State) : Bool := s.cmd.isSome

/-- The word `STATUS` reads as (10_state.md R33). -/
def statusWord (s : State) : Word :=
  flagBit (busy s) 0 ||| flagBit s.dm.valid 1 ||| flagBit s.mc.valid 2 ||| flagBit s.status.textOvf 3 |||
  flagBit s.status.cmdOvr 4 ||| flagBit s.status.wrDrop 5 ||| field s.status.err 8 ||| field s.status.lastOp 16

/-- The code of a mode, as `MODE_SEL` and `DMODE` hold it (10_state.md R35, R59). -/
def modeCode : Mode → BitVec 3
  | .am => 0
  | .fm => 1
  | .usb => 2
  | .lsb => 3
  | .cw => 4

/-- The mode of a selector code; 5, 6 and 7 are reserved (10_state.md R35). -/
def modeOfCode (c : BitVec 3) : Option Mode :=
  match c.toNat with
  | 0 => some .am
  | 1 => some .fm
  | 2 => some .usb
  | 3 => some .lsb
  | 4 => some .cw
  | _ => none

/-- `SQ_RESULT` (10_state.md R53). -/
def sqResultWord (s : State) : Word :=
  flagBit s.sq.isOpenOut 0 ||| flagBit s.sq.lastOpen 1 ||| flagBit s.sq.primed 2

/-- The symbols of a pending code as bits, symbol `i` at bit `i`, 1 for a dash (10_state.md R57). -/
def symbolBits : List Symbol → Nat
  | [] => 0
  | .dot :: cs => 2 * symbolBits cs
  | .dash :: cs => 1 + 2 * symbolBits cs

/-- `MORSE_CODE` (10_state.md R57). -/
def morseCodeWord (s : State) : Word :=
  field (BitVec.ofNat 6 s.mc.code.length) 0 ||| field (BitVec.ofNat 32 (symbolBits s.mc.code)) 8 ||| flagBit s.mc.last 40

/-- `DEMOD_INFO` (10_state.md R59). -/
def demodInfoWord (s : State) : Word :=
  if s.dm.valid then field s.dm.decim 0 ||| field (modeCode s.dm.mode) 32 else 0#64

/-- The word of `TEXT_INC` for an increment (10_state.md R56; 43_morse.md R234). -/
def textIncWord (inc : List Byte) : Word :=
  field (inc.getD 0 0) 0 ||| field (inc.getD 1 0) 8 ||| field (BitVec.ofNat 2 inc.length) 16

/-- What a register slot holds (10_state.md R31 to R60); a read while the block is idle returns it. -/
def regValue (s : State) : Reg → Word
  | .id => Config.idWord
  | .cmd => 0
  | .status => statusWord s
  | .ctrl => flagBit s.csr.sqEn 0
  | .mode => field s.csr.modeSel 0
  | .sampleRate => field s.csr.sampleRate 0
  | .audioRate => field s.csr.audioRate 0
  | .fftSize => field s.csr.fftSize 0
  | .iqLen => field s.csr.iqLen 0
  | .centerFreq => s.csr.centerFreq
  | .sqThresholdDb => s.csr.sqThresholdDb
  | .sqHystDb => s.csr.sqHystDb
  | .fmDeviationHz => s.csr.fmDeviationHz
  | .morseWpm => s.csr.morseWpm
  | .morseDetThr => s.csr.morseDetThr
  | .morseRate => field s.csr.morseRate 0
  | .envLen => field s.csr.envLen 0
  | .specLen => field s.csr.specLen 0
  | .specFftSize => field s.csr.specFftSize 0
  | .specCenterFreq => s.csr.specCenterFreq
  | .specSampleRate => field s.csr.specSampleRate 0
  | .audioLen => field s.csr.audioLen 0
  | .sqResult => sqResultWord s
  | .sqPowerDb => s.sq.smoothed
  | .textLen => field (BitVec.ofNat 32 s.mc.text.length) 0
  | .textInc => s.csr.textInc
  | .morseCode => morseCodeWord s
  | .morseDuration => s.mc.dur
  | .demodInfo => demodInfoWord s
  | .reservedE8 => 0
  | .reservedF0 => 0
  | .reservedF8 => 0

/-- A host write to a register of an idle block (10_state.md R61): an `RW` register stores its defined fields, any other ignores it. -/
def regWrite (c : Csr) (v : Word) : Reg → Csr
  | .ctrl => { c with sqEn := v.getLsbD 0 }
  | .mode => { c with modeSel := v.setWidth 3 }
  | .sampleRate => { c with sampleRate := v.setWidth 32 }
  | .audioRate => { c with audioRate := v.setWidth 32 }
  | .fftSize => { c with fftSize := v.setWidth 32 }
  | .iqLen => { c with iqLen := v.setWidth 32 }
  | .centerFreq => { c with centerFreq := v }
  | .sqThresholdDb => { c with sqThresholdDb := v }
  | .sqHystDb => { c with sqHystDb := v }
  | .fmDeviationHz => { c with fmDeviationHz := v }
  | .morseWpm => { c with morseWpm := v }
  | .morseDetThr => { c with morseDetThr := v }
  | .morseRate => { c with morseRate := v.setWidth 32 }
  | .envLen => { c with envLen := v.setWidth 32 }
  | .id => c
  | .cmd => c
  | .status => c
  | .specLen => c
  | .specFftSize => c
  | .specCenterFreq => c
  | .specSampleRate => c
  | .audioLen => c
  | .sqResult => c
  | .sqPowerDb => c
  | .textLen => c
  | .textInc => c
  | .morseCode => c
  | .morseDuration => c
  | .demodInfo => c
  | .reservedE8 => c
  | .reservedF0 => c
  | .reservedF8 => c

end Sys2Proof.Machine
end

