-- ==== Sys2Proof/Machine/Operands.lean ====
section
/-! DEFINITION. The operands of a command: registers read as unsigned integers or binary64 values (30_encoding.md R114), and
the samples of the buffers (00_scope.md R14, R17), with the checks that several commands share. -/

namespace Sys2Proof.Machine

/-- The accepted command word, the block's "instruction" (10_state.md R30, R69). -/
def fetchWord (s : State) : Option Word := s.cmd

/-- `L = csr[IQ_LEN][31:0]`. -/
def iqLength (s : State) : Nat := s.csr.iqLen.toNat

/-- `L = csr[ENV_LEN][31:0]`. -/
def envLength (s : State) : Nat := s.csr.envLen.toNat

/-- `N = csr[FFT_SIZE][31:0]`. -/
def fftLength (s : State) : Nat := s.csr.fftSize.toNat

/-- `IQ(i)` (00_scope.md R14). -/
def iqSample (s : State) (i : Nat) : Cplx := (readWord s (iqAddr i), readWord s (iqAddr i + 8))

/-- `IQ(0)` to `IQ(n-1)`. -/
def iqBlock (s : State) (n : Nat) : List Cplx := (List.range n).map (iqSample s)

/-- `ENV(n)` (00_scope.md R14). -/
def envSample (s : State) (n : Nat) : F64 := readWord s (envAddr n)

/-- `ENV(0)` to `ENV(n-1)`. -/
def envBlock (s : State) (n : Nat) : List F64 := (List.range n).map (envSample s)

/-- Both components of a sample are finite (00_scope.md R17). -/
def cFinite (c : Cplx) : Bool := f64IsFinite c.1 && f64IsFinite c.2

/-- The `ERR_CFG_FFT` check (40_spectrum.md R130). -/
def badFftSize (s : State) : Bool := fftLength s == 0 || s.params.fftMax < fftLength s

/-- The `ERR_LENGTH` check on `IQ_LEN` (60_exceptions.md R271). -/
def iqTooLong (s : State) : Bool := s.params.blockMax < iqLength s

/-- The `ERR_NONFINITE` check on `IQ(0)` to `IQ(L-1)` (00_scope.md R17). -/
def iqNonfinite (s : State) : Bool := !((iqBlock s (iqLength s)).all cFinite)

/-- The `ERR_LENGTH` check on `ENV_LEN` (43_morse.md R224). -/
def envTooLong (s : State) : Bool := s.params.blockMax < envLength s

/-- The `ERR_NONFINITE` check on `ENV(0)` to `ENV(L-1)` (43_morse.md R224). -/
def envNonfinite (s : State) : Bool := !((envBlock s (envLength s)).all f64IsFinite)

end Sys2Proof.Machine
end

