-- ==== Sys2Proof/Machine/Bus.lean ====
section
/-! DEFINITION. The host's side: reads and writes of the device window (20_memory.md R80 to R93; 10_state.md R32, R61;
70_reset_and_hazards.md R310 to R312), the waiting and text-reading loops, and one entry of the agenda. -/

namespace Sys2Proof.Machine

/-- A reply without data. -/
def okayReply : Reply := { response := .okay, data := 0 }

/-- The reply to a misaligned or unmapped access: `SLVERR`, and a read returns 0 (20_memory.md R84, R91). -/
def slverrReply : Reply := { response := .slverr, data := 0 }

/-- A read that shows what the place holds. -/
def shown (v : Word) : Reply := { response := .okay, data := v }

/-- The access names an output register or buffer (70_reset_and_hazards.md R312). -/
def isOutput : Target → Bool
  | .reg r => regIsOutput r
  | .buffer r _ => regionIsOutput r
  | .unmapped => false
  | .misaligned => false

/-- What a read of a place returns when the block is idle (20_memory.md R80, R84, R91). -/
def idleRead (s : State) : Target → Reply
  | .reg r => shown (regValue s r)
  | .buffer _ a => shown (readWord s a)
  | .unmapped => slverrReply
  | .misaligned => slverrReply

/-- A host read and the state after it. While busy a read of an output returns a fresh draw (70_reset_and_hazards.md R312;
93_implementation_defined.md I2); no read has any other effect (20_memory.md R93). -/
def hostRead (s : State) (addr : BusAddr) : Reply × State :=
  let t := locate s.params addr.toNat
  if busy s && isOutput t then (shown (Config.busyRead s.busyReads), { s with busyReads := s.busyReads + 1 })
  else (idleRead s t, s)

/-- A host write to an idle block: a `CMD` write is accepted (10_state.md R32), a register keeps its defined fields (R61), a word of an
`RW` buffer is stored, one of an `RO` buffer ignored (20_memory.md R81). -/
def idleWrite (s : State) (v : Word) : Target → Reply × State
  | .reg .cmd => (okayReply, { s with cmd := some v })
  | .reg r => (okayReply, { s with csr := regWrite s.csr v r })
  | .buffer r a => (okayReply, if regionWritable r then { s with mem := memSetWord s.mem a v } else s)
  | .unmapped => (slverrReply, s)
  | .misaligned => (slverrReply, s)

/-- A host write to a busy block: dropped, with `CMD_OVR` for `CMD` and `WR_DROP` for every other mapped address
(70_reset_and_hazards.md R310, R311). -/
def busyWrite (s : State) : Target → Reply × State
  | .reg .cmd => (okayReply, { s with status := { s.status with cmdOvr := true } })
  | .reg _ => (okayReply, { s with status := { s.status with wrDrop := true } })
  | .buffer _ _ => (okayReply, { s with status := { s.status with wrDrop := true } })
  | .unmapped => (slverrReply, s)
  | .misaligned => (slverrReply, s)

/-- A host write and the state after it. -/
def hostWrite (s : State) (addr : BusAddr) (v : Word) : Reply × State :=
  let t := locate s.params addr.toNat
  if busy s then busyWrite s t else idleWrite s v t

/-- One host access (00_scope.md R8). -/
def hostAccess (a : Access) (s : State) : Reply × State :=
  match a with
  | .read addr => hostRead s addr
  | .write addr v => hostWrite s addr v

/-- The host takes the reply of its access. -/
def recordReply (r : Reply × State) : State := { r.2 with replies := r.1 :: r.2.replies }

/-- The bus address of a register. -/
def regAddr (r : Reg) : BusAddr := BitVec.ofNat 24 (regOffset r)

/-- The next read of a `WAIT` (30_encoding.md R118): while the value read shows `BUSY = 1`, the core gets a turn and the host reads
again. -/
def hostWait (s : State) : State :=
  let t := recordReply (hostRead s (regAddr .status))
  if busy s then { t with agenda := .core :: .wait :: t.agenda } else t

/-- The reads of the text words that a value of `TEXT_LEN` calls for, `j = 0 .. ⌈n/8⌉ - 1` (30_encoding.md R118). A
length read while busy is free (log 5) and may call for words past 0xFFFFFF, to which the spec gives no access; their addresses are taken
modulo 2^24 (DESIGN CHOICE, log 26). -/
def textReads (n : Nat) : List Event :=
  (List.range ((n + 7) / 8)).map fun j => .access (.read (BitVec.ofNat 24 (textAddr (8 * j))))

/-- `GETTEXT` (30_encoding.md R118): read `TEXT_LEN`, then the words of `TEXTBUF` it calls for. -/
def hostGetText (s : State) : State :=
  let r := hostRead s (regAddr .textLen)
  let t := recordReply r
  { t with agenda := textReads (r.1.data.toNat % 2 ^ 32) ++ t.agenda }

end Sys2Proof.Machine
end

