-- ==== Sys2Proof/Machine/Demodulator.lean ====
section
/-! DEFINITION. The demodulator, `DEMOD_INIT` and `DEMODULATE` (42_demod.md R170 to R197). -/

namespace Sys2Proof.Machine

/-! ### Construction (42_demod.md R170 to R175) -/

/-- 15000.0, 300.0 and 3000.0 Hz (00_scope.md R11). -/
def amCutoff : F64 := 0x40CD4C0000000000#64
def ssbLow : F64 := 0x4072C00000000000#64
def ssbHigh : F64 := 0x40A7700000000000#64

/-- The cutoff check of 42_demod.md R172, on a selector code. -/
def badCutoff (sel : BitVec 3) (fa : Nat) : Bool :=
  match modeOfCode sel with
  | some .am => fa ≤ 30000
  | some .cw => fa ≤ 30000
  | some .usb => fa ≤ 6000
  | some .lsb => fa ≤ 6000
  | some .fm => false
  | none => false

/-- The deviation check of 42_demod.md R173: only FM reads it. -/
def badDeviation (sel : BitVec 3) (dev : F64) : Bool :=
  modeOfCode sel == some .fm && !(f64IsFinite dev && f64Lt f64Zero dev)

/-- The checks of `DEMOD_INIT`, in order (42_demod.md R170; 60_exceptions.md R273). -/
def demodInitChecks (s : State) : List (Bool × ErrCode) :=
  [(modeOfCode s.csr.modeSel == none, .cfgMode),
   (s.csr.sampleRate == 0 || s.csr.audioRate == 0, .cfgRate),
   (s.csr.sampleRate.toNat % s.csr.audioRate.toNat != 0, .cfgDecim),
   (badCutoff s.csr.modeSel s.csr.audioRate.toNat, .cfgCutoff),
   (badDeviation s.csr.modeSel s.csr.fmDeviationHz, .cfgDeviation)]

/-- `f64(fs) / ((2 × π) × dev)` (42_demod.md R183). -/
def fmScale (fs : Nat) (dev : F64) : F64 := f64Div (f64OfNat fs) (f64Mul (f64Mul f64Two Config.pi) dev)

/-- `1.0 / (1.0 + f64(fa) × 75e-6)` (42_demod.md R184). -/
def deemphasisAlpha (fa : Nat) : F64 := f64Div f64One (f64Add f64One (f64Mul (f64OfNat fa) Config.fmTau))

/-- The anti-alias coefficients (42_demod.md R178): `butter_lp(AA_ORDER, AA_FRAC / f64(D))`. -/
def aaDesign (p : Params) (d : Nat) : List F64 × List F64 := numButterLp p.num p.aaOrder (f64Div p.aaFrac (f64OfNat d))

/-- A frequency relative to the audio Nyquist frequency, `f / (f64(fa) / 2.0)` (42_demod.md R187, R190). -/
def overNyquist (f : F64) (fa : Nat) : F64 := f64Div f (f64Div (f64OfNat fa) f64Two)

/-- The post-filter coefficients of a mode (42_demod.md R187, R190); FM has none. -/
def postDesign (c : Numerics) (m : Mode) (fa : Nat) : Option (List F64 × List F64) :=
  match m with
  | .am => some (numButterLp c 5 (overNyquist amCutoff fa))
  | .cw => some (numButterLp c 5 (overNyquist amCutoff fa))
  | .usb => some (numButterBp c 5 (overNyquist ssbLow fa) (overNyquist ssbHigh fa))
  | .lsb => some (numButterBp c 5 (overNyquist ssbLow fa) (overNyquist ssbHigh fa))
  | .fm => none

/-- The number `K` of post-filter delay elements of a mode; FM has no post-filter (10_state.md R65). -/
def postOrder : Mode → Option Nat
  | .am => some 5
  | .cw => some 5
  | .usb => some 10
  | .lsb => some 10
  | .fm => none

/-- The demodulator that `DEMOD_INIT` constructs for mode `m`: every field is recreated (42_demod.md R170, R195; 10_state.md R62 to R65). A
configuration field that the mode or ratio does not use, and to which R170 gives no value, is a free value (DEDUCED, log 10). The delay
lines are zero in every mode; in FM, for which R65 gives no `K`, the post-filter's has ten elements (DESIGN CHOICE, log 27). -/
def constructDemod (s : State) (m : Mode) : Demod :=
  let fs := s.csr.sampleRate
  let fa := s.csr.audioRate
  let d := fs.toNat / fa.toNat
  let aa := aaDesign s.params d
  let pf := (postDesign s.params.num m fa.toNat).getD ([], [])
  let latched := fun (site : Nat → Site) (n : Nat) (used : Bool) (new : List F64) =>
    if used then settleList s.draws site new else unspecifiedList s.draws site n
  { valid := true
    mode := m
    fs := fs
    fa := fa
    decim := BitVec.ofNat 32 d
    kfm := if m = .fm then settle s.draws .kfm (fmScale fs.toNat s.csr.fmDeviationHz) else Config.unspecified s.draws .kfm
    alpha := if m = .fm then settle s.draws .alpha (deemphasisAlpha fa.toNat) else Config.unspecified s.draws .alpha
    aaB := latched .aaB (s.params.aaOrder + 1) (1 < d) aa.1
    aaA := latched .aaA (s.params.aaOrder + 1) (1 < d) aa.2
    pfB := latched .pfB 11 (m != .fm) pf.1
    pfA := latched .pfA 11 (m != .fm) pf.2
    aaZ := List.replicate s.params.aaOrder f64Zero
    decPhase := 0
    fmLastPhase := f64Zero
    fmDeY := f64Zero
    pfZ := List.replicate ((postOrder m).getD 10) f64Zero }

/-- The effects of `DEMOD_INIT` (42_demod.md R170); the Morse state is not touched (R195). -/
def demodInitEffect (s : State) : State :=
  match modeOfCode s.csr.modeSel with
  | some m =>
    drawn { s with dm := constructDemod s m, sq := Squelch.reset, csr := { s.csr with audioLen := 0 } }
  | none => s

/-- `DEMOD_INIT` (42_demod.md R170). -/
def execDemodInit (s : State) : Host.Outcome State Fault Refusal :=
  .next (runCommand Instr.demodInit.opcode (demodInitChecks s) demodInitEffect s)

/-! ### Filters and decimation (42_demod.md R176, R178, R179) -/

/-- The delay line after one step of the direct form II transposed, from `z[1]` on: `z[i] <- (b[i+1]·x + z[i+1]) - a[i+1]·y`, and
`z[K-1] <- b[K]·x - a[K]·y` (42_demod.md R176). The lists are `b[1..K]`, `a[1..K]` and `z[1..K-1]`. -/
def delayUpdate (x y : F64) : List F64 → List F64 → List F64 → List F64
  | b :: bs, a :: as, z :: zs => f64Sub (f64Add (f64Mul b x) z) (f64Mul a y) :: delayUpdate x y bs as zs
  | b :: _, a :: _, [] => [f64Sub (f64Mul b x) (f64Mul a y)]
  | _, _, _ => []

/-- One step of a filter: the output `b[0]·x + z[0]` and the new delay line (42_demod.md R176). -/
def filterStep (b a z : List F64) (x : F64) : F64 × List F64 :=
  let y := f64Add (f64Mul (b.headD f64Zero) x) (z.headD f64Zero)
  (y, delayUpdate x y b.tail a.tail z.tail)

/-- A filter run over a sequence, the delay line carried (42_demod.md R176). -/
def filterRun (b a : List F64) : List F64 → List F64 → List F64 × List F64
  | z, [] => ([], z)
  | z, x :: xs =>
    let r := filterStep b a z x
    let rest := filterRun b a r.2 xs
    (r.1 :: rest.1, rest.2)

/-- The decimator (42_demod.md R179): keep the samples at phase 0, and count the phase modulo `D`. -/
def decimate (d : Nat) : Nat → List F64 → List F64 × Nat
  | p, [] => ([], p)
  | p, x :: xs =>
    let rest := decimate d ((p + 1) % d) xs
    (if p = 0 then x :: rest.1 else rest.1, rest.2)

/-! ### The core transforms (42_demod.md R181 to R183, R186, R189, R191, R196) -/

/-- The phases `φ[n]` of a block (42_demod.md R181). -/
def phases (c : Numerics) (x : List Cplx) : List F64 := x.map fun s => numAtan2 c s.2 s.1

/-- The differences with the previous phase prepended (42_demod.md R181). -/
def phaseDiffs : F64 → List F64 → List F64
  | _, [] => []
  | prev, p :: ps => f64Sub p prev :: phaseDiffs p ps

/-- The binary64 product `2 × π`. -/
def f64TwoPi : F64 := f64Mul f64Two Config.pi

/-- `dd` wrapped into `[-π, π)`, and to `π` where a positive step wraps to `-π` (42_demod.md R182). -/
def wrapStep (dd : F64) : F64 :=
  let r0 := f64Fmod (f64Add dd Config.pi) f64TwoPi
  let r1 := if f64Lt r0 f64Zero then f64Add r0 f64TwoPi else r0
  let r := if f64Eq r1 f64Zero then f64Zero else r1
  let dm := f64Sub r Config.pi
  if f64Eq dm (f64Negate Config.pi) && f64Lt f64Zero dd then Config.pi else dm

/-- The correction of one step of the unwrap (42_demod.md R182). -/
def unwrapCorr (dd : F64) : F64 :=
  if f64Lt (f64Abs dd) Config.pi then f64Zero else f64Sub (wrapStep dd) dd

/-- The unwrap after its first element: the previous difference and the running correction carried (42_demod.md R182). -/
def unwrapFrom : F64 → F64 → List F64 → List F64
  | _, _, [] => []
  | prev, c, d :: ds =>
    let c' := f64Add c (unwrapCorr (f64Sub d prev))
    f64Add d c' :: unwrapFrom d c' ds

/-- The unwrap of a difference sequence (42_demod.md R182); its first element is never corrected. -/
def unwrap : List F64 → List F64
  | [] => []
  | d :: ds => d :: unwrapFrom d f64Zero ds

/-- The FM core transform (42_demod.md R181 to R183). -/
def coreFm (c : Numerics) (kfm lastPhase : F64) (x : List Cplx) : List F64 :=
  (unwrap (phaseDiffs lastPhase (phases c x))).map (f64Mul kfm)

/-- The envelope `|IQ(n)|` (42_demod.md R186). -/
def envelope (c : Numerics) (x : List Cplx) : List F64 := x.map (cAbs c)

/-- The sequential mean of a block (42_demod.md R186; 43_morse.md R226). -/
def meanOf (xs : List F64) : F64 := f64Div (f64Sum xs) (f64OfNat xs.length)

/-- The AM core transform: the envelope less its block mean (42_demod.md R186). -/
def coreAm (c : Numerics) (x : List Cplx) : List F64 :=
  let e := envelope c x
  let m := meanOf e
  e.map fun v => f64Sub v m

/-- `CORE` of a mode (42_demod.md R181 to R183, R186, R189, R191, R196). -/
def coreTransform (c : Numerics) (dm : Demod) (x : List Cplx) : List F64 :=
  match dm.mode with
  | .fm => coreFm c dm.kfm dm.fmLastPhase x
  | .am => coreAm c x
  | .cw => coreAm c x
  | .usb => x.map fun s => s.1
  | .lsb => x.map fun s => (cConj s).1

/-- The last phase that a block leaves: only FM writes it (42_demod.md R181). -/
def lastPhaseAfter (c : Numerics) (draw : Nat) (dm : Demod) (x : List Cplx) : F64 :=
  if dm.mode = .fm then settle draw .fmLastPhase ((phases c x).getLastD dm.fmLastPhase) else dm.fmLastPhase

/-! ### Post-filters and normalisation (42_demod.md R184, R185, R187, R188, R190) -/

/-- The FM de-emphasis over a sequence, from the carried output (42_demod.md R184). -/
def deemphasis (alpha : F64) : F64 → List F64 → List F64
  | _, [] => []
  | y, u :: us =>
    let y' := f64Add (f64Mul alpha u) (f64Mul (f64Sub f64One alpha) y)
    y' :: deemphasis alpha y' us

/-- The FM post-filter: the de-emphasised sequence, the output it carries, and the delay line it leaves alone. -/
def postDeemphasis (draw : Nat) (dm : Demod) (u : List F64) : List F64 × F64 × List F64 :=
  let y := deemphasis dm.alpha dm.fmDeY u
  (y, (if u = [] then dm.fmDeY else settle draw .fmDeY (y.getLastD dm.fmDeY)), dm.pfZ)

/-- The IIR post-filter: its output, and the delay line it leaves (no sample, no change). -/
def postIir (draw : Nat) (dm : Demod) (u : List F64) : List F64 × F64 × List F64 :=
  let r := filterRun dm.pfB dm.pfA dm.pfZ u
  (r.1, dm.fmDeY, if u = [] then dm.pfZ else settleList draw .pfZ r.2)

/-- `POST` of a mode: its output, the de-emphasis state and the delay line it leaves. -/
def postFilter (draw : Nat) (dm : Demod) (u : List F64) : List F64 × F64 × List F64 :=
  match dm.mode with
  | .fm => postDeemphasis draw dm u
  | .am => postIir draw dm u
  | .cw => postIir draw dm u
  | .usb => postIir draw dm u
  | .lsb => postIir draw dm u

/-- The hard clip to [-1, 1] (42_demod.md R185); a NaN passes (R197). -/
def clip (y : F64) : F64 :=
  if f64Lt y f64NegOne then f64NegOne else if f64Lt f64One y then f64One else y

/-- The larger of two magnitudes. -/
def f64Max (x y : F64) : F64 := if f64Lt x y then y else x

/-- The block peak: NaN if any sample is, else the largest magnitude (42_demod.md R188). -/
def blockPeak (y : List F64) : F64 :=
  if y.any f64IsNaN then f64NaN else (y.map f64Abs).foldl f64Max f64Zero

/-- Peak normalisation (42_demod.md R188); a zero peak is a no-op. -/
def normalise (y : List F64) : List F64 :=
  let pk := blockPeak y
  if f64Eq pk f64Zero then y else y.map fun v => f64Div v pk

/-- `NORM` of a mode (42_demod.md R185, R188). -/
def normFor (m : Mode) (y : List F64) : List F64 :=
  match m with
  | .fm => y.map clip
  | .am => normalise y
  | .cw => normalise y
  | .usb => normalise y
  | .lsb => normalise y

/-! ### DEMODULATE (42_demod.md R177) -/

/-- The anti-alias stage of a non-empty block (42_demod.md R178): the filter where `D > 1`, else nothing. -/
def antiAlias (draw : Nat) (dm : Demod) (x : List F64) : List F64 × List F64 :=
  if 1 < dm.decim.toNat then
    let r := filterRun dm.aaB dm.aaA dm.aaZ x
    (r.1, settleList draw .aaZ r.2)
  else (x, dm.aaZ)

/-- What one non-empty block does to the demodulator: the audio block and the carried state (42_demod.md R177). -/
def demodBlock (c : Numerics) (draw : Nat) (dm : Demod) (x : List Cplx) : List F64 × Demod :=
  let aa := antiAlias draw dm (coreTransform c dm x)
  let u := decimate dm.decim.toNat dm.decPhase.toNat aa.1
  let y := postFilter draw dm u.1
  (normFor dm.mode y.1,
   { dm with
      aaZ := aa.2
      decPhase := BitVec.ofNat 32 u.2
      fmLastPhase := lastPhaseAfter c draw dm x
      fmDeY := y.2.1
      pfZ := y.2.2 })

/-- In CW mode the raw envelope goes to `ENVBUF` and its length to `ENV_LEN` (42_demod.md R196). -/
def storeEnvelope (s : State) (x : List Cplx) : State :=
  if s.dm.mode = .cw then
    { storeValues s (envAddr 0) (envelope s.params.num x) with csr := { s.csr with envLen := BitVec.ofNat 32 x.length } }
  else s

/-- The lengths an empty block leaves (42_demod.md R193). -/
def emptyAudio (s : State) : State :=
  { s with csr := { s.csr with audioLen := 0, envLen := if s.dm.mode = .cw then 0 else s.csr.envLen } }

/-- The audio block and the carried state, stored (42_demod.md R177, R180). -/
def storeAudio (s : State) (r : List F64 × Demod) : State :=
  { storeValues s (audioAddr 0) r.1 with
    dm := r.2, csr := { s.csr with audioLen := BitVec.ofNat 32 r.1.length } }

/-- The effects of `DEMODULATE` (42_demod.md R177). -/
def demodulateEffect (s : State) : State :=
  if iqLength s = 0 then emptyAudio s
  else
    let x := iqBlock s (iqLength s)
    drawn (storeAudio (storeEnvelope s x) (demodBlock s.params.num s.draws s.dm x))

/-- The checks of `DEMODULATE`, in order (42_demod.md R177; 60_exceptions.md R273). -/
def demodulateChecks (s : State) : List (Bool × ErrCode) :=
  [(!s.dm.valid, .noDemod), (iqTooLong s, .length), (iqNonfinite s, .nonfinite)]

/-- `DEMODULATE` (42_demod.md R177). -/
def execDemodulate (s : State) : Host.Outcome State Fault Refusal :=
  .next (runCommand Instr.demodulate.opcode (demodulateChecks s) demodulateEffect s)

end Sys2Proof.Machine
end

