-- ==== Sys2Proof/Machine/MorseDecoder.lean ====
section
/-! DEFINITION. The Morse decoder, `MORSE_INIT`, `MORSE_RESET` and `MORSE_FEED` (43_morse.md R220 to R238). -/

namespace Sys2Proof.Machine

/-- 1.2, 3.0, 7.0, 0.7 and 0.5 (43_morse.md R221). -/
def f64OnePointTwo : F64 := 0x3FF3333333333333#64
def f64Three : F64 := 0x4008000000000000#64
def f64Seven : F64 := 0x401C000000000000#64
def f64PointSeven : F64 := 0x3FE6666666666666#64
def f64Half : F64 := 0x3FE0000000000000#64

/-- The classification thresholds of a dot duration (43_morse.md R221). -/
def dashThreshold (dot : F64) : F64 := f64Mul f64PointSeven (f64Mul f64Three dot)
def dotThreshold (dot : F64) : F64 := f64Mul f64Half dot
def wordGapThreshold (dot : F64) : F64 := f64Mul f64PointSeven (f64Mul f64Seven dot)
def charGapThreshold (dot : F64) : F64 := f64Mul f64PointSeven (f64Mul f64Three dot)

/-! ### Construction and reset (43_morse.md R220, R222) -/

/-- `MORSE_CLEAR` (43_morse.md R222): the code, the text, the timing and the increment, with the overflow flag. -/
def morseClear (s : State) : State :=
  { s with
    mc := { s.mc with code := [], text := [], last := false, dur := f64Zero }
    csr := { s.csr with textInc := 0 }
    status := { s.status with textOvf := false } }

/-- The checks of `MORSE_INIT`, in order (43_morse.md R220; 60_exceptions.md R273). -/
def morseInitChecks (s : State) : List (Bool × ErrCode) :=
  [(!(f64IsFinite s.csr.morseWpm && f64Lt f64Zero s.csr.morseWpm), .cfgWpm),
   (s.csr.morseRate == 0, .cfgMorseRate),
   (!(f64IsFinite s.csr.morseDetThr), .cfgDetect)]

/-- The effects of `MORSE_INIT` (43_morse.md R220): the configuration is latched, then `MORSE_CLEAR`. -/
def morseInitEffect (s : State) : State :=
  drawn (morseClear { s with
    mc := { s.mc with
      valid := true
      dot := settle s.draws .dot (f64Div f64OnePointTwo s.csr.morseWpm)
      thr := s.csr.morseDetThr
      rate := s.csr.morseRate } })

/-- `MORSE_INIT` (43_morse.md R220). -/
def execMorseInit (s : State) : Host.Outcome State Fault Refusal :=
  .next (runCommand Instr.morseInit.opcode (morseInitChecks s) morseInitEffect s)

/-- `MORSE_RESET` (43_morse.md R222): no check, with or without a decoder. -/
def execMorseReset (s : State) : Host.Outcome State Fault Refusal :=
  .next (runCommand Instr.morseReset.opcode [] morseClear s)

/-! ### The Morse table (43_morse.md R223) -/

/-- A code written as dots and dashes. -/
def codeOfString (c : String) : List Symbol := c.toList.map fun ch => if ch = '-' then .dash else .dot

/-- International Morse code for the letters and digits (43_morse.md R223), each with its ASCII byte. -/
def morseTable : List (String × Byte) :=
  [(".-", 0x41), ("-...", 0x42), ("-.-.", 0x43), ("-..", 0x44), (".", 0x45), ("..-.", 0x46), ("--.", 0x47),
   ("....", 0x48), ("..", 0x49), (".---", 0x4A), ("-.-", 0x4B), (".-..", 0x4C), ("--", 0x4D), ("-.", 0x4E),
   ("---", 0x4F), (".--.", 0x50), ("--.-", 0x51), (".-.", 0x52), ("...", 0x53), ("-", 0x54), ("..-", 0x55),
   ("...-", 0x56), (".--", 0x57), ("-..-", 0x58), ("-.--", 0x59), ("--..", 0x5A)] ++
  [("-----", 0x30), (".----", 0x31), ("..---", 0x32), ("...--", 0x33), ("....-", 0x34), (".....", 0x35),
   ("-....", 0x36), ("--...", 0x37), ("---..", 0x38), ("----.", 0x39)]

/-- `TABLE(code)`: the character of a code, or `?` (43_morse.md R223, R230). -/
def morseChar (code : List Symbol) : Byte :=
  match morseTable.find? (fun e => codeOfString e.1 == code) with
  | some e => e.2
  | none => 0x3F

/-! ### Feeding (43_morse.md R224 to R235) -/

/-- What a feed has changed so far: the decoder, the buffers, the overflow flag, and the increment. -/
structure Feed where
  mc : Morse
  mem : Memory
  textOvf : Bool
  inc : List Byte
  deriving DecidableEq, Repr

/-- `APPEND(sym)` (43_morse.md R232): a symbol beyond the capacity is dropped. -/
def feedAppend (sym : Symbol) (f : Feed) : Feed :=
  if f.mc.code.length < Config.pendingCap then { f with mc := { f.mc with code := f.mc.code ++ [sym] } } else f

/-- `EMIT(c)` (43_morse.md R233): into the increment, and into the text where it fits. -/
def feedEmit (cap : Nat) (c : Byte) (f : Feed) : Feed :=
  if f.mc.text.length < cap then
    { f with
      inc := f.inc ++ [c], mem := memSet f.mem (textAddr f.mc.text.length) c, mc := { f.mc with text := f.mc.text ++ [c] } }
  else { f with inc := f.inc ++ [c], textOvf := true }

/-- `FINALISE(space)` (43_morse.md R230): an empty code emits nothing. -/
def feedFinalise (cap : Nat) (space : Bool) (f : Feed) : Feed :=
  let g :=
    if f.mc.code = [] then f
    else
      let h := feedEmit cap (morseChar f.mc.code) f
      if space then feedEmit cap 0x20 h else h
  { g with mc := { g.mc with code := [] } }

/-- The tone that just ended (43_morse.md R228). -/
def leaveTone (f : Feed) : Feed :=
  if f64Le (dashThreshold f.mc.dot) f.mc.dur then feedAppend .dash f
  else if f64Le (dotThreshold f.mc.dot) f.mc.dur then feedAppend .dot f
  else f

/-- The gap that just ended (43_morse.md R229). -/
def leaveGap (cap : Nat) (f : Feed) : Feed :=
  if f64Le (wordGapThreshold f.mc.dot) f.mc.dur then feedFinalise cap true f
  else if f64Le (charGapThreshold f.mc.dot) f.mc.dur then feedFinalise cap false f
  else f

/-- A transition to `cur` (43_morse.md R224, R231): the ended state is classified and the duration starts again. -/
def feedTransition (cap : Nat) (cur : Bool) (f : Feed) : Feed :=
  if cur = f.mc.last then f
  else
    let g := if f.mc.last then leaveTone f else leaveGap cap f
    { g with mc := { g.mc with dur := f64Zero } }

/-- One envelope block through the state machine (43_morse.md R224, R226, R227, R231). -/
def feedBlock (cap draw : Nat) (env : List F64) (f : Feed) : Feed :=
  let cur := f64Lt f.mc.thr (meanOf env)
  let ds := f64Div (f64OfNat env.length) (f64OfNat f.mc.rate.toNat)
  let g := feedTransition cap cur f
  { g with mc := { g.mc with dur := settle draw .dur (f64Add g.mc.dur ds), last := cur } }

/-- A feed's start and its result, in the machine. -/
def feedOf (s : State) : Feed := { mc := s.mc, mem := s.mem, textOvf := s.status.textOvf, inc := [] }

def feedInto (s : State) (f : Feed) : State :=
  { s with
    mc := f.mc, mem := f.mem, status := { s.status with textOvf := f.textOvf },
    csr := { s.csr with textInc := textIncWord f.inc } }

/-- `FEED(L)`: the pseudocode of 43_morse.md R224 after its checks, on `ENVBUF[0..L-1]`. An empty block only clears the
increment (R225). -/
def feedEffect (s : State) : State :=
  if envLength s = 0 then { s with csr := { s.csr with textInc := 0 } }
  else drawn (feedInto s (feedBlock s.params.textCap s.draws (envBlock s (envLength s)) (feedOf s)))

/-- The checks of `MORSE_FEED`, in order (43_morse.md R224; 60_exceptions.md R273). -/
def morseFeedChecks (s : State) : List (Bool × ErrCode) :=
  [(!s.mc.valid, .noMorse), (envTooLong s, .length), (envNonfinite s, .nonfinite)]

/-- `MORSE_FEED` (43_morse.md R224). -/
def execMorseFeed (s : State) : Host.Outcome State Fault Refusal :=
  .next (runCommand Instr.morseFeed.opcode (morseFeedChecks s) feedEffect s)

end Sys2Proof.Machine
end

