-- ==== Sys2Proof/Machine/Spectrum.lean ====
section
/-! DEFINITION. The spectral analyser, `ANALYZE` (40_spectrum.md R130 to R137). -/

namespace Sys2Proof.Machine

/-- 0.54, 0.46 and 20.0 (40_spectrum.md R135, R136). -/
def hammingA : F64 := 0x3FE147AE147AE148#64
def hammingB : F64 := 0x3FDD70A3D70A3D71#64
def f64Twenty : F64 := 0x4034000000000000#64

/-- The periodic Hamming window `0.54 - (0.46 × cos(((2 × π) × n) / N))` (40_spectrum.md R135). -/
def hamming (c : Numerics) (n len : Nat) : F64 :=
  f64Sub hammingA (f64Mul hammingB
    (numCos c (f64Div (f64Mul (f64Mul f64Two Config.pi) (f64OfNat n)) (f64OfNat len))))

/-- The block truncated or zero-padded to `N` samples (40_spectrum.md R131). -/
def padBlock (s : State) (n : Nat) : List Cplx :=
  (List.range n).map fun i => if i < min (iqLength s) n then iqSample s i else (f64Zero, f64Zero)

/-- Each sample scaled by the window (40_spectrum.md R135). -/
def windowed (c : Numerics) (x : List Cplx) : List Cplx :=
  x.mapIdx fun n v => cScale (hamming c n x.length) v

/-- The magnitude of a bin in dB, `20 × log10(|S| + 1e-10)` (40_spectrum.md R136). -/
def binDb (c : Numerics) (v : Cplx) : F64 :=
  f64Mul f64Twenty (numLog10 c (f64Add (cAbs c v) Config.epsilon))

/-- The transform bin that output bin `k` holds, `(k - ⌊N/2⌋) mod N` (40_spectrum.md R134). -/
def centredBin (n k : Nat) : Nat := (k + (n - n / 2)) % n

/-- The spectral frame of a padded block: windowed, transformed, centred, in dB (40_spectrum.md R130). -/
def spectralFrame (c : Numerics) (x : List Cplx) : List F64 :=
  let v := windowed c x
  (List.range x.length).map fun k => binDb c (numDftBin c v (centredBin x.length k))

/-- The tag registers of a frame (40_spectrum.md R130, R133). -/
def tagFrame (s : State) : State :=
  { s with csr := { s.csr with
      specFftSize := s.csr.fftSize, specCenterFreq := s.csr.centerFreq, specSampleRate := s.csr.sampleRate } }

/-- `SPEC_LEN <- n`. -/
def setSpecLen (s : State) (n : U32) : State := { s with csr := { s.csr with specLen := n } }

/-- The effects of `ANALYZE` (40_spectrum.md R130). -/
def analyzeEffect (s : State) : State :=
  if iqLength s = 0 then setSpecLen (tagFrame s) 0
  else
    drawn (setSpecLen
      (storeValues (tagFrame s) (specAddr 0) (spectralFrame s.params.num (padBlock s (fftLength s)))) s.csr.fftSize)

/-- The checks of `ANALYZE`, in order (40_spectrum.md R130; 60_exceptions.md R273). -/
def analyzeChecks (s : State) : List (Bool × ErrCode) :=
  [(badFftSize s, .cfgFft), (iqTooLong s, .length), (iqNonfinite s, .nonfinite)]

/-- `ANALYZE` (40_spectrum.md R130). -/
def execAnalyze (s : State) : Host.Outcome State Fault Refusal :=
  .next (runCommand Instr.analyze.opcode (analyzeChecks s) analyzeEffect s)

end Sys2Proof.Machine
end

