-- ==== Sys2Proof/Machine/Squelch.lean ====
section
/-! DEFINITION. The squelch gate, `SQ_EVALUATE` (41_squelch.md R150 to R157). -/

namespace Sys2Proof.Machine

/-- 10.0 and -100.0. -/
def f64Ten : F64 := 0x4024000000000000#64
def f64NegHundred : F64 := 0xC059000000000000#64

/-- The `ERR_CFG_SQUELCH` check (41_squelch.md R151): `thr` finite with -100.0 ≤ thr ≤ 0.0, `hyst` finite with hyst ≥ 0.0. -/
def badSquelchConfig (s : State) : Bool :=
  !(f64IsFinite s.csr.sqThresholdDb && f64Le f64NegHundred s.csr.sqThresholdDb && f64Le s.csr.sqThresholdDb f64Zero &&
    f64IsFinite s.csr.sqHystDb && f64Le f64Zero s.csr.sqHystDb)

/-- The mean of `re × re + im × im` over the block (41_squelch.md R152). -/
def meanPower (x : List Cplx) : F64 := f64Div (f64Sum (x.map cNormSq)) (f64OfNat x.length)

/-- `10 × log10(p + 1e-10)` (41_squelch.md R152). -/
def powerDb (c : Numerics) (p : F64) : F64 := f64Mul f64Ten (numLog10 c (f64Add p Config.epsilon))

/-- The smoothed estimate after a block of power `pdb` (41_squelch.md R153): the first block seeds it. -/
def smoothPower (q : Squelch) (pdb : F64) : F64 :=
  if q.primed then f64Add (f64Mul Config.sqAlpha pdb) (f64Mul (f64Sub f64One Config.sqAlpha) q.smoothed) else pdb

/-- The comparator (41_squelch.md R154): an open gate closes below `thr - hyst`, a closed one opens above `thr`. -/
def gateOpen (lastOpen : Bool) (thr hyst smoothed : F64) : Bool :=
  if lastOpen then !(f64Lt smoothed (f64Sub thr hyst)) else f64Lt thr smoothed

/-- The squelch state after a non-empty block of power `pdb`, before the output (41_squelch.md R150, R153, R154). -/
def advanceSquelch (s : State) (pdb : F64) : Squelch :=
  let sm := smoothPower s.sq pdb
  { smoothed := settle s.draws .smoothed sm
    lastOpen := gateOpen s.sq.lastOpen s.csr.sqThresholdDb s.csr.sqHystDb sm
    primed := true
    isOpenOut := s.sq.isOpenOut }

/-- The output `IS_OPEN`: the gate, or 1 where squelch is disabled (41_squelch.md R155). -/
def reportGate (sqEn : Bool) (q : Squelch) : Squelch := { q with isOpenOut := if sqEn then q.lastOpen else true }

/-- The effects of `SQ_EVALUATE` (41_squelch.md R150); an empty block only reports the standing gate (R156). -/
def squelchEffect (s : State) : State :=
  if iqLength s = 0 then { s with sq := reportGate s.csr.sqEn s.sq }
  else
    drawn { s with
      sq := reportGate s.csr.sqEn (advanceSquelch s (powerDb s.params.num (meanPower (iqBlock s (iqLength s))))) }

/-- The checks of `SQ_EVALUATE`, in order (41_squelch.md R150; 60_exceptions.md R273). -/
def squelchChecks (s : State) : List (Bool × ErrCode) :=
  [(badSquelchConfig s, .cfgSquelch), (iqTooLong s, .length), (iqNonfinite s, .nonfinite)]

/-- `SQ_EVALUATE` (41_squelch.md R150). -/
def execSqEvaluate (s : State) : Host.Outcome State Fault Refusal :=
  .next (runCommand Instr.sqEvaluate.opcode (squelchChecks s) squelchEffect s)

end Sys2Proof.Machine
end

