-- ==== Sys2Proof/Machine/Control.lean ====
section
/-! DEFINITION. The commands of no single unit: `NOP`, `SOFT_RESET` and `PROCESS_BLOCK` (44_control.md R252, R253, R255). -/

namespace Sys2Proof.Machine

/-- `NOP` (44_control.md R252): completion only. -/
def execNop (s : State) : Host.Outcome State Fault Refusal :=
  .next (runCommand Instr.nop.opcode [] id s)

/-- `SOFT_RESET` (44_control.md R253; 70_reset_and_hazards.md R301). -/
def execSoftReset (s : State) : Host.Outcome State Fault Refusal :=
  .next (runCommand Instr.softReset.opcode [] resetRegisters s)

/-- The checks of `PROCESS_BLOCK`, in order, all before any effect (44_control.md R255; 60_exceptions.md R273). -/
def processChecks (s : State) : List (Bool × ErrCode) :=
  [(badFftSize s, .cfgFft), (badSquelchConfig s, .cfgSquelch), (s.dm.valid && s.dm.mode == .cw && !s.mc.valid, .noMorse),
   (iqTooLong s, .length), (iqNonfinite s, .nonfinite)]

/-- `AUDIO_LEN <- 0` and `TEXT_INC <- 0`: no audio this block (44_control.md R255). -/
def noAudio (s : State) : State := { s with csr := { s.csr with audioLen := 0, textInc := 0 } }

/-- The demodulator's part of the flow, once the gate is open (44_control.md R255, R256). -/
def processAudio (s : State) : State :=
  let t := demodulateEffect s
  if s.dm.mode = .cw then feedEffect t else { t with csr := { t.csr with textInc := 0 } }

/-- The effects of `PROCESS_BLOCK` (44_control.md R255): spectrum, squelch, then audio if a demodulator is valid and the gate open. -/
def processEffect (s : State) : State :=
  let t := squelchEffect (analyzeEffect s)
  if t.dm.valid && t.sq.isOpenOut then processAudio t else noAudio t

/-- `PROCESS_BLOCK` (44_control.md R255). -/
def execProcessBlock (s : State) : Host.Outcome State Fault Refusal :=
  .next (runCommand Instr.processBlock.opcode (processChecks s) processEffect s)

end Sys2Proof.Machine
end

