-- ==== Sys2Proof/Machine/Dispatch.lean ====
section
/-! DEFINITION. The meaning of every command, one arm per constructor of `Instr`. -/

namespace Sys2Proof.Machine

def exec (i : Instr) (s : State) : Host.Outcome State Fault Refusal :=
  match i with
  | .nop => Sys2Proof.Machine.execNop s
  | .softReset => Sys2Proof.Machine.execSoftReset s
  | .analyze => Sys2Proof.Machine.execAnalyze s
  | .sqEvaluate => Sys2Proof.Machine.execSqEvaluate s
  | .demodInit => Sys2Proof.Machine.execDemodInit s
  | .demodulate => Sys2Proof.Machine.execDemodulate s
  | .morseInit => Sys2Proof.Machine.execMorseInit s
  | .morseReset => Sys2Proof.Machine.execMorseReset s
  | .morseFeed => Sys2Proof.Machine.execMorseFeed s
  | .processBlock => Sys2Proof.Machine.execProcessBlock s

end Sys2Proof.Machine
end

