-- ==== Sys2Proof/Machine/Step.lean ====
section
/-! DEFINITION. One step of the machine (00_scope.md R8): the next entry of the agenda, or, where the agenda is empty, the core. -/

namespace Sys2Proof.Machine

/-- The core step (44_control.md R250): enabled exactly when a command is pending, it decodes and runs it (30_encoding.md R111).
With none pending the block is idle (60_exceptions.md R286). -/
def coreStep (s : State) : Host.Outcome State Fault Refusal :=
  match fetchWord s with
  | none => .next s
  | some w =>
    match decode w with
    | .ok i => exec i s
    | .error _ => .next (rejectWord w s)

/-- One step of the machine. -/
def step (s : State) : Host.Outcome State Fault Refusal :=
  match s.agenda with
  | [] => coreStep s
  | .core :: rest => coreStep { s with agenda := rest }
  | .access a :: rest => .next (recordReply (hostAccess a { s with agenda := rest }))
  | .powerOn :: rest => .next (powerOnReset { s with agenda := rest })
  | .wait :: rest => .next (hostWait { s with agenda := rest })
  | .getText :: rest => .next (hostGetText { s with agenda := rest })

/-- The state in which the very next step runs the command whose `nbits` low bits are `w`, every higher bit 0: the word is the
accepted command, and where the host has accesses to come, the core has its turn before them. -/
def State.withFetchWord (s : State) (nbits w : Nat) : State :=
  { s with
    cmd := some (BitVec.ofNat 64 (w % 2 ^ nbits))
    agenda := match s.agenda with | [] => [] | e :: rest => .core :: e :: rest }

end Sys2Proof.Machine
end

