-- ==== Sys2Proof/Machine/HostProgram.lean ====
section
/-! DEFINITION. Host programs in the syntax of 30_encoding.md R116 to R119: the base statements, the pseudo-instructions, and
their expansion into bus accesses. -/

namespace Sys2Proof.Machine

/-- A statement of a host program (30_encoding.md R116, R118). Values are 64-bit words (R117). -/
inductive Stmt where
  /-- `WR <reg>, <value>`. -/
  | wr (r : Reg) (v : Word)
  /-- `RD <reg>`. -/
  | rd (r : Reg)
  /-- `ST <region>[<j>], <value>`. -/
  | st (r : Region) (j : Nat) (v : Word)
  /-- `LD <region>[<j>]`. -/
  | ld (r : Region) (j : Nat)
  /-- `WAIT`. -/
  | wait
  /-- `EXEC <op>`. -/
  | execute (w : Word)
  /-- `STIQ <i>, <re>, <im>`. -/
  | stiq (i : Nat) (re im : F64)
  /-- `FILL <region>, <j>, <n>, <value>`. -/
  | fill (r : Region) (j n : Nat) (v : Word)
  /-- `FILLIQ <i>, <n>, <re>, <im>`. -/
  | filliq (i n : Nat) (re im : F64)
  /-- `DETECT`. -/
  | detect
  /-- `GETTEXT`. -/
  | getText
  /-- `SQ_OFF`. -/
  | sqOff
  /-- `SQ_ON`. -/
  | sqOn
  /-- `CHECK`. -/
  | check
  deriving DecidableEq, Repr

/-- The bus address of word `j` of a region (30_encoding.md R116). For an index with `base + 8·j` past 0xFFFFFF the spec gives no access;
the model takes the address modulo 2^24 (DESIGN CHOICE, log 26). -/
def wordAddr (r : Region) (j : Nat) : BusAddr := BitVec.ofNat 24 (regionBase r + 8 * j)

/-- The write of a register (30_encoding.md R116). -/
def writeReg (r : Reg) (v : Word) : Event := .access (.write (regAddr r) v)

/-- The read of a register (30_encoding.md R116). -/
def readReg (r : Reg) : Event := .access (.read (regAddr r))

/-- The write of a buffer word (30_encoding.md R116). -/
def writeBuf (r : Region) (j : Nat) (v : Word) : Event := .access (.write (wordAddr r j) v)

/-- The two writes of one complex sample (30_encoding.md R118). -/
def writeSample (i : Nat) (re im : F64) : List Event := [writeBuf .iqbuf (2 * i) re, writeBuf .iqbuf (2 * i + 1) im]

/-- The bus accesses of a statement (30_encoding.md R116, R118, R119). -/
def expandStmt : Stmt → List Event
  | .wr r v => [writeReg r v]
  | .rd r => [readReg r]
  | .st r j v => [writeBuf r j v]
  | .ld r j => [.access (.read (wordAddr r j))]
  | .wait => [.wait]
  | .execute w => [writeReg .cmd w, .wait]
  | .stiq i re im => writeSample i re im
  | .fill r j n v => (List.range n).map fun k => writeBuf r (j + k) v
  | .filliq i n re im => (List.range n).flatMap fun k => writeSample (i + k) re im
  | .detect => [writeReg .cmd (encode .sqEvaluate), .wait, readReg .sqResult]
  | .getText => [.getText]
  | .sqOff => [writeReg .ctrl 0]
  | .sqOn => [writeReg .ctrl 1]
  | .check => [readReg .status]

/-- A host program as the list of its bus accesses (30_encoding.md R119). -/
def expandProgram (p : List Stmt) : List Event := p.flatMap expandStmt

/-- The machine with a host program loaded: its accesses are the agenda. -/
def loadProgram (p : List Stmt) (s : State) : State := { s with agenda := expandProgram p }

end Sys2Proof.Machine
end

