-- ==== Sys2Proof/Safety.lean ====
section
/-! DEFINITION. What counts as a safe state of the block: the bounds and agreements that the spec's rules promise, in the
terms the statements use. No step faults or refuses, so safety is about the states that runs reach. -/

namespace Sys2Proof.Machine

/-! ### The parts of a command, and runs -/

/-- The checks of a command, in order (60_exceptions.md R273). -/
def checksOf (i : Instr) (s : State) : List (Bool × ErrCode) :=
  match i with
  | .nop => []
  | .softReset => []
  | .analyze => analyzeChecks s
  | .sqEvaluate => squelchChecks s
  | .demodInit => demodInitChecks s
  | .demodulate => demodulateChecks s
  | .morseInit => morseInitChecks s
  | .morseReset => []
  | .morseFeed => morseFeedChecks s
  | .processBlock => processChecks s

/-- The effects of a command whose checks pass. -/
def effectOf (i : Instr) (s : State) : State :=
  match i with
  | .nop => s
  | .softReset => resetRegisters s
  | .analyze => analyzeEffect s
  | .sqEvaluate => squelchEffect s
  | .demodInit => demodInitEffect s
  | .demodulate => demodulateEffect s
  | .morseInit => morseInitEffect s
  | .morseReset => morseClear s
  | .morseFeed => feedEffect s
  | .processBlock => processEffect s

/-- The state after `n` steps, where none of them stops. -/
def runSteps : Nat → State → Option State
  | 0, s => some s
  | n + 1, s =>
    match step s with
    | .next t => runSteps n t
    | .fault _ => none
    | .refused _ => none

/-- The state after host accesses, one after another. -/
def hostRun (as : List Access) (s : State) : State := as.foldl (fun t a => (hostAccess a t).2) s

/-- What the core sees is equal: everything but the host's two sticky flags, its replies, its agenda and the count of its reads while
busy. -/
def SameForCore (s t : State) : Prop :=
  t.csr = s.csr ∧ t.dm = s.dm ∧ t.sq = s.sq ∧ t.mc = s.mc ∧ t.cmd = s.cmd ∧ t.mem = s.mem ∧ t.params = s.params ∧
  t.draws = s.draws ∧ t.epoch = s.epoch ∧ t.status.textOvf = s.status.textOvf ∧ t.status.err = s.status.err ∧
  t.status.lastOp = s.status.lastOp

/-- What a register reads back after a write of `v` that it keeps: the bits of its defined fields (10_state.md R34 to R47, R61). -/
def definedBits (r : Reg) (v : Word) : Word :=
  match r with
  | .ctrl => v &&& 0x1
  | .mode => v &&& 0x7
  | .centerFreq | .sqThresholdDb | .sqHystDb | .fmDeviationHz | .morseWpm | .morseDetThr => v
  | _ => v &&& 0xFFFFFFFF

/-! ### When a command's checks pass, in the terms of the rules -/

/-- `1 ≤ FFT_SIZE ≤ FFT_MAX` (40_spectrum.md R130). -/
def FftLegal (s : State) : Prop := 1 ≤ fftLength s ∧ fftLength s ≤ s.params.fftMax

/-- The IQ block fits its buffer and is finite (00_scope.md R17; 10_state.md R39). -/
def IqUsable (s : State) : Prop :=
  iqLength s ≤ s.params.blockMax ∧
  ∀ n < iqLength s, f64IsFinite (iqSample s n).1 = true ∧ f64IsFinite (iqSample s n).2 = true

/-- The envelope block fits its buffer and is finite (43_morse.md R224). -/
def EnvUsable (s : State) : Prop :=
  envLength s ≤ s.params.blockMax ∧ ∀ n < envLength s, f64IsFinite (envSample s n) = true

/-- `thr` finite in [-100.0, 0.0] and `hyst` finite and not negative (41_squelch.md R151). -/
def SquelchLegal (s : State) : Prop :=
  f64IsFinite s.csr.sqThresholdDb = true ∧ f64Le 0xC059000000000000#64 s.csr.sqThresholdDb = true ∧
  f64Le s.csr.sqThresholdDb f64Zero = true ∧ f64IsFinite s.csr.sqHystDb = true ∧ f64Le f64Zero s.csr.sqHystDb = true

/-- The cutoff of the post-filter of mode `m` lies below the audio Nyquist frequency (42_demod.md R172). -/
def CutoffLegal (m : Mode) (fa : Nat) : Prop :=
  match m with
  | .am => 30000 < fa
  | .cw => 30000 < fa
  | .usb => 6000 < fa
  | .lsb => 6000 < fa
  | .fm => True

/-- FM needs a finite positive deviation (42_demod.md R173). -/
def DeviationLegal (m : Mode) (dev : F64) : Prop := m = .fm → f64IsFinite dev = true ∧ f64Lt f64Zero dev = true

/-! ### Frames -/

/-- Every byte outside the addresses `lo` to `hi - 1` reads as before. -/
def SameBytesOutside (s t : State) (lo hi : Nat) : Prop := ∀ a, a < lo ∨ hi ≤ a → readByte t a = readByte s a

/-- Every byte of memory reads as before. -/
def SameBytes (s t : State) : Prop := ∀ a, readByte t a = readByte s a

/-- What no command touches: the parameters, the host's side and the power-on count. -/
def SameSurroundings (s t : State) : Prop :=
  t.params = s.params ∧ t.agenda = s.agenda ∧ t.replies = s.replies ∧ t.busyReads = s.busyReads ∧ t.epoch = s.epoch

/-- The completion of a command without an error: `ERR = 0`, its opcode, nothing pending, and every other `STATUS` bit of its own as
before (44_control.md R251). -/
def CompletedOk (op : Byte) (s t : State) : Prop :=
  t.cmd = none ∧ t.status = { s.status with err := 0, lastOp := op }

/-- The address is in the CSR slots or in the size used of a buffer (20_memory.md R81, R84). -/
def MappedAddress (p : Params) (a : Nat) : Prop :=
  a < 0x100 ∨ (0x100000 ≤ a ∧ a < 0x100000 + 16 * p.blockMax) ∨ (0x200000 ≤ a ∧ a < 0x200000 + 8 * p.fftMax) ∨
  (0x300000 ≤ a ∧ a < 0x300000 + 8 * p.blockMax) ∨ (0x400000 ≤ a ∧ a < 0x400000 + 8 * p.blockMax) ∨
  (0x500000 ≤ a ∧ a < 0x500000 + p.textCap)

/-! ### The value of a number -/

/-- A finite value in units of 2^(-1074), the smallest step of binary64 (00_scope.md R15). -/
def f64Units (x : F64) : Int := if f64Neg x then -((f64Sig x * 2 ^ f64Scale x : Nat) : Int) else (f64Sig x * 2 ^ f64Scale x : Nat)

/-- `r` is the finite binary64 value nearest to `num / den` units, and of two nearest ones the one with an even last place. -/
def NearestEven (num den : Int) (r : F64) : Prop :=
  ∀ z, f64IsFinite z = true →
    |num - f64Units r * den| ≤ |num - f64Units z * den| ∧
    (|num - f64Units r * den| = |num - f64Units z * den| → f64Units z ≠ f64Units r → r.toNat % 2 = 0)

/-! ### Safe states -/

/-- An address inside the size used of some buffer (20_memory.md R81, R84). -/
def mapped (p : Params) (a : Nat) : Bool := Region.all.any (inRegion p a)

/-- The buffers are in canonical form and hold nothing outside the mapped addresses (20_memory.md R84). -/
def MemoryOk (s : State) : Prop := Memory.wf s.mem = true ∧ ∀ c ∈ s.mem, mapped s.params c.1 = true

/-- The decoded text fits its buffer and `TEXTBUF` holds it (20_memory.md R88; 43_morse.md R233). -/
def TextOk (s : State) : Prop :=
  s.mc.text.length ≤ s.params.textCap ∧
  ∀ i (h : i < s.mc.text.length), memGet s.mem (textAddr i) = some (s.mc.text[i]'h)

/-- The pending code fits `MORSE_CODE` and the increment fits `TEXT_INC` (43_morse.md R232, R235; 10_state.md R56, R57). -/
def MorseOk (s : State) : Prop :=
  s.mc.code.length ≤ Config.pendingCap ∧ s.csr.textInc.toNat < 3 * 2 ^ 16

/-- The coefficient lists and the delay line of a filter of order `k` have their lengths (10_state.md R62, R63, R65). -/
def FilterShape (b a z : List F64) (k : Nat) : Prop := b.length = k + 1 ∧ a.length = k + 1 ∧ z.length = k

/-- A valid demodulator: an exact decimation ratio, a phase below it, and filters of their orders (10_state.md R62, R63, R65;
42_demod.md R170, R171). -/
def DemodOk (s : State) : Prop :=
  s.dm.valid = true →
    1 ≤ s.dm.decim.toNat ∧ s.dm.fs.toNat = s.dm.decim.toNat * s.dm.fa.toNat ∧ s.dm.decPhase.toNat < s.dm.decim.toNat ∧
    s.dm.aaZ.length = s.params.aaOrder ∧
    (1 < s.dm.decim.toNat → FilterShape s.dm.aaB s.dm.aaA s.dm.aaZ s.params.aaOrder) ∧
    ∀ k, postOrder s.dm.mode = some k → FilterShape s.dm.pfB s.dm.pfA s.dm.pfZ k

/-- The valid lengths fit their buffers (20_memory.md R85, R86). -/
def LengthsOk (s : State) : Prop :=
  s.csr.specLen.toNat ≤ s.params.fftMax ∧ s.csr.audioLen.toNat ≤ s.params.blockMax

/-- Only the codes of 60_exceptions.md R271 are ever in `STATUS.ERR`. -/
def ErrOk (s : State) : Prop := s.status.err.toNat ≤ 0x0F

/-- The invariant of the block, for a legal configuration (00_scope.md R10). -/
structure Inv (s : State) : Prop where
  legal : s.params.legal = true
  memory : MemoryOk s
  text : TextOk s
  morse : MorseOk s
  demod : DemodOk s
  lengths : LengthsOk s
  err : ErrOk s

end Sys2Proof.Machine
end

