-- ==== Sys2Proof/WellFormed.lean ====
section
/-! DEFINITION. What is well formed: a command word whose reserved field is zero and whose opcode is assigned
(30_encoding.md R110, R111, R113). A command itself has no operand, so every `Instr` is well formed. -/

namespace Sys2Proof

/-- The reserved field must be 0 (30_encoding.md R110). -/
def reservedClear (w : Word) : Bool := cmdRsv w == 0

/-- The opcode is one of 30_encoding.md R112. -/
def opcodeAssigned (w : Word) : Bool := Instr.all.any fun i => i.opcode == cmdOp w

/-- A legal command word (30_encoding.md R111): the two checks of the decoder. -/
def WellFormedWord (w : Word) : Bool := reservedClear w && opcodeAssigned w

/-- A command has no operand fields (30_encoding.md R110, R114), so nothing in it can be ill formed. -/
def WellFormed : Instr → Bool
  | .nop => true
  | .softReset => true
  | .analyze => true
  | .sqEvaluate => true
  | .demodInit => true
  | .demodulate => true
  | .morseInit => true
  | .morseReset => true
  | .morseFeed => true
  | .processBlock => true

end Sys2Proof
end

