-- ==== Sys2Proof/Certificates/Slice0/Obligations.lean ====
section
/-! DEFINITION. The statements about the block, in the order of OBLIGATIONS.json. Each docstring names the rules it formalises. Where a
statement shows a value that the spec leaves open (the pattern of a NaN, log 1; an unspecified field, log 2; a byte after power-on, log 4; a
read while busy, log 5) it names the free value by its constant, so it holds for every value of that constant. -/

open Sys2Proof Sys2Proof.Machine

/-! ### Encoding -/

/-- 30_encoding.md R110, R112: a word is a command exactly when it is the whole word of the map. -/
def Obligations.DecodeAndEncodeAgree : Prop :=
  (∀ (w : Word) (i : Instr), decode w = .ok i ↔ w = encode i) ∧
  Instr.all.map encode = [0x00#64, 0x01#64, 0x10#64, 0x20#64, 0x30#64, 0x31#64, 0x40#64, 0x41#64, 0x42#64, 0x50#64] ∧
  (∀ (i : Instr) (rest : List Byte), i ∈ Instr.all ∧ decodeBytes (encodeBytes i ++ rest) = .ok (i, rest))

/-- 30_encoding.md R113: exactly the words with a nonzero bit in [63:8] or an opcode in one of the reserved ranges are illegal. -/
def Obligations.IllegalWordsAreTheReservedRanges : Prop :=
  ∀ w : Word,
    let op := w.toNat % 256
    (∃ e, decode w = .error e) ↔
      256 ≤ w.toNat ∨ (0x02 ≤ op ∧ op ≤ 0x0F) ∨ (0x11 ≤ op ∧ op ≤ 0x1F) ∨ (0x21 ≤ op ∧ op ≤ 0x2F) ∨
      (0x32 ≤ op ∧ op ≤ 0x3F) ∨ (0x43 ≤ op ∧ op ≤ 0x4F) ∨ (0x51 ≤ op ∧ op ≤ 0xFF)

/-- 30_encoding.md R112, R113: a few words written out bit by bit. -/
def Obligations.SampleWordsDecode : Prop :=
  decode 0b00000001#64 = .ok .softReset ∧ decode 0b00010000#64 = .ok .analyze ∧ decode 0b00100000#64 = .ok .sqEvaluate ∧
  decode 0b00110001#64 = .ok .demodulate ∧ decode 0b01000010#64 = .ok .morseFeed ∧ decode 0b01010000#64 = .ok .processBlock ∧
  decode 0b100010000#64 = .error .reservedBits ∧ decode 0b01010001#64 = .error .unassignedOpcode

/-! ### The core and the host -/

/-- 44_control.md R250: with a legal word pending, a step is the meaning of its command; the core runs where no access of the host comes
first. -/
def Obligations.StepRunsThePendingCommand : Prop :=
  ∀ (s : State) (w : Word) (i : Instr), s.cmd = some w → decode w = .ok i → WellFormed i = true →
    (s.agenda = [] → step s = exec i s) ∧
    (∀ rest, s.agenda = .core :: rest → step s = exec i { s with agenda := rest })

/-- 30_encoding.md R111: the decode at the core step of an accepted word. -/
def Obligations.CoreStepDecodesTheWord : Prop :=
  ∀ (s : State) (w : Word), s.cmd = some w →
    (w.extractLsb' 8 56 ≠ 0 ∨ (∀ i : Instr, i.opcode ≠ w.extractLsb' 0 8) →
      coreStep s = .next { s with
        cmd := none, status := { s.status with err := 0x01, lastOp := w.extractLsb' 0 8 } }) ∧
    (∀ i : Instr, w.extractLsb' 8 56 = 0 → i.opcode = w.extractLsb' 0 8 →
      coreStep s = exec i s ∧ ∃ t, exec i s = .next t ∧ t.status.lastOp = w.extractLsb' 0 8)

/-- 00_scope.md R8, 60_exceptions.md R286: with no command pending a turn of the core changes nothing, and a host access takes effect in
one step, its reply noted (log 11). -/
def Obligations.StepServesTheAgenda : Prop :=
  ∀ s : State,
    (s.cmd = none → s.agenda = [] → step s = .next s) ∧
    (∀ rest, s.cmd = none → s.agenda = .core :: rest → step s = .next { s with agenda := rest }) ∧
    (∀ a rest, s.agenda = .access a :: rest →
      step s = .next
        { (hostAccess a { s with agenda := rest }).2 with
          replies := (hostAccess a { s with agenda := rest }).1 :: (hostAccess a { s with agenda := rest }).2.replies })

/-- 20_memory.md R84, R91: an unmapped or misaligned access answers `SLVERR` and changes nothing, busy or not; every other access answers
`OKAY`. -/
def Obligations.UnmappedAndMisalignedAnswerSlverr : Prop :=
  ∀ (s : State) (addr : BusAddr) (v : Word),
    (¬ MappedAddress s.params addr.toNat ∨ addr.toNat % 8 ≠ 0 →
      hostAccess (.read addr) s = ({ response := .slverr, data := 0 }, s) ∧
      hostAccess (.write addr v) s = ({ response := .slverr, data := 0 }, s)) ∧
    (MappedAddress s.params addr.toNat → addr.toNat % 8 = 0 →
      (hostAccess (.read addr) s).1.response = .okay ∧ (hostAccess (.write addr v) s).1.response = .okay)

/-- 10_state.md R61: a write to an idle block's register keeps the defined fields of an `RW` register and is ignored by any other; no
other register changes. -/
def Obligations.IdleRegisterWriteReadsBack : Prop :=
  ∀ (s : State) (r : Reg) (v : Word), busy s = false → r ≠ .cmd →
    ∃ t, hostAccess (.write (regAddr r) v) s = ({ response := .okay, data := 0 }, t) ∧
      regValue t r = (if regWritable r then definedBits r v else regValue s r) ∧
      (∀ q, q ≠ r → regValue t q = regValue s q) ∧
      t = { s with csr := t.csr } ∧ (regWritable r = false → t = s)

/-- 20_memory.md R81, R89, R92: a word written to an `RW` buffer of an idle block reads back, byte by byte little-endian, and no other byte
changes; a write to an `RO` buffer is ignored. -/
def Obligations.IdleBufferWriteReadsBack : Prop :=
  ∀ (s : State) (r : Region) (j : Nat) (v : Word), s.params.legal = true → busy s = false → 8 * j < regionUsed s.params r →
    let a := regionBase r + 8 * j
    ∃ t, hostAccess (.write (BitVec.ofNat 24 a) v) s = ({ response := .okay, data := 0 }, t) ∧
      (hostAccess (.read (BitVec.ofNat 24 a)) t).1 = { response := .okay, data := readWord t a } ∧
      (regionWritable r = true →
        readWord t a = v ∧ (∀ i < 8, readByte t (a + i) = v.extractLsb' (8 * i) 8) ∧ SameBytesOutside s t a (a + 8) ∧
        t = { s with mem := t.mem }) ∧
      (regionWritable r = false → t = s)

/-- 70_reset_and_hazards.md R310, R311: a write to a busy block is dropped, and only a sticky flag records it. -/
def Obligations.BusyWritesAreDropped : Prop :=
  ∀ (s : State) (addr : BusAddr) (v : Word), busy s = true →
    (addr = 0x08 →
      hostAccess (.write addr v) s =
        ({ response := .okay, data := 0 }, { s with status := { s.status with cmdOvr := true } })) ∧
    (MappedAddress s.params addr.toNat → addr.toNat % 8 = 0 → addr ≠ 0x08 →
      hostAccess (.write addr v) s =
        ({ response := .okay, data := 0 }, { s with status := { s.status with wrDrop := true } }))

/-- 10_state.md R32: a write to `CMD` of an idle block is a command issue; `CMD` reads 0. -/
def Obligations.CommandIssueMakesTheBlockBusy : Prop :=
  ∀ (s : State) (w : Word),
    (busy s = false →
      hostAccess (.write 0x08 w) s = ({ response := .okay, data := 0 }, { s with cmd := some w }) ∧
      (regValue { s with cmd := some w } .status).getLsbD 0 = true) ∧
    hostAccess (.read 0x08) s = ({ response := .okay, data := 0 }, s)

/-- 20_memory.md R93; 70_reset_and_hazards.md R312: what a read returns, idle and busy. A read while busy of an output returns a fresh
free value (log 5) and changes only the model's count of such reads (log 13). -/
def Obligations.ReadsReturnTheValueOrADraw : Prop :=
  ∀ s : State,
    (∀ r : Reg, busy s = false ∨ regIsOutput r = false →
      hostAccess (.read (regAddr r)) s = ({ response := .okay, data := regValue s r }, s)) ∧
    (∀ r : Reg, busy s = true → regIsOutput r = true →
      hostAccess (.read (regAddr r)) s =
        ({ response := .okay, data := Config.busyRead s.busyReads }, { s with busyReads := s.busyReads + 1 })) ∧
    (∀ (r : Region) (j : Nat), s.params.legal = true → 8 * j < regionUsed s.params r →
      let addr := BitVec.ofNat 24 (regionBase r + 8 * j)
      (busy s = false ∨ r = .iqbuf →
        hostAccess (.read addr) s = ({ response := .okay, data := readWord s (regionBase r + 8 * j) }, s)) ∧
      (busy s = true → r ≠ .iqbuf →
        hostAccess (.read addr) s =
          ({ response := .okay, data := Config.busyRead s.busyReads }, { s with busyReads := s.busyReads + 1 })))

/-! ### The register views -/

/-- 10_state.md R33: the fields of `STATUS`. -/
def Obligations.StatusShowsItsFields : Prop :=
  ∀ s : State,
    let w := regValue s .status
    w.getLsbD 0 = busy s ∧ w.getLsbD 1 = s.dm.valid ∧ w.getLsbD 2 = s.mc.valid ∧ w.getLsbD 3 = s.status.textOvf ∧
    w.getLsbD 4 = s.status.cmdOvr ∧ w.getLsbD 5 = s.status.wrDrop ∧ w.extractLsb' 6 2 = 0 ∧
    w.extractLsb' 8 8 = s.status.err ∧ w.extractLsb' 16 8 = s.status.lastOp ∧ w.extractLsb' 24 40 = 0

/-- 10_state.md R57: the fields of `MORSE_CODE`, for a pending code of at most 32 symbols (the bound that `StepKeepsTheInvariant`
shows kept). -/
def Obligations.MorseCodeShowsThePendingCode : Prop :=
  (∀ s : State, s.mc.code.length ≤ 32 →
    let w := regValue s .morseCode
    (w.extractLsb' 0 6).toNat = s.mc.code.length ∧ w.extractLsb' 6 2 = 0 ∧
    (∀ i < 32, w.getLsbD (8 + i) = (s.mc.code[i]? == some .dash)) ∧
    w.getLsbD 40 = s.mc.last ∧ w.extractLsb' 41 23 = 0) ∧
  regValue State.reset .morseCode = 0 ∧ regAddr .morseCode = 0xD0 ∧
  ∀ (s : State) (v : Word), busy s = false → (hostAccess (.write 0xD0 v) s).2 = s

/-- 10_state.md R53, R54, R55, R58, R59: the other views of hidden state. -/
def Obligations.ViewRegistersShowHiddenState : Prop :=
  ∀ s : State,
    (let w := regValue s .sqResult
     w.getLsbD 0 = s.sq.isOpenOut ∧ w.getLsbD 1 = s.sq.lastOpen ∧ w.getLsbD 2 = s.sq.primed ∧ w.extractLsb' 3 61 = 0) ∧
    regValue s .sqPowerDb = s.sq.smoothed ∧
    (s.mc.text.length < 2 ^ 32 → (regValue s .textLen).toNat = s.mc.text.length) ∧
    regValue s .morseDuration = s.mc.dur ∧
    (s.dm.valid = false → regValue s .demodInfo = 0) ∧
    (s.dm.valid = true →
      (regValue s .demodInfo).extractLsb' 0 32 = s.dm.decim ∧
      (regValue s .demodInfo).extractLsb' 32 3 =
        (match s.dm.mode with | .am => 0#3 | .fm => 1#3 | .usb => 2#3 | .lsb => 3#3 | .cw => 4#3) ∧
      (regValue s .demodInfo).extractLsb' 35 29 = 0)

/-! ### Reset -/

/-- 70_reset_and_hazards.md R303: the reset value of every register, in the order of the offsets. -/
def Obligations.ResetRegisterValues : Prop :=
  Reg.all.map (regValue State.reset) =
    [0x5752534452303037#64, 0#64, 0#64, 1#64, 0#64, 0#64, 0#64, 0#64, 0#64, 0#64,
     0xC049000000000000#64, 0x4008000000000000#64, 0x40F24F8000000000#64, 0x4034000000000000#64, 0x3FD3333333333333#64, 0#64,
     0#64, 0#64, 0#64, 0#64, 0#64, 0#64, 0#64, 0xC059000000000000#64, 0#64, 0#64, 0#64, 0#64, 0#64, 0#64, 0#64, 0#64] ∧
  State.reset.cmd = none ∧ State.reset.dm.valid = false ∧ State.reset.mc.valid = false

/-- 70_reset_and_hazards.md R300, R302: a power-on reset discards a pending command, restores every register, and leaves every buffer byte
unspecified (log 4). -/
def Obligations.PowerOnResetDiscardsThePendingCommand : Prop :=
  ∀ (s : State) (rest : List Event), s.agenda = .powerOn :: rest →
    ∃ t, step s = .next t ∧ t.cmd = none ∧ (∀ r : Reg, regValue t r = regValue State.reset r) ∧ t.dm.valid = false ∧
      t.sq = { smoothed := 0xC059000000000000#64, lastOpen := false, primed := false, isOpenOut := false } ∧
      t.mc.valid = false ∧ t.mc.code = [] ∧ t.mc.text = [] ∧ t.mc.last = false ∧ t.mc.dur = f64Zero ∧
      (∀ a, readByte t a = Config.powerOnByte t.epoch a) ∧ t.epoch = s.epoch + 1 ∧
      t.params = s.params ∧ t.agenda = rest ∧ t.replies = s.replies

/-- 44_control.md R253; 70_reset_and_hazards.md R301: `SOFT_RESET` restores every register and keeps the buffers. -/
def Obligations.SoftResetRestoresTheRegisters : Prop :=
  ∀ s : State, ∃ t, exec .softReset s = .next t ∧
    (∀ r : Reg, regValue t r = if r = .status then 0x0000000000010000#64 else regValue State.reset r) ∧
    t.cmd = none ∧ t.dm.valid = false ∧
    t.sq = { smoothed := 0xC059000000000000#64, lastOpen := false, primed := false, isOpenOut := false } ∧
    t.mc.valid = false ∧ t.mc.code = [] ∧ t.mc.text = [] ∧ t.mc.last = false ∧ t.mc.dur = f64Zero ∧
    SameBytes s t ∧ SameSurroundings s t

/-! ### Completion, errors and flags -/

/-- 44_control.md R252: `NOP` is completion only. -/
def Obligations.NopOnlyCompletes : Prop :=
  encode .nop = 0x0000000000000000#64 ∧
  ∀ s : State, exec .nop s = .next { s with cmd := none, status := { s.status with err := 0, lastOp := 0x00 } }

/-- 44_control.md R251; 60_exceptions.md R271: every pending word completes in one core step, with a code of the table and its opcode
field. -/
def Obligations.EveryPendingWordCompletes : Prop :=
  ∀ (s : State) (w : Word), s.cmd = some w →
    ∃ t, coreStep s = .next t ∧ t.cmd = none ∧ busy t = false ∧ t.status.lastOp = w.extractLsb' 0 8 ∧
      t.status.err.toNat ≤ 0x0F ∧ SameSurroundings s t

/-- 60_exceptions.md R274: a command that raises changes no state but the completion fields. -/
def Obligations.FailedCommandChangesNothingElse : Prop :=
  ∀ (s t : State) (w : Word), s.cmd = some w → coreStep s = .next t → t.status.err ≠ 0 →
    t = { s with cmd := none, status := { s.status with err := t.status.err, lastOp := w.extractLsb' 0 8 } }

/-- 60_exceptions.md R273: the first failing check of the commands that read a block is the one reported. -/
def Obligations.BlockCommandsReportTheFirstError : Prop :=
  ∀ s : State,
    let badFft := fftLength s = 0 ∨ s.params.fftMax < fftLength s
    let iqLong := s.params.blockMax < iqLength s
    let iqBad := ∃ n < iqLength s, f64IsFinite (iqSample s n).1 = false ∨ f64IsFinite (iqSample s n).2 = false
    let envLong := s.params.blockMax < envLength s
    let envBad := ∃ n < envLength s, f64IsFinite (envSample s n) = false
    let reports := fun (i : Instr) (p : Byte → Prop) => ∃ t, exec i s = .next t ∧ p t.status.err
    reports .analyze (fun e =>
      (badFft → e = 0x04) ∧ (¬ badFft → iqLong → e = 0x02) ∧ (¬ badFft → ¬ iqLong → iqBad → e = 0x03) ∧
      (¬ badFft → ¬ iqLong → ¬ iqBad → e = 0x00)) ∧
    reports .sqEvaluate (fun e =>
      (¬ SquelchLegal s → e = 0x05) ∧ (SquelchLegal s → iqLong → e = 0x02) ∧ (SquelchLegal s → ¬ iqLong → iqBad → e = 0x03) ∧
      (SquelchLegal s → ¬ iqLong → ¬ iqBad → e = 0x00)) ∧
    reports .demodulate (fun e =>
      (s.dm.valid = false → e = 0x0E) ∧ (s.dm.valid = true → iqLong → e = 0x02) ∧
      (s.dm.valid = true → ¬ iqLong → iqBad → e = 0x03) ∧ (s.dm.valid = true → ¬ iqLong → ¬ iqBad → e = 0x00)) ∧
    reports .morseFeed (fun e =>
      (s.mc.valid = false → e = 0x0F) ∧ (s.mc.valid = true → envLong → e = 0x02) ∧
      (s.mc.valid = true → ¬ envLong → envBad → e = 0x03) ∧ (s.mc.valid = true → ¬ envLong → ¬ envBad → e = 0x00)) ∧
    reports .processBlock (fun e =>
      let noMorse := s.dm.valid = true ∧ s.dm.mode = .cw ∧ s.mc.valid = false
      (badFft → e = 0x04) ∧ (¬ badFft → ¬ SquelchLegal s → e = 0x05) ∧ (¬ badFft → SquelchLegal s → noMorse → e = 0x0F) ∧
      (¬ badFft → SquelchLegal s → ¬ noMorse → iqLong → e = 0x02) ∧
      (¬ badFft → SquelchLegal s → ¬ noMorse → ¬ iqLong → iqBad → e = 0x03) ∧
      (¬ badFft → SquelchLegal s → ¬ noMorse → ¬ iqLong → ¬ iqBad → e = 0x00))

/-- 42_demod.md R170 to R173, 43_morse.md R220: the first failing check of a construction is the one reported. -/
def Obligations.ConstructionsReportTheFirstError : Prop :=
  ∀ s : State,
    let sel := s.csr.modeSel.toNat
    let fs := s.csr.sampleRate.toNat
    let fa := s.csr.audioRate.toNat
    let dev := s.csr.fmDeviationHz
    let noRate := fs = 0 ∨ fa = 0
    let cutoff := ((sel = 0 ∨ sel = 4) ∧ fa ≤ 30000) ∨ ((sel = 2 ∨ sel = 3) ∧ fa ≤ 6000)
    let badDev := sel = 1 ∧ ¬ (f64IsFinite dev = true ∧ f64Lt f64Zero dev = true)
    let badWpm := ¬ (f64IsFinite s.csr.morseWpm = true ∧ f64Lt f64Zero s.csr.morseWpm = true)
    let badThr := f64IsFinite s.csr.morseDetThr = false
    (∃ t, exec .demodInit s = .next t ∧
      (5 ≤ sel → t.status.err = 0x06) ∧ (sel < 5 → noRate → t.status.err = 0x07) ∧
      (sel < 5 → ¬ noRate → fs % fa ≠ 0 → t.status.err = 0x08) ∧
      (sel < 5 → ¬ noRate → fs % fa = 0 → cutoff → t.status.err = 0x09) ∧
      (sel < 5 → ¬ noRate → fs % fa = 0 → ¬ cutoff → badDev → t.status.err = 0x0A) ∧
      (sel < 5 → ¬ noRate → fs % fa = 0 → ¬ cutoff → ¬ badDev → t.status.err = 0x00)) ∧
    (∃ t, exec .morseInit s = .next t ∧
      (badWpm → t.status.err = 0x0B) ∧ (¬ badWpm → s.csr.morseRate = 0 → t.status.err = 0x0C) ∧
      (¬ badWpm → s.csr.morseRate ≠ 0 → badThr → t.status.err = 0x0D) ∧
      (¬ badWpm → s.csr.morseRate ≠ 0 → ¬ badThr → t.status.err = 0x00))

/-- 10_state.md R33; 44_control.md R253: which command changes which flag of `STATUS`. -/
def Obligations.OnlyTheNamedCommandsChangeAFlag : Prop :=
  ∀ (i : Instr) (s t : State), exec i s = .next t →
    (i ≠ .softReset → t.status.cmdOvr = s.status.cmdOvr ∧ t.status.wrDrop = s.status.wrDrop) ∧
    (i ≠ .softReset → i ≠ .demodInit → t.dm.valid = s.dm.valid) ∧ (i = .demodInit → s.dm.valid = true → t.dm.valid = true) ∧
    (i ≠ .softReset → i ≠ .morseInit → t.mc.valid = s.mc.valid) ∧ (i = .morseInit → s.mc.valid = true → t.mc.valid = true) ∧
    (i ≠ .softReset → i ≠ .morseInit → i ≠ .morseReset → s.status.textOvf = true → t.status.textOvf = true) ∧
    (i ≠ .softReset → i ≠ .morseInit → i ≠ .morseReset → i ≠ .morseFeed → i ≠ .processBlock →
      t.status.textOvf = s.status.textOvf)

/-! ### Who may write what -/

/-- 10_state.md R62: no command but `DEMOD_INIT` (and the resets) writes the demodulator's configuration. -/
def Obligations.OnlyConstructionWritesTheDemodulatorConfiguration : Prop :=
  ∀ (i : Instr) (s t : State), i ≠ .demodInit → i ≠ .softReset → exec i s = .next t →
    t.dm.valid = s.dm.valid ∧ t.dm.mode = s.dm.mode ∧ t.dm.fs = s.dm.fs ∧ t.dm.fa = s.dm.fa ∧ t.dm.decim = s.dm.decim ∧
    t.dm.kfm = s.dm.kfm ∧ t.dm.alpha = s.dm.alpha ∧ t.dm.aaB = s.dm.aaB ∧ t.dm.aaA = s.dm.aaA ∧ t.dm.pfB = s.dm.pfB ∧
    t.dm.pfA = s.dm.pfA

/-- 20_memory.md R83, R95: a byte that a command changes lies in the used part of a buffer the command may write, and never in
`IQBUF`. -/
def Obligations.CommandsWriteOnlyTheirBuffers : Prop :=
  ∀ (i : Instr) (s t : State) (a : Nat), exec i s = .next t → readByte t a ≠ readByte s a →
    (s.params.legal = true → ¬ (0x100000 ≤ a ∧ a < 0x100000 + 16 * s.params.blockMax)) ∧
    (((i = .analyze ∨ i = .processBlock) ∧ 0x200000 ≤ a ∧ a < 0x200000 + 8 * s.params.fftMax) ∨
    ((i = .demodulate ∨ i = .processBlock) ∧ s.dm.valid = true ∧ 0x300000 ≤ a ∧ a < 0x300000 + 8 * s.params.blockMax) ∨
    ((i = .demodulate ∨ i = .processBlock) ∧ s.dm.valid = true ∧ s.dm.mode = .cw ∧
      0x400000 ≤ a ∧ a < 0x400000 + 8 * s.params.blockMax) ∨
    ((i = .morseFeed ∨ i = .processBlock) ∧ s.mc.valid = true ∧ 0x500000 ≤ a ∧ a < 0x500000 + s.params.textCap))

/-! ### The spectral analyser -/

/-- 40_spectrum.md R130, R131, R132, R134, R135, R136: the frame of a block that is not empty. Each bin is the formula's value; a NaN among
them has a free pattern (log 1). -/
def Obligations.AnalyzeWritesTheSpectralFrame : Prop :=
  ∀ s : State, FftLegal s → IqUsable s → 0 < iqLength s →
    let c := s.params.num
    let n := fftLength s
    let window := fun i => f64Sub 0x3FE147AE147AE148#64
      (f64Mul 0x3FDD70A3D70A3D71#64 (numCos c (f64Div (f64Mul (f64Mul f64Two Config.pi) (f64OfNat i)) (f64OfNat n))))
    let x := fun i => if i < min (iqLength s) n then iqSample s i else (f64Zero, f64Zero)
    let v := (List.range n).map fun i => (f64Mul (window i) (x i).1, f64Mul (window i) (x i).2)
    let bin := fun k => f64Mul 0x4034000000000000#64
      (numLog10 c (f64Add (cAbs c (numDftBin c v ((k + n - n / 2) % n))) 0x3DDB7CDFD9D7BDBB#64))
    ∃ t, exec .analyze s = .next t ∧
      (∀ k < n, readWord t (specAddr k) = settle s.draws (.bufferWord (specAddr k)) (bin k)) ∧
      SameBytesOutside s t (specAddr 0) (specAddr n) ∧
      t.csr = { s.csr with
        specLen := s.csr.fftSize, specFftSize := s.csr.fftSize, specCenterFreq := s.csr.centerFreq,
        specSampleRate := s.csr.sampleRate } ∧
      t.dm = s.dm ∧ t.sq = s.sq ∧ t.mc = s.mc ∧ CompletedOk 0x10 s t ∧ SameSurroundings s t

/-- 40_spectrum.md R133: an empty block gives an empty frame with its tags. -/
def Obligations.AnalyzeOfAnEmptyBlockWritesOnlyTheTags : Prop :=
  ∀ s : State, FftLegal s → iqLength s = 0 →
    exec .analyze s = .next { s with
      csr := { s.csr with
        specLen := 0, specFftSize := s.csr.fftSize, specCenterFreq := s.csr.centerFreq, specSampleRate := s.csr.sampleRate }
      status := { s.status with err := 0, lastOp := 0x10 }
      cmd := none }

/-- 40_spectrum.md R137: two `ANALYZE` commands with equal operands write equal frames, whatever the hidden state (where a bin is a NaN,
both are, and their patterns are free, log 1). -/
def Obligations.AnalyzeDependsOnItsOperandsAlone : Prop :=
  ∀ s s' t t' : State, s'.params = s.params → s'.csr.fftSize = s.csr.fftSize → s'.csr.iqLen = s.csr.iqLen →
    (∀ n < iqLength s, iqSample s' n = iqSample s n) → exec .analyze s = .next t → exec .analyze s' = .next t' →
    t'.status.err = t.status.err ∧
    (t.status.err = 0 → t'.csr.specLen = t.csr.specLen ∧
      ∀ k < t.csr.specLen.toNat,
        f64IsNaN (readWord t' (specAddr k)) = f64IsNaN (readWord t (specAddr k)) ∧
        (f64IsNaN (readWord t (specAddr k)) = false → readWord t' (specAddr k) = readWord t (specAddr k)))

/-! ### The squelch gate -/

/-- 41_squelch.md R150, R152 to R155: the gate after a block that is not empty. A NaN estimate is held with a free pattern (log 1). -/
def Obligations.SqEvaluateAdvancesTheGate : Prop :=
  ∀ s : State, SquelchLegal s → IqUsable s → 0 < iqLength s →
    let square := fun n => f64Add (f64Mul (iqSample s n).1 (iqSample s n).1) (f64Mul (iqSample s n).2 (iqSample s n).2)
    let p := f64Div (f64Sum ((List.range (iqLength s)).map square)) (f64OfNat (iqLength s))
    let pdb := f64Mul 0x4024000000000000#64 (numLog10 s.params.num (f64Add p 0x3DDB7CDFD9D7BDBB#64))
    let smoothed :=
      if s.sq.primed then
        f64Add (f64Mul 0x3FB999999999999A#64 pdb) (f64Mul (f64Sub f64One 0x3FB999999999999A#64) s.sq.smoothed)
      else pdb
    let gate :=
      if s.sq.lastOpen then !(f64Lt smoothed (f64Sub s.csr.sqThresholdDb s.csr.sqHystDb))
      else f64Lt s.csr.sqThresholdDb smoothed
    ∃ t, exec .sqEvaluate s = .next t ∧
      t.sq = { smoothed := settle s.draws .smoothed smoothed, lastOpen := gate, primed := true,
               isOpenOut := if s.csr.sqEn then gate else true } ∧
      t.csr = s.csr ∧ t.dm = s.dm ∧ t.mc = s.mc ∧ SameBytes s t ∧ CompletedOk 0x20 s t ∧ SameSurroundings s t

/-- 41_squelch.md R156: an empty block reports the standing gate and changes nothing else. -/
def Obligations.SqEvaluateOfAnEmptyBlockReportsTheGate : Prop :=
  ∀ s : State, SquelchLegal s → iqLength s = 0 →
    exec .sqEvaluate s = .next { s with
      sq := { s.sq with isOpenOut := if s.csr.sqEn then s.sq.lastOpen else true }
      status := { s.status with err := 0, lastOp := 0x20 }
      cmd := none }

/-- 41_squelch.md R154, R155, R158: the gate opens only above the threshold and closes only below the threshold less the hysteresis, by the
estimate that `SQ_POWER_DB` then shows. -/
def Obligations.GateTogglesOnlyAcrossItsLevels : Prop :=
  ∀ s t : State, exec .sqEvaluate s = .next t → t.status.err = 0 →
    (s.sq.lastOpen = false → t.sq.lastOpen = true → f64Lt s.csr.sqThresholdDb (regValue t .sqPowerDb) = true) ∧
    (s.sq.lastOpen = true → t.sq.lastOpen = false →
      f64Lt (regValue t .sqPowerDb) (f64Sub s.csr.sqThresholdDb s.csr.sqHystDb) = true) ∧
    (iqLength s ≠ 0 → s.sq.lastOpen = false → f64Lt s.csr.sqThresholdDb (regValue t .sqPowerDb) = true →
      t.sq.lastOpen = true) ∧
    (iqLength s ≠ 0 → s.sq.lastOpen = true →
      f64Lt (regValue t .sqPowerDb) (f64Sub s.csr.sqThresholdDb s.csr.sqHystDb) = true → t.sq.lastOpen = false) ∧
    (s.csr.sqEn = false → (regValue t .sqResult).getLsbD 0 = true) ∧
    (s.csr.sqEn = true → (regValue t .sqResult).getLsbD 0 = t.sq.lastOpen)

/-! ### The demodulator -/

/-- 42_demod.md R170, R178, R183, R184, R187, R190, R195; 10_state.md R65; 70_reset_and_hazards.md R313: what a successful construction
latches, that it clears every delay line in every mode and recreates the squelch state, and that it leaves the Morse decoder alone. Coefficients that are NaN have free patterns (log 1). -/
def Obligations.DemodInitConstructsTheDemodulator : Prop :=
  ∀ (s : State) (m : Mode), s.csr.modeSel = (match m with | .am => 0#3 | .fm => 1#3 | .usb => 2#3 | .lsb => 3#3 | .cw => 4#3) →
    let fs := s.csr.sampleRate.toNat
    let fa := s.csr.audioRate.toNat
    let num := s.params.num
    let nyquist := f64Div (f64OfNat fa) f64Two
    1 ≤ fs → 1 ≤ fa → fs % fa = 0 → CutoffLegal m fa → DeviationLegal m s.csr.fmDeviationHz →
    ∃ t, exec .demodInit s = .next t ∧
      t.dm.valid = true ∧ t.dm.mode = m ∧ t.dm.fs = s.csr.sampleRate ∧ t.dm.fa = s.csr.audioRate ∧
      t.dm.decim.toNat = fs / fa ∧
      (m = .fm →
        t.dm.kfm = settle s.draws .kfm (f64Div (f64OfNat fs) (f64Mul (f64Mul f64Two Config.pi) s.csr.fmDeviationHz)) ∧
        t.dm.alpha = settle s.draws .alpha
          (f64Div f64One (f64Add f64One (f64Mul (f64OfNat fa) 0x3F13A92A30553261#64)))) ∧
      (1 < fs / fa →
        t.dm.aaB = settleList s.draws .aaB
          (numButterLp num s.params.aaOrder (f64Div s.params.aaFrac (f64OfNat (fs / fa)))).1 ∧
        t.dm.aaA = settleList s.draws .aaA
          (numButterLp num s.params.aaOrder (f64Div s.params.aaFrac (f64OfNat (fs / fa)))).2) ∧
      (m = .am ∨ m = .cw →
        t.dm.pfB = settleList s.draws .pfB (numButterLp num 5 (f64Div 0x40CD4C0000000000#64 nyquist)).1 ∧
        t.dm.pfA = settleList s.draws .pfA (numButterLp num 5 (f64Div 0x40CD4C0000000000#64 nyquist)).2 ∧
        t.dm.pfZ = List.replicate 5 f64Zero) ∧
      (m = .usb ∨ m = .lsb →
        t.dm.pfB = settleList s.draws .pfB
          (numButterBp num 5 (f64Div 0x4072C00000000000#64 nyquist) (f64Div 0x40A7700000000000#64 nyquist)).1 ∧
        t.dm.pfA = settleList s.draws .pfA
          (numButterBp num 5 (f64Div 0x4072C00000000000#64 nyquist) (f64Div 0x40A7700000000000#64 nyquist)).2 ∧
        t.dm.pfZ = List.replicate 10 f64Zero) ∧
      t.dm.aaZ = List.replicate s.params.aaOrder f64Zero ∧ (∀ v ∈ t.dm.pfZ, v = f64Zero) ∧ t.dm.decPhase = 0 ∧
      t.dm.fmLastPhase = f64Zero ∧ t.dm.fmDeY = f64Zero ∧
      t.sq = { smoothed := 0xC059000000000000#64, lastOpen := false, primed := false, isOpenOut := false } ∧
      t.csr = { s.csr with audioLen := 0 } ∧ t.mc = s.mc ∧ SameBytes s t ∧ CompletedOk 0x30 s t ∧ SameSurroundings s t

/-- 42_demod.md R193: an empty block changes no hidden state and no buffer. -/
def Obligations.DemodulateOfAnEmptyBlockWritesOnlyTheLengths : Prop :=
  ∀ s : State, s.dm.valid = true → iqLength s = 0 →
    exec .demodulate s = .next { s with
      csr := { s.csr with audioLen := 0, envLen := if s.dm.mode = .cw then 0 else s.csr.envLen }
      status := { s.status with err := 0, lastOp := 0x31 }
      cmd := none }

/-- 42_demod.md R177 to R185 in FM: the audio block and the carried state, with the differences of R181, the recurrence of R184 and the clip
of R185 written out. The decimator, the filter and the unwrap are those of the statements below. -/
def Obligations.DemodulateInFmRunsThePipeline : Prop :=
  ∀ s : State, s.dm.valid = true → s.dm.mode = .fm → IqUsable s → 0 < iqLength s →
    let x := iqBlock s (iqLength s)
    let phase := x.map fun z => numAtan2 s.params.num z.2 z.1
    let d := phaseDiffs s.dm.fmLastPhase phase
    let f := (unwrap d).map (f64Mul s.dm.kfm)
    let a := if 1 < s.dm.decim.toNat then filterRun s.dm.aaB s.dm.aaA s.dm.aaZ f else (f, s.dm.aaZ)
    let u := decimate s.dm.decim.toNat s.dm.decPhase.toNat a.1
    let y := deemphasis s.dm.alpha s.dm.fmDeY u.1
    let out := fun v => if f64Lt v 0xBFF0000000000000#64 then 0xBFF0000000000000#64 else if f64Lt f64One v then f64One else v
    d.length = iqLength s ∧ d.getD 0 f64Zero = f64Sub (phase.getD 0 f64Zero) s.dm.fmLastPhase ∧
    (∀ n, n + 1 < iqLength s → d.getD (n + 1) f64Zero = f64Sub (phase.getD (n + 1) f64Zero) (phase.getD n f64Zero)) ∧
    y.length = u.1.length ∧
    (∀ m < y.length,
      let previous := if m = 0 then s.dm.fmDeY else y.getD (m - 1) f64Zero
      y.getD m f64Zero = f64Add (f64Mul s.dm.alpha (u.1.getD m f64Zero)) (f64Mul (f64Sub f64One s.dm.alpha) previous)) ∧
    ∃ t, exec .demodulate s = .next t ∧
      (∀ m < y.length, readWord t (audioAddr m) = settle s.draws (.bufferWord (audioAddr m)) (out (y.getD m f64Zero))) ∧
      SameBytesOutside s t (audioAddr 0) (audioAddr y.length) ∧
      t.csr = { s.csr with audioLen := BitVec.ofNat 32 y.length } ∧
      t.dm = { s.dm with
        aaZ := if 1 < s.dm.decim.toNat then settleList s.draws .aaZ a.2 else s.dm.aaZ
        decPhase := BitVec.ofNat 32 u.2
        fmLastPhase := settle s.draws .fmLastPhase (phase.getLastD s.dm.fmLastPhase)
        fmDeY := if u.1 = [] then s.dm.fmDeY else settle s.draws .fmDeY (y.getLastD s.dm.fmDeY) } ∧
      t.sq = s.sq ∧ t.mc = s.mc ∧ CompletedOk 0x31 s t ∧ SameSurroundings s t

/-- 42_demod.md R177 to R180, R186 to R191, R196 in AM, CW, USB and LSB: the audio block, the carried state, and in CW the envelope. -/
def Obligations.DemodulateInTheFilteredModesRunsThePipeline : Prop :=
  ∀ s : State, s.params.legal = true → s.dm.valid = true → s.dm.mode ≠ .fm → IqUsable s → 0 < iqLength s →
    let x := iqBlock s (iqLength s)
    let env := x.map fun z => numSqrt s.params.num (f64Add (f64Mul z.1 z.1) (f64Mul z.2 z.2))
    let mean := f64Div (f64Sum env) (f64OfNat (iqLength s))
    let core := if s.dm.mode = .usb ∨ s.dm.mode = .lsb then x.map Prod.fst else env.map fun e => f64Sub e mean
    let a := if 1 < s.dm.decim.toNat then filterRun s.dm.aaB s.dm.aaA s.dm.aaZ core else (core, s.dm.aaZ)
    let u := decimate s.dm.decim.toNat s.dm.decPhase.toNat a.1
    let y := filterRun s.dm.pfB s.dm.pfA s.dm.pfZ u.1
    let out := normalise y.1
    ∃ t, exec .demodulate s = .next t ∧
      (∀ m < out.length, readWord t (audioAddr m) = settle s.draws (.bufferWord (audioAddr m)) (out.getD m f64Zero)) ∧
      (s.dm.mode = .cw → ∀ n < iqLength s,
        readWord t (envAddr n) = settle s.draws (.bufferWord (envAddr n)) (env.getD n f64Zero)) ∧
      (∀ b, (b < audioAddr 0 ∨ audioAddr out.length ≤ b) →
        (s.dm.mode = .cw → b < envAddr 0 ∨ envAddr (iqLength s) ≤ b) → readByte t b = readByte s b) ∧
      t.csr = { s.csr with
        audioLen := BitVec.ofNat 32 out.length, envLen := if s.dm.mode = .cw then s.csr.iqLen else s.csr.envLen } ∧
      t.dm = { s.dm with
        aaZ := if 1 < s.dm.decim.toNat then settleList s.draws .aaZ a.2 else s.dm.aaZ
        decPhase := BitVec.ofNat 32 u.2
        pfZ := if u.1 = [] then s.dm.pfZ else settleList s.draws .pfZ y.2 } ∧
      t.sq = s.sq ∧ t.mc = s.mc ∧ CompletedOk 0x31 s t ∧ SameSurroundings s t

/-- 42_demod.md R177, R179: the decimator keeps exactly the samples at phase 0, in order, and its phase counts the samples modulo `D`. -/
def Obligations.DecimatorKeepsThePhaseZeroSamples : Prop :=
  ∀ (d p : Nat) (x : List F64), 1 ≤ d → p < d →
    (decimate d p x).1 = ((List.range x.length).filter fun n => (p + n) % d = 0).filterMap (fun n => x[n]?) ∧
    (decimate d p x).2 = (p + x.length) % d

/-- 42_demod.md R176: one step of a filter in direct form II transposed with `K` delay elements, and a run over a sequence applies this step
to each element in order, the delay line carried. -/
def Obligations.FilterStepIsDirectFormTwoTransposed : Prop :=
  (∀ b a z : List F64, filterRun b a z [] = ([], z) ∧
    ∀ x xs, filterRun b a z (x :: xs) =
      ((filterStep b a z x).1 :: (filterRun b a (filterStep b a z x).2 xs).1, (filterRun b a (filterStep b a z x).2 xs).2)) ∧
  ∀ (k : Nat) (b a z : List F64) (x : F64), 1 ≤ k → b.length = k + 1 → a.length = k + 1 → z.length = k →
    let y := f64Add (f64Mul (b.getD 0 f64Zero) x) (z.getD 0 f64Zero)
    let z' := (filterStep b a z x).2
    (filterStep b a z x).1 = y ∧ z'.length = k ∧
    (∀ i, i + 1 < k →
      z'.getD i f64Zero =
        f64Sub (f64Add (f64Mul (b.getD (i + 1) f64Zero) x) (z.getD (i + 1) f64Zero)) (f64Mul (a.getD (i + 1) f64Zero) y)) ∧
    z'.getD (k - 1) f64Zero = f64Sub (f64Mul (b.getD k f64Zero) x) (f64Mul (a.getD k f64Zero) y)

/-- 42_demod.md R194: the filters, the decimator and the de-emphasis give, over a split sequence with their state carried, what they give
over the whole. -/
def Obligations.SplitSequencesAgreeWithTheWhole : Prop :=
  ∀ x y : List F64,
    (∀ b a z : List F64,
      filterRun b a z (x ++ y) =
        ((filterRun b a z x).1 ++ (filterRun b a (filterRun b a z x).2 y).1, (filterRun b a (filterRun b a z x).2 y).2)) ∧
    (∀ d p : Nat,
      decimate d p (x ++ y) = ((decimate d p x).1 ++ (decimate d (decimate d p x).2 y).1, (decimate d (decimate d p x).2 y).2)) ∧
    (∀ alpha y0 : F64,
      deemphasis alpha y0 (x ++ y) = deemphasis alpha y0 x ++ deemphasis alpha ((deemphasis alpha y0 x).getLastD y0) y)

/-- 42_demod.md R182: the unwrap leaves the first difference and adds to each later one the running sum of the corrections. -/
def Obligations.UnwrapAddsTheRunningCorrection : Prop :=
  ∀ (d : List F64) (c : Nat → F64), c 0 = f64Zero →
    (∀ n, n + 1 < d.length →
      let dd := f64Sub (d.getD (n + 1) f64Zero) (d.getD n f64Zero)
      let r0 := f64Fmod (f64Add dd Config.pi) (f64Mul f64Two Config.pi)
      let r1 := if f64Lt r0 f64Zero then f64Add r0 (f64Mul f64Two Config.pi) else r0
      let r := if f64Eq r1 f64Zero then f64Zero else r1
      let dm := f64Sub r Config.pi
      let dm' := if f64Eq dm (f64Negate Config.pi) ∧ f64Lt f64Zero dd then Config.pi else dm
      c (n + 1) = f64Add (c n) (if f64Lt (f64Abs dd) Config.pi then f64Zero else f64Sub dm' dd)) →
    (unwrap d).length = d.length ∧ (unwrap d).getD 0 f64Zero = d.getD 0 f64Zero ∧
    ∀ n, 1 ≤ n → n < d.length → (unwrap d).getD n f64Zero = f64Add (d.getD n f64Zero) (c n)

/-- 42_demod.md R185: every FM audio sample that a block writes lies in [-1, 1] or is a NaN. -/
def Obligations.FmAudioIsClipped : Prop :=
  ∀ s t : State, exec .demodulate s = .next t → t.status.err = 0 → s.dm.mode = .fm → s.params.blockMax ≤ 65536 →
    ∀ m < t.csr.audioLen.toNat,
      f64Lt (readWord t (audioAddr m)) 0xBFF0000000000000#64 = false ∧ f64Lt 0x3FF0000000000000#64 (readWord t (audioAddr m)) = false

/-- 42_demod.md R188: the block is divided by its peak, a zero peak is a no-op, and a NaN sample makes the peak a NaN. -/
def Obligations.NormalisationDividesByThePeak : Prop :=
  ∀ y : List F64, y ≠ [] →
    ∃ pk : F64,
      ((∃ v ∈ y, f64IsNaN v = true) → f64IsNaN pk = true) ∧
      ((∀ v ∈ y, f64IsNaN v = false) → (∃ v ∈ y, pk = f64Abs v) ∧ ∀ v ∈ y, f64Le (f64Abs v) pk = true) ∧
      (f64Eq pk f64Zero = true → normalise y = y) ∧
      (f64Eq pk f64Zero = false → normalise y = y.map fun v => f64Div v pk)

/-- 42_demod.md R192: USB and LSB compute identical results: states that differ in this mode alone give audio, buffers and state that
differ in it alone. -/
def Obligations.UsbEqualsLsb : Prop :=
  ∀ s t : State, s.dm.mode = .usb → exec .demodulate s = .next t →
    exec .demodulate { s with dm := { s.dm with mode := .lsb } } = .next { t with dm := { t.dm with mode := .lsb } }

/-! ### The Morse decoder -/

/-- 43_morse.md R220: the construction of the decoder. -/
def Obligations.MorseInitConstructsTheDecoder : Prop :=
  ∀ s : State, f64IsFinite s.csr.morseWpm = true → f64Lt f64Zero s.csr.morseWpm = true → s.csr.morseRate ≠ 0 →
    f64IsFinite s.csr.morseDetThr = true →
    ∃ t, exec .morseInit s = .next t ∧
      t.mc = { valid := true, dot := settle s.draws .dot (f64Div 0x3FF3333333333333#64 s.csr.morseWpm),
               thr := s.csr.morseDetThr, rate := s.csr.morseRate, code := [], text := [], last := false, dur := f64Zero } ∧
      t.csr = { s.csr with textInc := 0 } ∧ t.cmd = none ∧
      t.status = { s.status with textOvf := false, err := 0, lastOp := 0x40 } ∧
      t.dm = s.dm ∧ t.sq = s.sq ∧ SameBytes s t ∧ SameSurroundings s t

/-- 43_morse.md R222: the clearing of the decoder, with or without a constructed one. -/
def Obligations.MorseResetClearsTheDecoder : Prop :=
  encode .morseReset = 0x0000000000000041#64 ∧
  ∀ s : State, exec .morseReset s = .next { s with
    mc := { s.mc with code := [], text := [], last := false, dur := f64Zero }
    csr := { s.csr with textInc := 0 }
    status := { s.status with textOvf := false, err := 0, lastOp := 0x41 }
    cmd := none }

/-- 43_morse.md R225: an empty envelope only clears the increment. -/
def Obligations.MorseFeedOfAnEmptyEnvelopeClearsTheIncrement : Prop :=
  ∀ s : State, s.mc.valid = true → envLength s = 0 →
    exec .morseFeed s = .next { s with
      csr := { s.csr with textInc := 0 }, status := { s.status with err := 0, lastOp := 0x42 }, cmd := none }

/-- 43_morse.md R226, R227, R231: a block in the standing state only lengthens it. -/
def Obligations.MorseFeedWithoutATransitionLengthensTheState : Prop :=
  ∀ s : State, s.mc.valid = true → EnvUsable s → 0 < envLength s →
    let avg := f64Div (f64Sum ((List.range (envLength s)).map (envSample s))) (f64OfNat (envLength s))
    let ds := f64Div (f64OfNat (envLength s)) (f64OfNat s.mc.rate.toNat)
    f64Lt s.mc.thr avg = s.mc.last →
    ∃ t, exec .morseFeed s = .next t ∧
      t.mc = { s.mc with dur := settle s.draws .dur (f64Add s.mc.dur ds) } ∧
      t.csr = { s.csr with textInc := 0 } ∧ t.dm = s.dm ∧ t.sq = s.sq ∧ SameBytes s t ∧ CompletedOk 0x42 s t ∧
      SameSurroundings s t

/-- 43_morse.md R228, R231, R232: a tone that ends is classified as a dash, a dot or noise. -/
def Obligations.MorseFeedAfterAToneAppendsItsSymbol : Prop :=
  ∀ s : State, s.mc.valid = true → EnvUsable s → 0 < envLength s →
    let avg := f64Div (f64Sum ((List.range (envLength s)).map (envSample s))) (f64OfNat (envLength s))
    let ds := f64Div (f64OfNat (envLength s)) (f64OfNat s.mc.rate.toNat)
    let isDash := f64Le (f64Mul 0x3FE6666666666666#64 (f64Mul 0x4008000000000000#64 s.mc.dot)) s.mc.dur = true
    let isDot := f64Le (f64Mul 0x3FE0000000000000#64 s.mc.dot) s.mc.dur = true
    s.mc.last = true → f64Lt s.mc.thr avg = false →
    ∃ t, exec .morseFeed s = .next t ∧
      (isDash → s.mc.code.length < 32 → t.mc.code = s.mc.code ++ [.dash]) ∧
      (¬ isDash → isDot → s.mc.code.length < 32 → t.mc.code = s.mc.code ++ [.dot]) ∧
      (¬ isDash → ¬ isDot → t.mc.code = s.mc.code) ∧ (32 ≤ s.mc.code.length → t.mc.code = s.mc.code) ∧
      t.mc = { s.mc with code := t.mc.code, last := false, dur := settle s.draws .dur (f64Add f64Zero ds) } ∧
      t.csr = { s.csr with textInc := 0 } ∧ t.dm = s.dm ∧ t.sq = s.sq ∧ SameBytes s t ∧ CompletedOk 0x42 s t ∧
      SameSurroundings s t

/-- 43_morse.md R229, R230, R231, R233, R234: a gap that ends finalises a pending code where it was long enough: the character, and after a
word gap a space, go into the increment and, where they fit, into the text. -/
def Obligations.MorseFeedAfterAGapFinalisesTheCode : Prop :=
  ∀ s : State, s.mc.valid = true → EnvUsable s → 0 < envLength s →
    let avg := f64Div (f64Sum ((List.range (envLength s)).map (envSample s))) (f64OfNat (envLength s))
    let ds := f64Div (f64OfNat (envLength s)) (f64OfNat s.mc.rate.toNat)
    let wordGap := f64Le (f64Mul 0x3FE6666666666666#64 (f64Mul 0x401C000000000000#64 s.mc.dot)) s.mc.dur
    let charGap := f64Le (f64Mul 0x3FE6666666666666#64 (f64Mul 0x4008000000000000#64 s.mc.dot)) s.mc.dur
    let out : List Byte :=
      if s.mc.code = [] then []
      else if wordGap then [morseChar s.mc.code, 0x20] else if charGap then [morseChar s.mc.code] else []
    let stored := out.take (s.params.textCap - s.mc.text.length)
    let at0 := textAddr s.mc.text.length
    s.mc.last = false → f64Lt s.mc.thr avg = true →
    ∃ t, exec .morseFeed s = .next t ∧
      t.mc = { s.mc with
        code := if wordGap || charGap then [] else s.mc.code
        text := s.mc.text ++ stored
        last := true
        dur := settle s.draws .dur (f64Add f64Zero ds) } ∧
      (∀ i < stored.length, readByte t (at0 + i) = stored.getD i 0) ∧
      SameBytesOutside s t at0 (at0 + stored.length) ∧
      t.csr = { s.csr with textInc := t.csr.textInc } ∧
      t.csr.textInc.toNat = (out.getD 0 0).toNat + 2 ^ 8 * (out.getD 1 0).toNat + 2 ^ 16 * out.length ∧
      t.status = { s.status with
        textOvf := s.status.textOvf || decide (s.params.textCap < s.mc.text.length + out.length ∧ out ≠ [])
        err := 0, lastOp := 0x42 } ∧
      t.cmd = none ∧ t.dm = s.dm ∧ t.sq = s.sq ∧ SameSurroundings s t

/-- 43_morse.md R235: a feed emits at most one character and one space, and two only as a character followed by a space. -/
def Obligations.MorseIncrementIsAtMostACharacterAndASpace : Prop :=
  ∀ s t : State, exec .morseFeed s = .next t → t.status.err = 0 →
    (t.csr.textInc.extractLsb' 16 2).toNat ≤ 2 ∧ t.csr.textInc.extractLsb' 18 46 = 0 ∧
    ((t.csr.textInc.extractLsb' 16 2).toNat = 2 → t.csr.textInc.extractLsb' 8 8 = 0x20) ∧
    ∃ out : List Byte, t.mc.text = s.mc.text ++ out ∧ out.length ≤ (t.csr.textInc.extractLsb' 16 2).toNat

/-- 43_morse.md R223: the table, letters A to Z then digits 0 to 9, and `?` for every other code. -/
def Obligations.MorseTableIsInternationalMorseCode : Prop :=
  let letters := [".-", "-...", "-.-.", "-..", ".", "..-.", "--.", "....", "..", ".---", "-.-", ".-..", "--", "-.", "---", ".--.",
    "--.-", ".-.", "...", "-", "..-", "...-", ".--", "-..-", "-.--", "--.."]
  let digits := ["-----", ".----", "..---", "...--", "....-", ".....", "-....", "--...", "---..", "----."]
  (letters.map fun c => (morseChar (codeOfString c)).toNat) = (List.range 26).map (0x41 + ·) ∧
  (digits.map fun c => (morseChar (codeOfString c)).toNat) = (List.range 10).map (0x30 + ·) ∧
  (∀ code : List Symbol, code ∉ (letters ++ digits).map codeOfString → morseChar code = 0x3F) ∧
  (∀ code : List Symbol, 5 < code.length → morseChar code = 0x3F)

/-! ### The per-block flow -/

/-- 44_control.md R255, R256: `PROCESS_BLOCK` is `ANALYZE`, `SQ_EVALUATE` and, with a demodulator and an open gate, `DEMODULATE` and in CW the
feed, one after another on the same block; where the fresh envelope is finite that feed is `MORSE_FEED`. -/
def Obligations.ProcessBlockRunsTheUnitsInOrder : Prop :=
  ∀ s : State, s.params.legal = true → FftLegal s → SquelchLegal s → (s.dm.valid = true → s.dm.mode = .cw → s.mc.valid = true) → IqUsable s →
    ∃ a b, exec .analyze s = .next a ∧ a.status.err = 0 ∧ exec .sqEvaluate a = .next b ∧ b.status.err = 0 ∧
      (b.dm.valid = false ∨ b.sq.isOpenOut = false →
        exec .processBlock s = .next { b with
          csr := { b.csr with audioLen := 0, textInc := 0 }, status := { b.status with lastOp := 0x50 } }) ∧
      (b.dm.valid = true → b.sq.isOpenOut = true →
        ∃ d, exec .demodulate b = .next d ∧ d.status.err = 0 ∧
          (s.dm.mode ≠ .cw →
            exec .processBlock s = .next { d with
              csr := { d.csr with textInc := 0 }, status := { d.status with lastOp := 0x50 } }) ∧
          (s.dm.mode = .cw →
            exec .processBlock s = .next { feedEffect d with status := { (feedEffect d).status with lastOp := 0x50 } } ∧
            (EnvUsable d →
              ∃ e, exec .morseFeed d = .next e ∧
                exec .processBlock s = .next { e with status := { e.status with lastOp := 0x50 } })))

/-- 44_control.md R255, R257: with the gate closed or no demodulator, neither the demodulator nor the Morse decoder advances and no audio
is written. -/
def Obligations.ClosedGateStopsAudioAndMorse : Prop :=
  ∀ s t : State, exec .processBlock s = .next t → t.status.err = 0 → t.sq.isOpenOut = false ∨ s.dm.valid = false →
    t.dm = s.dm ∧ t.mc = s.mc ∧ t.status.textOvf = s.status.textOvf ∧ t.csr.audioLen = 0 ∧ t.csr.textInc = 0 ∧
    t.csr.envLen = s.csr.envLen ∧ SameBytesOutside s t (specAddr 0) (specAddr (t.csr.specLen.toNat))

/-! ### The handshake -/

/-- 93_implementation_defined.md I8; 20_memory.md R97: whatever the host does while a command is pending, the core step gives the same
result, but for the host's own flags and replies. -/
def Obligations.HostAccessesWhileBusyDoNotReachTheCore : Prop :=
  ∀ (s : State) (as : List Access), busy s = true →
    ∃ t t', coreStep s = .next t ∧ coreStep (hostRun as s) = .next t' ∧ SameForCore t t'

/-- 30_encoding.md R118; 70_reset_and_hazards.md R316: a `WAIT` ends after at most three steps of the model's schedule (log 11), with a read
of `STATUS` that shows `BUSY = 0`. -/
def Obligations.WaitEndsWithAnIdleBlock : Prop :=
  ∀ (s : State) (rest : List Event), s.agenda = .wait :: rest →
    ∃ n t r rs, n ≤ 3 ∧ runSteps n s = some t ∧ t.agenda = rest ∧ busy t = false ∧ t.replies = r :: rs ∧
      r.response = .okay ∧ r.data = regValue t .status ∧ r.data.getLsbD 0 = false

/-! ### Invariants -/

/-- The invariant of the block holds after reset. -/
def Obligations.ResetMeetsTheInvariant : Prop := Inv State.reset

/-- Every step keeps the invariant: the buffers keep their canonical form inside the mapped addresses, `TEXTBUF` holds the decoded text, the
pending code and the increment fit their registers, a valid demodulator has an exact ratio, a phase below it and filters of their orders, the
lengths fit their buffers, and `ERR` is a code of the table. -/
def Obligations.StepKeepsTheInvariant : Prop :=
  ∀ s t : State, Inv s → step s = .next t → Inv t

/-! ### Numbers -/

/-- 00_scope.md R21: the conversion of an unsigned integer of at most 32 bits is exact. -/
def Obligations.IntegerConversionIsExact : Prop :=
  ∀ n < 2 ^ 32, f64IsFinite (f64OfNat n) = true ∧ f64Units (f64OfNat n) = (n : Int) * 2 ^ 1074

/-- 00_scope.md R15: `+`, `×` and `/` of finite values round to nearest, ties to even, wherever the result is finite. -/
def Obligations.ArithmeticRoundsToNearestEven : Prop :=
  ∀ x y : F64, f64IsFinite x = true → f64IsFinite y = true →
    (f64IsFinite (f64Add x y) = true → NearestEven (f64Units x + f64Units y) 1 (f64Add x y)) ∧
    (f64IsFinite (f64Sub x y) = true → NearestEven (f64Units x - f64Units y) 1 (f64Sub x y)) ∧
    (f64IsFinite (f64Mul x y) = true → NearestEven (f64Units x * f64Units y) (2 ^ 1074) (f64Mul x y)) ∧
    (f64IsZero y = false → f64IsFinite (f64Div x y) = true → NearestEven (f64Units x * 2 ^ 1074) (f64Units y) (f64Div x y))

/-- 00_scope.md R15; 42_demod.md R182: a sum is `((t_0 + t_1) + t_2) + …`, comparisons of finite values are exact and a NaN compares as
neither below, at most nor equal, `fmod` is the exact remainder with the sign of the dividend, and in every numerics configuration `atan2`
of a zero first argument follows its sign and every value of `atan2` lies in [-π, π]. -/
def Obligations.SumsComparisonsRemaindersAndAnglesAreAsStated : Prop :=
  (∀ t, f64Sum [t] = t) ∧ (∀ ts t, ts ≠ [] → f64Sum (ts ++ [t]) = f64Add (f64Sum ts) t) ∧
  (∀ x y : F64, f64IsFinite x = true → f64IsFinite y = true →
    (f64Lt x y = true ↔ f64Units x < f64Units y) ∧ (f64Le x y = true ↔ f64Units x ≤ f64Units y) ∧
    (f64Eq x y = true ↔ f64Units x = f64Units y) ∧
    (f64IsZero y = false →
      f64IsFinite (f64Fmod x y) = true ∧ f64Neg (f64Fmod x y) = f64Neg x ∧
      f64Units (f64Fmod x y) = (f64Units x).tmod (f64Units y))) ∧
  (∀ x y : F64, f64IsNaN x = true ∨ f64IsNaN y = true → f64Lt x y = false ∧ f64Le x y = false ∧ f64Eq x y = false) ∧
  (∀ (c : Numerics) (y x : F64), f64IsNaN y = false → f64IsNaN x = false →
    (f64Lt x f64Zero = true ∨ x = 0x8000000000000000#64 →
      (y = f64Zero → numAtan2 c y x = 0x400921FB54442D18#64) ∧
      (y = 0x8000000000000000#64 → numAtan2 c y x = 0xC00921FB54442D18#64)) ∧
    (f64Lt f64Zero x = true ∨ x = f64Zero →
      (y = f64Zero → numAtan2 c y x = f64Zero) ∧ (y = 0x8000000000000000#64 → numAtan2 c y x = 0x8000000000000000#64)) ∧
    f64Le 0xC00921FB54442D18#64 (numAtan2 c y x) = true ∧ f64Le (numAtan2 c y x) 0x400921FB54442D18#64 = true)
end

