-- ==== Sys2Proof/Laws/Decode.lean ====
section
/-! SUPPORT. The decoder and the map of the window: what each can answer (30_encoding.md R111 to R113; 20_memory.md R81 to R91). -/

namespace Sys2Proof.Machine

/-- A command word is its opcode byte and its reserved field. -/
theorem cmdWord_split (w : Word) : w.toNat = (cmdOp w).toNat + 256 * (cmdRsv w).toNat := by
  simp [cmdOp, cmdRsv, BitVec.extractLsb'_toNat, Nat.shiftRight_eq_div_pow]
  have := w.isLt
  omega

/-- An opcode byte names a command exactly when it is its opcode. -/
theorem decodeOp_iff (op : Byte) (i : Instr) : decodeOp op = some i ↔ i.opcode = op := by
  revert op; cases i <;> decide +kernel

/-- All the words that decode to a command. -/
theorem decode_eq_ok (w : Word) (i : Instr) : decode w = .ok i ↔ cmdRsv w = 0 ∧ i.opcode = cmdOp w := by
  unfold decode
  split
  · rename_i h
    rw [← decodeOp_iff]
    cases h2 : decodeOp (cmdOp w) <;> simp [h]
  · rename_i h
    simp only [reduceCtorEq, false_iff, not_and]
    exact fun h2 => absurd h2 h

/-! ### The map -/

/-- The bounds of a legal configuration (00_scope.md R10). -/
theorem legal_bounds {p : Params} (h : p.legal = true) : p.blockMax ≤ 65536 ∧ p.fftMax ≤ 131072 ∧ p.textCap ≤ 1048576 ∧ p.textCap % 8 =
    0 ∧ 1 ≤ p.aaOrder := by
  simp [Params.legal] at h; omega

/-- An aligned address below 0x100 is a register slot. -/
theorem locate_reg (p : Params) (n : Nat) (h8 : n % 8 = 0) (h : n < 0x100) :
    ∃ r, Reg.all[n / 8]? = some r ∧ locate p n = .reg r := by
  have hl : n / 8 < Reg.all.length := by have : Reg.all.length = 32 := rfl; omega
  refine ⟨Reg.all[n/8]'hl, List.getElem?_eq_getElem hl, ?_⟩
  simp [locate, h8, List.getElem?_eq_getElem hl]

/-- The address of a register names it. -/
theorem locate_regAddr (p : Params) (r : Reg) : locate p (regAddr r).toNat = .reg r := by
  cases r <;> rfl

/-- An aligned address from 0x100 on is looked up in the buffers. -/
theorem locate_high (p : Params) (n : Nat) (h8 : n % 8 = 0) (h : ¬ n < 0x100) :
    locate p n = match Region.all.find? (inRegion p n) with | some r => .buffer r n | none => .unmapped := by
  have hl : Reg.all[n / 8]? = none := by
    rw [List.getElem?_eq_none_iff]; have : Reg.all.length = 32 := rfl; omega
  simp only [locate, h8, hl]
  rfl

/-- A word inside the size used of a buffer is mapped, and the window holds its address. -/
theorem locate_buffer {p : Params} (hp : p.legal = true) (r : Region) (j : Nat) (h : 8 * j < regionUsed p r) :
    (BitVec.ofNat 24 (regionBase r + 8 * j)).toNat = regionBase r + 8 * j ∧
    locate p (regionBase r + 8 * j) = .buffer r (regionBase r + 8 * j) := by
  have hb := legal_bounds hp
  refine ⟨?_, ?_⟩
  · rw [BitVec.toNat_ofNat]
    apply Nat.mod_eq_of_lt
    cases r <;> simp only [regionUsed, regionBase] at * <;> omega
  · rw [locate_high]
    · have hq : ∀ q, inRegion p (regionBase r + 8 * j) q = (q == r) := by
        intro q
        rw [Bool.eq_iff_iff, inRegion, Bool.and_eq_true, decide_eq_true_eq, decide_eq_true_eq]
        cases q <;> cases r <;> simp only [regionUsed, regionBase] at * <;> simp <;> omega
      have : Region.all.find? (inRegion p (regionBase r + 8 * j)) = some r := by
        rw [show inRegion p (regionBase r + 8 * j) = (fun q => q == r) from funext hq]
        cases r <;> decide
      rw [this]
    · cases r <;> simp only [regionBase] <;> omega
    · cases r <;> simp only [regionBase] <;> omega

/-- What an address that names a buffer word satisfies. -/
theorem locate_buffer_inv {p : Params} {n : Nat} {r : Region} {a : Nat} (h : locate p n = .buffer r a) : a = n ∧ n % 8 = 0 ∧
    inRegion p n r = true := by
  unfold locate at h
  split at h
  · cases h
  · rename_i h8
    split at h
    · cases h
    · split at h
      · rename_i q hq
        cases h
        exact ⟨rfl, by omega, by have := List.find?_some hq; exact this⟩
      · cases h

end Sys2Proof.Machine
end

