-- ==== Sys2Proof/Laws/Bus.lean ====
section
/-! SUPPORT. The host's side: everything an access can do to the machine, and everything a step can do. -/

namespace Sys2Proof.Machine

/-- A read changes nothing, but for the count of free values where an output is read while busy (20_memory.md R93; R312). -/
theorem hostRead_state (s : State) (addr : BusAddr) :
    (hostRead s addr).2 = s ∨
    (busy s = true ∧ isOutput (locate s.params addr.toNat) = true ∧
      hostRead s addr = (shown (Config.busyRead s.busyReads), { s with busyReads := s.busyReads + 1 })) := by
  unfold hostRead
  dsimp only
  split
  · rename_i h
    rw [Bool.and_eq_true] at h
    exact .inr ⟨h.1, h.2, rfl⟩
  · exact .inl rfl

/-- A write to a busy block changes nothing but a sticky flag (70_reset_and_hazards.md R310, R311). -/
theorem hostWrite_busy (s : State) (addr : BusAddr) (v : Word) (h : busy s = true) :
    (hostWrite s addr v).2 = s ∨ (hostWrite s addr v).2 = { s with status := { s.status with cmdOvr := true } } ∨
    (hostWrite s addr v).2 = { s with status := { s.status with wrDrop := true } } := by
  unfold hostWrite
  dsimp only
  rw [if_pos h]
  generalize locate s.params addr.toNat = l
  match l with
  | .reg r => cases r <;> first | exact .inr (.inl rfl) | exact .inr (.inr rfl)
  | .buffer _ _ => exact .inr (.inr rfl)
  | .unmapped => exact .inl rfl
  | .misaligned => exact .inl rfl

/-- What a write to an idle block can do: nothing, issue a command, set a register, or store one word of an `RW` buffer
(10_state.md R32, R61; 20_memory.md R81). -/
theorem hostWrite_idle (s : State) (addr : BusAddr) (v : Word) (h : busy s = false) :
    (hostWrite s addr v).2 = s ∨ (hostWrite s addr v).2 = { s with cmd := some v } ∨
    (∃ r, locate s.params addr.toNat = .reg r ∧ (hostWrite s addr v).2 = { s with csr := regWrite s.csr v r }) ∨
    (∃ r, regionWritable r = true ∧ addr.toNat % 8 = 0 ∧ inRegion s.params addr.toNat r = true ∧
      (hostWrite s addr v).2 = { s with mem := memSetWord s.mem addr.toNat v }) := by
  unfold hostWrite
  dsimp only
  rw [if_neg (by simp [h])]
  generalize hl : locate s.params addr.toNat = l
  match l, hl with
  | .reg r, hl =>
    by_cases hr : r = .cmd
    · subst hr; exact .inr (.inl rfl)
    · refine .inr (.inr (.inl ⟨r, rfl, ?_⟩))
      cases r <;> first | rfl | exact absurd rfl hr
  | .buffer r a, hl =>
    obtain ⟨rfl, h8, hin⟩ := locate_buffer_inv hl
    cases hw : regionWritable r with
    | false => exact .inl (by simp [idleWrite, hw])
    | true => exact .inr (.inr (.inr ⟨r, hw, h8, hin, by simp [idleWrite, hw]⟩))
  | .unmapped, _ => exact .inl rfl
  | .misaligned, _ => exact .inl rfl

/-- `regWrite` leaves every register that only the core writes. -/
theorem regWrite_outputs (c : Csr) (v : Word) (r : Reg) :
    (regWrite c v r).specLen = c.specLen ∧ (regWrite c v r).specFftSize = c.specFftSize ∧
    (regWrite c v r).specCenterFreq = c.specCenterFreq ∧ (regWrite c v r).specSampleRate = c.specSampleRate ∧
    (regWrite c v r).audioLen = c.audioLen ∧ (regWrite c v r).textInc = c.textInc := by
  cases r <;> exact ⟨rfl, rfl, rfl, rfl, rfl, rfl⟩

/-- What a step can do, by the head of the agenda (00_scope.md R8). It always answers a next state. -/
theorem step_cases {s t : State} (h : step s = .next t) :
    (s.agenda = [] ∧ coreStep s = .next t) ∨
    (∃ rest, s.agenda = .core :: rest ∧ coreStep { s with agenda := rest } = .next t) ∨
    (∃ a rest, s.agenda = .access a :: rest ∧ t = recordReply (hostAccess a { s with agenda := rest })) ∨
    (∃ rest, s.agenda = .powerOn :: rest ∧ t = powerOnReset { s with agenda := rest }) ∨
    (∃ rest, s.agenda = .wait :: rest ∧ t = hostWait { s with agenda := rest }) ∨
    (∃ rest, s.agenda = .getText :: rest ∧ t = hostGetText { s with agenda := rest }) := by
  unfold step at h
  split at h
  · exact .inl ⟨by assumption, h⟩
  · exact .inr (.inl ⟨_, by assumption, h⟩)
  · exact .inr (.inr (.inl ⟨_, _, by assumption, (Host.Outcome.next.inj h).symm⟩))
  · exact .inr (.inr (.inr (.inl ⟨_, by assumption, (Host.Outcome.next.inj h).symm⟩)))
  · exact .inr (.inr (.inr (.inr (.inl ⟨_, by assumption, (Host.Outcome.next.inj h).symm⟩))))
  · exact .inr (.inr (.inr (.inr (.inr ⟨_, by assumption, (Host.Outcome.next.inj h).symm⟩))))

end Sys2Proof.Machine
end

