-- ==== Sys2Proof/Laws/Memory.lean ====
section
/-! SUPPORT. The laws of the buffers: what a read finds after a write, and that every memory operation keeps the canonical
form. -/

namespace Sys2Proof.Machine

@[simp] theorem memGet_nil (a : Nat) : memGet [] a = none := rfl

theorem memGet_cons (c : Host.Cell) (m : Memory) (a : Nat) :
    memGet (c :: m) a = if c.1 = a then some c.2 else memGet m a := rfl

@[simp] theorem memGet_memSet_same (m : Memory) (a : Nat) (b : Byte) : memGet (memSet m a b) a = some b := by
  induction m with
  | nil => simp [memSet, memGet]
  | cons c m ih =>
    simp only [memSet]
    split
    · simp [memGet]
    · split
      · simp [memGet]
      · rename_i h; simp [memGet, h, ih]

theorem memGet_memSet_other (m : Memory) (a x : Nat) (b : Byte) (h : a ≠ x) :
    memGet (memSet m a b) x = memGet m x := by
  induction m with
  | nil => simp [memSet, memGet, h]
  | cons c m ih =>
    simp only [memSet]
    split
    · simp [memGet, h]
    · split
      · rename_i h2; simp [memGet, h, h2]
      · simp [memGet, ih]

theorem memGet_memSet (m : Memory) (a x : Nat) (b : Byte) :
    memGet (memSet m a b) x = if a = x then some b else memGet m x := by
  split
  · rename_i h; subst h; simp
  · rename_i h; exact memGet_memSet_other m a x b h

/-- A run of bytes: inside it a read finds the byte stored, outside it what was there. -/
theorem memGet_memSetBytes (bs : List Byte) : ∀ (m : Memory) (a x : Nat),
    memGet (memSetBytes m a bs) x = if a ≤ x ∧ x < a + bs.length then bs[x - a]? else memGet m x := by
  induction bs with
  | nil =>
    intro m a x
    have h : ¬ (a ≤ x ∧ x < a + ([] : List Byte).length) := by simp
    rw [if_neg h, memSetBytes]
  | cons b bs ih =>
    intro m a x
    simp only [memSetBytes, ih, memGet_memSet, List.length_cons]
    by_cases h1 : a = x
    · subst h1; simp
    · by_cases h2 : a + 1 ≤ x ∧ x < a + 1 + bs.length
      · have h3 : a ≤ x ∧ x < a + (bs.length + 1) := by omega
        have h4 : x - a = (x - (a + 1)) + 1 := by omega
        simp only [h2, h3, and_self, if_true, h4, List.getElem?_cons_succ]
      · have h3 : ¬ (a ≤ x ∧ x < a + (bs.length + 1)) := by omega
        rw [if_neg h2, if_neg h1, if_neg h3]

theorem bytesOfNat_length (n x : Nat) : (bytesOfNat n x).length = n := by
  induction n generalizing x with
  | zero => rfl
  | succ n ih => simp [bytesOfNat, ih]

@[simp] theorem bytesOfWord_length (w : Word) : (bytesOfWord w).length = 8 := bytesOfNat_length 8 _

theorem natOfBytes_bytesOfNat (n x : Nat) : natOfBytes (bytesOfNat n x) = x % 256 ^ n := by
  induction n generalizing x with
  | zero => simp [bytesOfNat, natOfBytes, Nat.mod_one]
  | succ n ih =>
    simp only [bytesOfNat, natOfBytes, ih]
    rw [show (BitVec.ofNat 8 x).toNat = x % 256 from by simp [BitVec.toNat_ofNat], Nat.pow_succ,
      Nat.mul_comm (256 ^ n) 256, Nat.mod_mul]

/-- The bytes of a word give the word back (20_memory.md R89). -/
@[simp] theorem wordOfBytes_bytesOfWord (w : Word) : wordOfBytes (bytesOfWord w) = w := by
  apply BitVec.eq_of_toNat_eq
  have h := w.isLt
  simp only [wordOfBytes, bytesOfWord, natOfBytes_bytesOfNat, BitVec.toNat_ofNat]
  omega

/-- Outside the eight bytes of a stored word nothing changes. -/
theorem memGet_memSetWord_outside (m : Memory) (a x : Nat) (w : Word) (h : x < a ∨ a + 8 ≤ x) :
    memGet (memSetWord m a w) x = memGet m x := by
  have h' : ¬ (a ≤ x ∧ x < a + (bytesOfWord w).length) := by simp; omega
  simp only [memSetWord, memGet_memSetBytes, h', if_false]

/-- Inside a stored word a read finds its byte. -/
theorem memGet_memSetWord_inside (m : Memory) (a i : Nat) (w : Word) (h : i < 8) :
    memGet (memSetWord m a w) (a + i) = (bytesOfWord w)[i]? := by
  simp [memSetWord, memGet_memSetBytes, h]

/-- Outside the words of a stored run nothing changes. -/
theorem memGet_memSetWords_outside (ws : List Word) : ∀ (m : Memory) (a x : Nat),
    x < a ∨ a + 8 * ws.length ≤ x → memGet (memSetWords m a ws) x = memGet m x := by
  induction ws with
  | nil => intro m a x _; rfl
  | cons w ws ih =>
    intro m a x h
    simp only [List.length_cons] at h
    rw [memSetWords, ih _ _ _ (by omega), memGet_memSetWord_outside _ _ _ _ (by omega)]

/-- Inside a stored run a read finds the byte of the word stored there. -/
theorem memGet_memSetWords_inside (ws : List Word) : ∀ (m : Memory) (a k i : Nat) (hk : k < ws.length), i < 8 →
    memGet (memSetWords m a ws) (a + 8 * k + i) = (bytesOfWord (ws[k]'hk))[i]? := by
  induction ws with
  | nil => intro m a k i hk; exact absurd hk (by simp)
  | cons w ws ih =>
    intro m a k i hk hi
    cases k with
    | zero =>
      rw [memSetWords, memGet_memSetWords_outside _ _ _ _ (by omega)]
      simpa using memGet_memSetWord_inside m a i w hi
    | succ k =>
      have h := ih (memSetWord m a w) (a + 8) k i (by simpa using hk) hi
      rw [memSetWords]
      rw [show a + 8 * (k + 1) + i = a + 8 + 8 * k + i by omega, h]
      simp

/-! ### Reading -/

theorem readByte_congr {s t : State} (a : Nat) (hm : memGet t.mem a = memGet s.mem a) (he : t.epoch = s.epoch) :
    readByte t a = readByte s a := by simp [readByte, hm, he]

/-- A word read depends on its eight bytes alone. -/
theorem readWord_congr {s t : State} (a : Nat) (hm : ∀ i, i < 8 → memGet t.mem (a + i) = memGet s.mem (a + i))
    (he : t.epoch = s.epoch) : readWord t a = readWord s a := by
  unfold readWord
  congr 1
  apply List.map_congr_left
  intro i hi
  exact readByte_congr _ (hm i (List.mem_range.mp hi)) he

/-- A word whose eight bytes are those of `w` reads as `w`. -/
theorem readWord_of_bytes (s : State) (a : Nat) (w : Word)
    (h : ∀ i, i < 8 → memGet s.mem (a + i) = (bytesOfWord w)[i]?) : readWord s a = w := by
  unfold readWord
  rw [show ((List.range 8).map fun i => readByte s (a + i)) = bytesOfWord w from ?_, wordOfBytes_bytesOfWord]
  apply List.ext_getElem
  · simp
  · intro i h1 h2
    have h3 : i < 8 := by simpa using h1
    have h4 : i < (bytesOfWord w).length := by simpa using h3
    simp [readByte, h i h3, List.getElem?_eq_getElem h4]

/-! ### The canonical form -/

/-- Every address of a memory is above `a`. -/
def Memory.above (a : Nat) (m : Memory) : Prop := ∀ c ∈ m, a < c.1

theorem Memory.wf_cons (c : Host.Cell) (m : Memory) :
    Memory.wf (c :: m) = true ↔ Memory.above c.1 m ∧ Memory.wf m = true := by
  induction m generalizing c with
  | nil => simp [Memory.wf, Memory.above]
  | cons d m ih =>
    simp only [Memory.wf, Bool.and_eq_true, decide_eq_true_eq]
    constructor
    · rintro ⟨h1, h2⟩
      refine ⟨?_, h2⟩
      intro e he
      rcases List.mem_cons.mp he with rfl | he
      · exact h1
      · exact Nat.lt_trans h1 (((ih d).mp h2).1 e he)
    · rintro ⟨h1, h2⟩
      exact ⟨h1 d (by simp), h2⟩

theorem mem_memSet {m : Memory} {a : Nat} {b : Byte} {c : Host.Cell} (h : c ∈ memSet m a b) : c = (a, b) ∨ c ∈ m := by
  induction m with
  | nil => simpa [memSet] using h
  | cons d m ih =>
    simp only [memSet] at h
    split at h
    · simpa using h
    · split at h
      · rcases List.mem_cons.mp h with h | h
        · exact .inl h
        · exact .inr (by simp [h])
      · rcases List.mem_cons.mp h with h | h
        · exact .inr (by simp [h])
        · rcases ih h with h | h
          · exact .inl h
          · exact .inr (by simp [h])

theorem memSet_wf (m : Memory) (a : Nat) (b : Byte) (h : Memory.wf m = true) : Memory.wf (memSet m a b) = true := by
  induction m with
  | nil => simp [memSet, Memory.wf]
  | cons d m ih =>
    obtain ⟨h1, h2⟩ := (Memory.wf_cons d m).mp h
    simp only [memSet]
    split
    · rename_i hlt
      refine (Memory.wf_cons _ _).mpr ⟨?_, h⟩
      intro c hc
      rcases List.mem_cons.mp hc with rfl | hc
      · exact hlt
      · exact Nat.lt_trans hlt (h1 c hc)
    · split
      · rename_i heq
        exact (Memory.wf_cons _ _).mpr ⟨heq ▸ h1, h2⟩
      · rename_i hlt hne
        refine (Memory.wf_cons _ _).mpr ⟨?_, ih h2⟩
        intro c hc
        rcases mem_memSet hc with rfl | hc
        · show d.1 < a; omega
        · exact h1 c hc

theorem memSetBytes_wf (bs : List Byte) : ∀ (m : Memory) (a : Nat), Memory.wf m = true →
    Memory.wf (memSetBytes m a bs) = true := by
  induction bs with
  | nil => intro m a h; exact h
  | cons b bs ih => intro m a h; exact ih _ _ (memSet_wf m a b h)

theorem memSetWord_wf (m : Memory) (a : Nat) (w : Word) (h : Memory.wf m = true) : Memory.wf (memSetWord m a w) = true :=
  memSetBytes_wf _ m a h

theorem memSetWords_wf (ws : List Word) : ∀ (m : Memory) (a : Nat), Memory.wf m = true →
    Memory.wf (memSetWords m a ws) = true := by
  induction ws with
  | nil => intro m a h; exact h
  | cons w ws ih => intro m a h; exact ih _ _ (memSetWord_wf m a w h)

theorem reset_mem_wf : Memory.wf State.reset.mem = true := rfl

/-- The cells of a stored run of bytes are old ones or lie in the run. -/
theorem mem_memSetBytes (bs : List Byte) : ∀ (m : Memory) (a : Nat) (c : Host.Cell), c ∈ memSetBytes m a bs →
    (a ≤ c.1 ∧ c.1 < a + bs.length) ∨ c ∈ m := by
  induction bs with
  | nil => intro m a c h; exact .inr h
  | cons b bs ih =>
    intro m a c h
    simp only [List.length_cons]
    rcases ih _ _ _ h with h | h
    · exact .inl (by omega)
    · rcases mem_memSet h with rfl | h
      · exact .inl ⟨Nat.le_refl _, by simp⟩
      · exact .inr h

theorem mem_memSetWord {m : Memory} {a : Nat} {w : Word} {c : Host.Cell} (h : c ∈ memSetWord m a w) :
    (a ≤ c.1 ∧ c.1 < a + 8) ∨ c ∈ m := by
  simpa using mem_memSetBytes _ m a c h

theorem mem_memSetWords (ws : List Word) : ∀ (m : Memory) (a : Nat) (c : Host.Cell), c ∈ memSetWords m a ws →
    (a ≤ c.1 ∧ c.1 < a + 8 * ws.length) ∨ c ∈ m := by
  induction ws with
  | nil => intro m a c h; exact .inr h
  | cons w ws ih =>
    intro m a c h
    simp only [List.length_cons]
    rcases ih _ _ _ h with h | h
    · exact .inl (by omega)
    · rcases mem_memSetWord h with h | h
      · exact .inl (by omega)
      · exact .inr h

end Sys2Proof.Machine
end

