-- ==== Sys2Proof/Laws/State.lean ====
section
/-! SUPPORT. What every update of the state leaves in every field, one lemma per field per update, so that no proof unfolds a
record update. -/

namespace Sys2Proof.Machine

/-! ### `drawn` -/

@[simp] theorem drawn_csr (s : State) : (drawn s).csr = s.csr := rfl
@[simp] theorem drawn_status (s : State) : (drawn s).status = s.status := rfl
@[simp] theorem drawn_dm (s : State) : (drawn s).dm = s.dm := rfl
@[simp] theorem drawn_sq (s : State) : (drawn s).sq = s.sq := rfl
@[simp] theorem drawn_mc (s : State) : (drawn s).mc = s.mc := rfl
@[simp] theorem drawn_cmd (s : State) : (drawn s).cmd = s.cmd := rfl
@[simp] theorem drawn_mem (s : State) : (drawn s).mem = s.mem := rfl
@[simp] theorem drawn_params (s : State) : (drawn s).params = s.params := rfl
@[simp] theorem drawn_agenda (s : State) : (drawn s).agenda = s.agenda := rfl
@[simp] theorem drawn_replies (s : State) : (drawn s).replies = s.replies := rfl
@[simp] theorem drawn_draws (s : State) : (drawn s).draws = s.draws + 1 := rfl
@[simp] theorem drawn_busyReads (s : State) : (drawn s).busyReads = s.busyReads := rfl
@[simp] theorem drawn_epoch (s : State) : (drawn s).epoch = s.epoch := rfl

/-! ### `complete` -/

@[simp] theorem complete_csr (s : State) (op : Byte) (code : ErrCode) : (complete op code s).csr = s.csr := rfl
@[simp] theorem complete_status (s : State) (op : Byte) (code : ErrCode) :
    (complete op code s).status = { s.status with err := errByte code, lastOp := op } := rfl
@[simp] theorem complete_dm (s : State) (op : Byte) (code : ErrCode) : (complete op code s).dm = s.dm := rfl
@[simp] theorem complete_sq (s : State) (op : Byte) (code : ErrCode) : (complete op code s).sq = s.sq := rfl
@[simp] theorem complete_mc (s : State) (op : Byte) (code : ErrCode) : (complete op code s).mc = s.mc := rfl
@[simp] theorem complete_cmd (s : State) (op : Byte) (code : ErrCode) : (complete op code s).cmd = none := rfl
@[simp] theorem complete_mem (s : State) (op : Byte) (code : ErrCode) : (complete op code s).mem = s.mem := rfl
@[simp] theorem complete_params (s : State) (op : Byte) (code : ErrCode) : (complete op code s).params = s.params := rfl
@[simp] theorem complete_agenda (s : State) (op : Byte) (code : ErrCode) : (complete op code s).agenda = s.agenda := rfl
@[simp] theorem complete_replies (s : State) (op : Byte) (code : ErrCode) : (complete op code s).replies = s.replies := rfl
@[simp] theorem complete_draws (s : State) (op : Byte) (code : ErrCode) : (complete op code s).draws = s.draws := rfl
@[simp] theorem complete_busyReads (s : State) (op : Byte) (code : ErrCode) :
    (complete op code s).busyReads = s.busyReads := rfl
@[simp] theorem complete_epoch (s : State) (op : Byte) (code : ErrCode) : (complete op code s).epoch = s.epoch := rfl

/-! ### `raise` -/

@[simp] theorem raise_csr (s : State) (op : Byte) (code : ErrCode) : (raise op code s).csr = s.csr := rfl
@[simp] theorem raise_status (s : State) (op : Byte) (code : ErrCode) :
    (raise op code s).status = { s.status with err := errByte code, lastOp := op } := rfl
@[simp] theorem raise_dm (s : State) (op : Byte) (code : ErrCode) : (raise op code s).dm = s.dm := rfl
@[simp] theorem raise_sq (s : State) (op : Byte) (code : ErrCode) : (raise op code s).sq = s.sq := rfl
@[simp] theorem raise_mc (s : State) (op : Byte) (code : ErrCode) : (raise op code s).mc = s.mc := rfl
@[simp] theorem raise_cmd (s : State) (op : Byte) (code : ErrCode) : (raise op code s).cmd = none := rfl
@[simp] theorem raise_mem (s : State) (op : Byte) (code : ErrCode) : (raise op code s).mem = s.mem := rfl
@[simp] theorem raise_params (s : State) (op : Byte) (code : ErrCode) : (raise op code s).params = s.params := rfl
@[simp] theorem raise_agenda (s : State) (op : Byte) (code : ErrCode) : (raise op code s).agenda = s.agenda := rfl
@[simp] theorem raise_replies (s : State) (op : Byte) (code : ErrCode) : (raise op code s).replies = s.replies := rfl
@[simp] theorem raise_draws (s : State) (op : Byte) (code : ErrCode) : (raise op code s).draws = s.draws := rfl
@[simp] theorem raise_busyReads (s : State) (op : Byte) (code : ErrCode) : (raise op code s).busyReads = s.busyReads := rfl
@[simp] theorem raise_epoch (s : State) (op : Byte) (code : ErrCode) : (raise op code s).epoch = s.epoch := rfl

/-! ### `storeValues` -/

@[simp] theorem storeValues_csr (s : State) (a : Nat) (xs : List F64) : (storeValues s a xs).csr = s.csr := rfl
@[simp] theorem storeValues_status (s : State) (a : Nat) (xs : List F64) : (storeValues s a xs).status = s.status := rfl
@[simp] theorem storeValues_dm (s : State) (a : Nat) (xs : List F64) : (storeValues s a xs).dm = s.dm := rfl
@[simp] theorem storeValues_sq (s : State) (a : Nat) (xs : List F64) : (storeValues s a xs).sq = s.sq := rfl
@[simp] theorem storeValues_mc (s : State) (a : Nat) (xs : List F64) : (storeValues s a xs).mc = s.mc := rfl
@[simp] theorem storeValues_cmd (s : State) (a : Nat) (xs : List F64) : (storeValues s a xs).cmd = s.cmd := rfl
@[simp] theorem storeValues_mem (s : State) (a : Nat) (xs : List F64) :
    (storeValues s a xs).mem = memSetWords s.mem a (settleList s.draws (fun i => .bufferWord (a + 8 * i)) xs) := rfl
@[simp] theorem storeValues_params (s : State) (a : Nat) (xs : List F64) : (storeValues s a xs).params = s.params := rfl
@[simp] theorem storeValues_agenda (s : State) (a : Nat) (xs : List F64) : (storeValues s a xs).agenda = s.agenda := rfl
@[simp] theorem storeValues_replies (s : State) (a : Nat) (xs : List F64) : (storeValues s a xs).replies = s.replies := rfl
@[simp] theorem storeValues_draws (s : State) (a : Nat) (xs : List F64) : (storeValues s a xs).draws = s.draws := rfl
@[simp] theorem storeValues_busyReads (s : State) (a : Nat) (xs : List F64) :
    (storeValues s a xs).busyReads = s.busyReads := rfl
@[simp] theorem storeValues_epoch (s : State) (a : Nat) (xs : List F64) : (storeValues s a xs).epoch = s.epoch := rfl

/-! ### `tagFrame` -/

@[simp] theorem tagFrame_csr (s : State) :
    (tagFrame s).csr =
       { s.csr with specFftSize := s.csr.fftSize, specCenterFreq := s.csr.centerFreq, specSampleRate := s.csr.sampleRate } := rfl
@[simp] theorem tagFrame_status (s : State) : (tagFrame s).status = s.status := rfl
@[simp] theorem tagFrame_dm (s : State) : (tagFrame s).dm = s.dm := rfl
@[simp] theorem tagFrame_sq (s : State) : (tagFrame s).sq = s.sq := rfl
@[simp] theorem tagFrame_mc (s : State) : (tagFrame s).mc = s.mc := rfl
@[simp] theorem tagFrame_cmd (s : State) : (tagFrame s).cmd = s.cmd := rfl
@[simp] theorem tagFrame_mem (s : State) : (tagFrame s).mem = s.mem := rfl
@[simp] theorem tagFrame_params (s : State) : (tagFrame s).params = s.params := rfl
@[simp] theorem tagFrame_agenda (s : State) : (tagFrame s).agenda = s.agenda := rfl
@[simp] theorem tagFrame_replies (s : State) : (tagFrame s).replies = s.replies := rfl
@[simp] theorem tagFrame_draws (s : State) : (tagFrame s).draws = s.draws := rfl
@[simp] theorem tagFrame_busyReads (s : State) : (tagFrame s).busyReads = s.busyReads := rfl
@[simp] theorem tagFrame_epoch (s : State) : (tagFrame s).epoch = s.epoch := rfl

/-! ### `setSpecLen` -/

@[simp] theorem setSpecLen_csr (s : State) (n : U32) : (setSpecLen s n).csr = { s.csr with specLen := n } := rfl
@[simp] theorem setSpecLen_status (s : State) (n : U32) : (setSpecLen s n).status = s.status := rfl
@[simp] theorem setSpecLen_dm (s : State) (n : U32) : (setSpecLen s n).dm = s.dm := rfl
@[simp] theorem setSpecLen_sq (s : State) (n : U32) : (setSpecLen s n).sq = s.sq := rfl
@[simp] theorem setSpecLen_mc (s : State) (n : U32) : (setSpecLen s n).mc = s.mc := rfl
@[simp] theorem setSpecLen_cmd (s : State) (n : U32) : (setSpecLen s n).cmd = s.cmd := rfl
@[simp] theorem setSpecLen_mem (s : State) (n : U32) : (setSpecLen s n).mem = s.mem := rfl
@[simp] theorem setSpecLen_params (s : State) (n : U32) : (setSpecLen s n).params = s.params := rfl
@[simp] theorem setSpecLen_agenda (s : State) (n : U32) : (setSpecLen s n).agenda = s.agenda := rfl
@[simp] theorem setSpecLen_replies (s : State) (n : U32) : (setSpecLen s n).replies = s.replies := rfl
@[simp] theorem setSpecLen_draws (s : State) (n : U32) : (setSpecLen s n).draws = s.draws := rfl
@[simp] theorem setSpecLen_busyReads (s : State) (n : U32) : (setSpecLen s n).busyReads = s.busyReads := rfl
@[simp] theorem setSpecLen_epoch (s : State) (n : U32) : (setSpecLen s n).epoch = s.epoch := rfl

/-! ### `emptyAudio` -/

@[simp] theorem emptyAudio_csr (s : State) :
    (emptyAudio s).csr = { s.csr with audioLen := 0, envLen := if s.dm.mode = .cw then 0 else s.csr.envLen } := rfl
@[simp] theorem emptyAudio_status (s : State) : (emptyAudio s).status = s.status := rfl
@[simp] theorem emptyAudio_dm (s : State) : (emptyAudio s).dm = s.dm := rfl
@[simp] theorem emptyAudio_sq (s : State) : (emptyAudio s).sq = s.sq := rfl
@[simp] theorem emptyAudio_mc (s : State) : (emptyAudio s).mc = s.mc := rfl
@[simp] theorem emptyAudio_cmd (s : State) : (emptyAudio s).cmd = s.cmd := rfl
@[simp] theorem emptyAudio_mem (s : State) : (emptyAudio s).mem = s.mem := rfl
@[simp] theorem emptyAudio_params (s : State) : (emptyAudio s).params = s.params := rfl
@[simp] theorem emptyAudio_agenda (s : State) : (emptyAudio s).agenda = s.agenda := rfl
@[simp] theorem emptyAudio_replies (s : State) : (emptyAudio s).replies = s.replies := rfl
@[simp] theorem emptyAudio_draws (s : State) : (emptyAudio s).draws = s.draws := rfl
@[simp] theorem emptyAudio_busyReads (s : State) : (emptyAudio s).busyReads = s.busyReads := rfl
@[simp] theorem emptyAudio_epoch (s : State) : (emptyAudio s).epoch = s.epoch := rfl

/-! ### `storeAudio` -/

@[simp] theorem storeAudio_csr (s : State) (r : List F64 × Demod) :
    (storeAudio s r).csr = { s.csr with audioLen := BitVec.ofNat 32 r.1.length } := rfl
@[simp] theorem storeAudio_status (s : State) (r : List F64 × Demod) : (storeAudio s r).status = s.status := rfl
@[simp] theorem storeAudio_dm (s : State) (r : List F64 × Demod) : (storeAudio s r).dm = r.2 := rfl
@[simp] theorem storeAudio_sq (s : State) (r : List F64 × Demod) : (storeAudio s r).sq = s.sq := rfl
@[simp] theorem storeAudio_mc (s : State) (r : List F64 × Demod) : (storeAudio s r).mc = s.mc := rfl
@[simp] theorem storeAudio_cmd (s : State) (r : List F64 × Demod) : (storeAudio s r).cmd = s.cmd := rfl
@[simp] theorem storeAudio_mem (s : State) (r : List F64 × Demod) :
    (storeAudio s r).mem =
       memSetWords s.mem (audioAddr 0) (settleList s.draws (fun i => .bufferWord (audioAddr 0 + 8 * i)) r.1) := rfl
@[simp] theorem storeAudio_params (s : State) (r : List F64 × Demod) : (storeAudio s r).params = s.params := rfl
@[simp] theorem storeAudio_agenda (s : State) (r : List F64 × Demod) : (storeAudio s r).agenda = s.agenda := rfl
@[simp] theorem storeAudio_replies (s : State) (r : List F64 × Demod) : (storeAudio s r).replies = s.replies := rfl
@[simp] theorem storeAudio_draws (s : State) (r : List F64 × Demod) : (storeAudio s r).draws = s.draws := rfl
@[simp] theorem storeAudio_busyReads (s : State) (r : List F64 × Demod) : (storeAudio s r).busyReads = s.busyReads := rfl
@[simp] theorem storeAudio_epoch (s : State) (r : List F64 × Demod) : (storeAudio s r).epoch = s.epoch := rfl

/-! ### `morseClear` -/

@[simp] theorem morseClear_csr (s : State) : (morseClear s).csr = { s.csr with textInc := 0 } := rfl
@[simp] theorem morseClear_status (s : State) : (morseClear s).status = { s.status with textOvf := false } := rfl
@[simp] theorem morseClear_dm (s : State) : (morseClear s).dm = s.dm := rfl
@[simp] theorem morseClear_sq (s : State) : (morseClear s).sq = s.sq := rfl
@[simp] theorem morseClear_mc (s : State) :
    (morseClear s).mc = { s.mc with code := [], text := [], last := false, dur := f64Zero } := rfl
@[simp] theorem morseClear_cmd (s : State) : (morseClear s).cmd = s.cmd := rfl
@[simp] theorem morseClear_mem (s : State) : (morseClear s).mem = s.mem := rfl
@[simp] theorem morseClear_params (s : State) : (morseClear s).params = s.params := rfl
@[simp] theorem morseClear_agenda (s : State) : (morseClear s).agenda = s.agenda := rfl
@[simp] theorem morseClear_replies (s : State) : (morseClear s).replies = s.replies := rfl
@[simp] theorem morseClear_draws (s : State) : (morseClear s).draws = s.draws := rfl
@[simp] theorem morseClear_busyReads (s : State) : (morseClear s).busyReads = s.busyReads := rfl
@[simp] theorem morseClear_epoch (s : State) : (morseClear s).epoch = s.epoch := rfl

/-! ### `feedInto` -/

@[simp] theorem feedInto_csr (s : State) (f : Feed) : (feedInto s f).csr = { s.csr with textInc := textIncWord f.inc } := rfl
@[simp] theorem feedInto_status (s : State) (f : Feed) : (feedInto s f).status = { s.status with textOvf := f.textOvf } := rfl
@[simp] theorem feedInto_dm (s : State) (f : Feed) : (feedInto s f).dm = s.dm := rfl
@[simp] theorem feedInto_sq (s : State) (f : Feed) : (feedInto s f).sq = s.sq := rfl
@[simp] theorem feedInto_mc (s : State) (f : Feed) : (feedInto s f).mc = f.mc := rfl
@[simp] theorem feedInto_cmd (s : State) (f : Feed) : (feedInto s f).cmd = s.cmd := rfl
@[simp] theorem feedInto_mem (s : State) (f : Feed) : (feedInto s f).mem = f.mem := rfl
@[simp] theorem feedInto_params (s : State) (f : Feed) : (feedInto s f).params = s.params := rfl
@[simp] theorem feedInto_agenda (s : State) (f : Feed) : (feedInto s f).agenda = s.agenda := rfl
@[simp] theorem feedInto_replies (s : State) (f : Feed) : (feedInto s f).replies = s.replies := rfl
@[simp] theorem feedInto_draws (s : State) (f : Feed) : (feedInto s f).draws = s.draws := rfl
@[simp] theorem feedInto_busyReads (s : State) (f : Feed) : (feedInto s f).busyReads = s.busyReads := rfl
@[simp] theorem feedInto_epoch (s : State) (f : Feed) : (feedInto s f).epoch = s.epoch := rfl

/-! ### `noAudio` -/

@[simp] theorem noAudio_csr (s : State) : (noAudio s).csr = { s.csr with audioLen := 0, textInc := 0 } := rfl
@[simp] theorem noAudio_status (s : State) : (noAudio s).status = s.status := rfl
@[simp] theorem noAudio_dm (s : State) : (noAudio s).dm = s.dm := rfl
@[simp] theorem noAudio_sq (s : State) : (noAudio s).sq = s.sq := rfl
@[simp] theorem noAudio_mc (s : State) : (noAudio s).mc = s.mc := rfl
@[simp] theorem noAudio_cmd (s : State) : (noAudio s).cmd = s.cmd := rfl
@[simp] theorem noAudio_mem (s : State) : (noAudio s).mem = s.mem := rfl
@[simp] theorem noAudio_params (s : State) : (noAudio s).params = s.params := rfl
@[simp] theorem noAudio_agenda (s : State) : (noAudio s).agenda = s.agenda := rfl
@[simp] theorem noAudio_replies (s : State) : (noAudio s).replies = s.replies := rfl
@[simp] theorem noAudio_draws (s : State) : (noAudio s).draws = s.draws := rfl
@[simp] theorem noAudio_busyReads (s : State) : (noAudio s).busyReads = s.busyReads := rfl
@[simp] theorem noAudio_epoch (s : State) : (noAudio s).epoch = s.epoch := rfl

/-! ### `resetRegisters` -/

@[simp] theorem resetRegisters_csr (s : State) : (resetRegisters s).csr = Csr.reset := rfl
@[simp] theorem resetRegisters_status (s : State) : (resetRegisters s).status = Status.reset := rfl
@[simp] theorem resetRegisters_dm (s : State) : (resetRegisters s).dm = demodAfterReset s.draws s.params.aaOrder := rfl
@[simp] theorem resetRegisters_sq (s : State) : (resetRegisters s).sq = Squelch.reset := rfl
@[simp] theorem resetRegisters_mc (s : State) : (resetRegisters s).mc = morseAfterReset s.draws := rfl
@[simp] theorem resetRegisters_cmd (s : State) : (resetRegisters s).cmd = s.cmd := rfl
@[simp] theorem resetRegisters_mem (s : State) : (resetRegisters s).mem = s.mem := rfl
@[simp] theorem resetRegisters_params (s : State) : (resetRegisters s).params = s.params := rfl
@[simp] theorem resetRegisters_agenda (s : State) : (resetRegisters s).agenda = s.agenda := rfl
@[simp] theorem resetRegisters_replies (s : State) : (resetRegisters s).replies = s.replies := rfl
@[simp] theorem resetRegisters_draws (s : State) : (resetRegisters s).draws = s.draws + 1 := rfl
@[simp] theorem resetRegisters_busyReads (s : State) : (resetRegisters s).busyReads = s.busyReads := rfl
@[simp] theorem resetRegisters_epoch (s : State) : (resetRegisters s).epoch = s.epoch := rfl

/-! ### `powerOnReset` -/

@[simp] theorem powerOnReset_csr (s : State) : (powerOnReset s).csr = Csr.reset := rfl
@[simp] theorem powerOnReset_status (s : State) : (powerOnReset s).status = Status.reset := rfl
@[simp] theorem powerOnReset_dm (s : State) : (powerOnReset s).dm = demodAfterReset s.draws s.params.aaOrder := rfl
@[simp] theorem powerOnReset_sq (s : State) : (powerOnReset s).sq = Squelch.reset := rfl
@[simp] theorem powerOnReset_mc (s : State) : (powerOnReset s).mc = morseAfterReset s.draws := rfl
@[simp] theorem powerOnReset_cmd (s : State) : (powerOnReset s).cmd = none := rfl
@[simp] theorem powerOnReset_mem (s : State) : (powerOnReset s).mem = [] := rfl
@[simp] theorem powerOnReset_params (s : State) : (powerOnReset s).params = s.params := rfl
@[simp] theorem powerOnReset_agenda (s : State) : (powerOnReset s).agenda = s.agenda := rfl
@[simp] theorem powerOnReset_replies (s : State) : (powerOnReset s).replies = s.replies := rfl
@[simp] theorem powerOnReset_draws (s : State) : (powerOnReset s).draws = s.draws + 1 := rfl
@[simp] theorem powerOnReset_busyReads (s : State) : (powerOnReset s).busyReads = s.busyReads := rfl
@[simp] theorem powerOnReset_epoch (s : State) : (powerOnReset s).epoch = s.epoch + 1 := rfl

/-! ### `recordReply` -/

@[simp] theorem recordReply_csr (s : State) (r : Reply) : (recordReply (r, s)).csr = s.csr := rfl
@[simp] theorem recordReply_status (s : State) (r : Reply) : (recordReply (r, s)).status = s.status := rfl
@[simp] theorem recordReply_dm (s : State) (r : Reply) : (recordReply (r, s)).dm = s.dm := rfl
@[simp] theorem recordReply_sq (s : State) (r : Reply) : (recordReply (r, s)).sq = s.sq := rfl
@[simp] theorem recordReply_mc (s : State) (r : Reply) : (recordReply (r, s)).mc = s.mc := rfl
@[simp] theorem recordReply_cmd (s : State) (r : Reply) : (recordReply (r, s)).cmd = s.cmd := rfl
@[simp] theorem recordReply_mem (s : State) (r : Reply) : (recordReply (r, s)).mem = s.mem := rfl
@[simp] theorem recordReply_params (s : State) (r : Reply) : (recordReply (r, s)).params = s.params := rfl
@[simp] theorem recordReply_agenda (s : State) (r : Reply) : (recordReply (r, s)).agenda = s.agenda := rfl
@[simp] theorem recordReply_replies (s : State) (r : Reply) : (recordReply (r, s)).replies = r :: s.replies := rfl
@[simp] theorem recordReply_draws (s : State) (r : Reply) : (recordReply (r, s)).draws = s.draws := rfl
@[simp] theorem recordReply_busyReads (s : State) (r : Reply) : (recordReply (r, s)).busyReads = s.busyReads := rfl
@[simp] theorem recordReply_epoch (s : State) (r : Reply) : (recordReply (r, s)).epoch = s.epoch := rfl

/-! ### `storeEnvelope` -/

@[simp] theorem storeEnvelope_csr (s : State) (x : List Cplx) : (storeEnvelope s x).csr =
    if s.dm.mode = .cw then { s.csr with envLen := BitVec.ofNat 32 x.length } else s.csr := by
  unfold storeEnvelope; split <;> rfl
@[simp] theorem storeEnvelope_status (s : State) (x : List Cplx) : (storeEnvelope s x).status = s.status := by
  unfold storeEnvelope; split <;> rfl
@[simp] theorem storeEnvelope_dm (s : State) (x : List Cplx) : (storeEnvelope s x).dm = s.dm := by
  unfold storeEnvelope; split <;> rfl
@[simp] theorem storeEnvelope_sq (s : State) (x : List Cplx) : (storeEnvelope s x).sq = s.sq := by
  unfold storeEnvelope; split <;> rfl
@[simp] theorem storeEnvelope_mc (s : State) (x : List Cplx) : (storeEnvelope s x).mc = s.mc := by
  unfold storeEnvelope; split <;> rfl
@[simp] theorem storeEnvelope_cmd (s : State) (x : List Cplx) : (storeEnvelope s x).cmd = s.cmd := by
  unfold storeEnvelope; split <;> rfl
@[simp] theorem storeEnvelope_mem (s : State) (x : List Cplx) : (storeEnvelope s x).mem =
    if s.dm.mode = .cw then memSetWords s.mem (envAddr 0) (settleList s.draws (fun i => .bufferWord (envAddr 0 + 8 * i)) (envelope s.params.num x)) else s.mem := by
  unfold storeEnvelope; split <;> rfl
@[simp] theorem storeEnvelope_params (s : State) (x : List Cplx) : (storeEnvelope s x).params = s.params := by
  unfold storeEnvelope; split <;> rfl
@[simp] theorem storeEnvelope_agenda (s : State) (x : List Cplx) : (storeEnvelope s x).agenda = s.agenda := by
  unfold storeEnvelope; split <;> rfl
@[simp] theorem storeEnvelope_replies (s : State) (x : List Cplx) : (storeEnvelope s x).replies = s.replies := by
  unfold storeEnvelope; split <;> rfl
@[simp] theorem storeEnvelope_draws (s : State) (x : List Cplx) : (storeEnvelope s x).draws = s.draws := by
  unfold storeEnvelope; split <;> rfl
@[simp] theorem storeEnvelope_busyReads (s : State) (x : List Cplx) : (storeEnvelope s x).busyReads = s.busyReads := by
  unfold storeEnvelope; split <;> rfl
@[simp] theorem storeEnvelope_epoch (s : State) (x : List Cplx) : (storeEnvelope s x).epoch = s.epoch := by
  unfold storeEnvelope; split <;> rfl

/-! ### Reads of the completion fields -/

@[simp] theorem complete_err (s : State) (op : Byte) (code : ErrCode) : (complete op code s).status.err = errByte code := rfl
@[simp] theorem complete_lastOp (s : State) (op : Byte) (code : ErrCode) : (complete op code s).status.lastOp = op := rfl
@[simp] theorem complete_textOvf (s : State) (op : Byte) (code : ErrCode) :
    (complete op code s).status.textOvf = s.status.textOvf := rfl
@[simp] theorem complete_cmdOvr (s : State) (op : Byte) (code : ErrCode) :
    (complete op code s).status.cmdOvr = s.status.cmdOvr := rfl
@[simp] theorem complete_wrDrop (s : State) (op : Byte) (code : ErrCode) :
    (complete op code s).status.wrDrop = s.status.wrDrop := rfl

end Sys2Proof.Machine
end

