-- ==== Sys2Proof/Laws/Commands.lean ====
section
/-! SUPPORT. What each shared operation can do, said once: how a command ends, what a stored value is, and the lengths that the
signal paths keep. -/

namespace Sys2Proof.Machine

/-! ### Checks and completion -/

theorem firstError_eq_none (cs : List (Bool × ErrCode)) : firstError cs = none ↔ ∀ c ∈ cs, c.1 = false := by
  induction cs with
  | nil => simp [firstError]
  | cons c cs ih =>
    obtain ⟨b, e⟩ := c
    cases b <;> simp [firstError, ih]

theorem firstError_mem {cs : List (Bool × ErrCode)} {e : ErrCode} (h : firstError cs = some e) : (true, e) ∈ cs := by
  induction cs with
  | nil => simp [firstError] at h
  | cons c cs ih =>
    obtain ⟨b, e'⟩ := c
    cases b with
    | true => simp only [firstError, Option.some.injEq] at h; simp [h]
    | false => exact List.mem_cons_of_mem _ (ih h)

/-- A command ends in one of two ways: an error that discards every effect, or its effects and `OK`. -/
theorem runCommand_cases (op : Byte) (cs : List (Bool × ErrCode)) (f : State → State) (s : State) :
    (∃ e, firstError cs = some e ∧ (true, e) ∈ cs ∧ runCommand op cs f s = complete op e s) ∨
    (firstError cs = none ∧ runCommand op cs f s = complete op .ok (f s)) := by
  cases h : firstError cs with
  | some e => exact .inl ⟨e, rfl, firstError_mem h, by simp [runCommand, h, raise]⟩
  | none => exact .inr ⟨rfl, by simp [runCommand, h]⟩

theorem runCommand_ok {cs : List (Bool × ErrCode)} (op : Byte) (f : State → State) (s : State) (h : firstError cs = none) :
    runCommand op cs f s = complete op .ok (f s) := by simp [runCommand, h]

theorem runCommand_raise {cs : List (Bool × ErrCode)} {e : ErrCode} (op : Byte) (f : State → State) (s : State)
    (h : firstError cs = some e) : runCommand op cs f s = complete op e s := by simp [runCommand, h, raise]

@[simp] theorem runCommand_cmd (op : Byte) (cs : List (Bool × ErrCode)) (f : State → State) (s : State) :
    (runCommand op cs f s).cmd = none := by
  rcases runCommand_cases op cs f s with ⟨e, _, _, h⟩ | ⟨_, h⟩ <;> simp [h]

@[simp] theorem runCommand_lastOp (op : Byte) (cs : List (Bool × ErrCode)) (f : State → State) (s : State) :
    (runCommand op cs f s).status.lastOp = op := by
  rcases runCommand_cases op cs f s with ⟨e, _, _, h⟩ | ⟨_, h⟩ <;> simp [h]

/-- Every command is its checks, its effects and completion. -/
theorem exec_eq (i : Instr) (s : State) : exec i s = .next (runCommand i.opcode (checksOf i s) (effectOf i) s) := by
  cases i <;> rfl

theorem exec_next {i : Instr} {s t : State} (h : exec i s = .next t) :
    t = runCommand i.opcode (checksOf i s) (effectOf i) s := by
  rw [exec_eq] at h
  exact (Host.Outcome.next.inj h).symm

/-- What a command can do: raise one of its errors and change nothing but the completion fields, or have its effects. -/
theorem exec_cases {i : Instr} {s t : State} (h : exec i s = .next t) :
    (∃ e, firstError (checksOf i s) = some e ∧ (true, e) ∈ checksOf i s ∧ t = complete i.opcode e s) ∨
    (firstError (checksOf i s) = none ∧ t = complete i.opcode .ok (effectOf i s)) := by
  rw [exec_next h]
  exact runCommand_cases _ _ _ _

/-- No command checks for an error whose code is that of success. -/
theorem checksOf_ne_ok {i : Instr} {s : State} {b : Bool} {e : ErrCode} (h : (b, e) ∈ checksOf i s) : e ≠ .ok := by
  cases i <;>
    simp only [checksOf, analyzeChecks, squelchChecks, demodInitChecks, demodulateChecks, morseInitChecks, morseFeedChecks,
      processChecks, List.mem_cons, List.not_mem_nil, or_false, Prod.mk.injEq] at h <;>
    (try rcases h with h | h | h | h | h) <;> (try rcases h with h | h | h) <;> simp_all

theorem errByte_le (e : ErrCode) : (errByte e).toNat ≤ 0x0F := by cases e <;> decide

theorem errByte_ne_zero {e : ErrCode} (h : e ≠ .ok) : errByte e ≠ 0 := by
  cases e <;> first | exact absurd rfl h | decide

/-! ### Stored values -/

theorem nanOf_isNaN (w : Word) : f64IsNaN (nanOf w) = true := by
  unfold nanOf f64IsNaN f64Mag f64Pack f64InfMag
  have h2 : w.toNat % 2 ^ 52 < 2 ^ 52 := Nat.mod_lt _ (by decide)
  have key : ∀ k, 0 < k → k < 2 ^ 52 →
      9218868437227405312 <
        (BitVec.ofNat 64 (if w.msb = true then 2 ^ 63 + (9218868437227405312 + k) else 9218868437227405312 + k)).toNat % 2 ^ 63 := by
    intro k hk hk2
    rw [BitVec.toNat_ofNat]
    split <;> omega
  simp only [decide_eq_true_eq]
  by_cases h0 : w.toNat % 2 ^ 52 = 0
  · rw [if_pos h0]; exact key (2 ^ 51) (by decide) (by decide)
  · rw [if_neg h0]; exact key _ (by omega) h2

theorem settle_of_not_nan {x : F64} (draw : Nat) (site : Site) (h : f64IsNaN x = false) : settle draw site x = x := by
  simp [settle, h]

@[simp] theorem settle_isNaN (draw : Nat) (site : Site) (x : F64) : f64IsNaN (settle draw site x) = f64IsNaN x := by
  unfold settle
  split
  · rename_i h; rw [nanOf_isNaN, h]
  · rfl

/-- A comparison does not see which pattern a NaN was stored with. -/
@[simp] theorem f64Lt_settle_left (draw : Nat) (site : Site) (x y : F64) : f64Lt (settle draw site x) y = f64Lt x y := by
  cases h : f64IsNaN x with
  | false => rw [settle_of_not_nan _ _ h]
  | true =>
    have h2 : f64IsNaN (settle draw site x) = true := by simp [h]
    simp [f64Lt, h, h2]

@[simp] theorem f64Lt_settle_right (draw : Nat) (site : Site) (x y : F64) : f64Lt x (settle draw site y) = f64Lt x y := by
  cases h : f64IsNaN y with
  | false => rw [settle_of_not_nan _ _ h]
  | true =>
    have h2 : f64IsNaN (settle draw site y) = true := by simp [h]
    simp [f64Lt, h, h2]

@[simp] theorem settleList_length (xs : List F64) : ∀ (draw : Nat) (site : Nat → Site),
    (settleList draw site xs).length = xs.length := by
  induction xs with
  | nil => intros; rfl
  | cons x xs ih => intros; simp [settleList, ih]

theorem settleList_getElem (xs : List F64) : ∀ (draw : Nat) (site : Nat → Site) (i : Nat) (h : i < xs.length),
    (settleList draw site xs)[i]'(by simpa using h) = settle draw (site i) (xs[i]'h) := by
  induction xs with
  | nil => intro _ _ i h; exact absurd h (by simp)
  | cons x xs ih =>
    intro draw site i h
    cases i with
    | zero => rfl
    | succ i => simpa [settleList] using ih draw (fun j => site (j + 1)) i (by simpa using h)

/-- Values without a NaN are stored as they are. -/
theorem settleList_of_not_nan (xs : List F64) : ∀ (draw : Nat) (site : Nat → Site), (∀ x ∈ xs, f64IsNaN x = false) →
    settleList draw site xs = xs := by
  induction xs with
  | nil => intros; rfl
  | cons x xs ih =>
    intro draw site h
    rw [settleList, settle_of_not_nan _ _ (h x (by simp)), ih _ _ (fun y hy => h y (by simp [hy]))]

@[simp] theorem unspecifiedList_length (draw : Nat) (site : Nat → Site) (n : Nat) : (unspecifiedList draw site n).length = n := by
  simp [unspecifiedList]

/-- Word `k` of a stored run of values reads as its settled value. -/
theorem readWord_storeValues (s : State) (a : Nat) (xs : List F64) (k : Nat) (hk : k < xs.length) :
    readWord (storeValues s a xs) (a + 8 * k) = settle s.draws (.bufferWord (a + 8 * k)) (xs[k]'hk) := by
  apply readWord_of_bytes
  intro i hi
  have h := memGet_memSetWords_inside (settleList s.draws (fun j => .bufferWord (a + 8 * j)) xs) s.mem a k i
    (by simpa using hk) hi
  rw [settleList_getElem xs s.draws _ k hk] at h
  simpa using h

/-- Outside a stored run every byte reads as before. -/
theorem readByte_storeValues (s : State) (a : Nat) (xs : List F64) (x : Nat) (h : x < a ∨ a + 8 * xs.length ≤ x) :
    readByte (storeValues s a xs) x = readByte s x := by
  apply readByte_congr
  · rw [storeValues_mem, memGet_memSetWords_outside]; simpa using h
  · rfl

/-! ### Lengths along the signal paths -/

@[simp] theorem iqBlock_length (s : State) (n : Nat) : (iqBlock s n).length = n := by simp [iqBlock]
@[simp] theorem envBlock_length (s : State) (n : Nat) : (envBlock s n).length = n := by simp [envBlock]
@[simp] theorem padBlock_length (s : State) (n : Nat) : (padBlock s n).length = n := by simp [padBlock]
@[simp] theorem windowed_length (c : Numerics) (x : List Cplx) : (windowed c x).length = x.length := by simp [windowed]
@[simp] theorem spectralFrame_length (c : Numerics) (x : List Cplx) : (spectralFrame c x).length = x.length := by
  simp [spectralFrame]

@[simp] theorem phaseDiffs_length (ps : List F64) : ∀ p, (phaseDiffs p ps).length = ps.length := by
  induction ps with
  | nil => intro; rfl
  | cons q qs ih => intro p; simp [phaseDiffs, ih]

@[simp] theorem unwrapFrom_length (ds : List F64) : ∀ p c, (unwrapFrom p c ds).length = ds.length := by
  induction ds with
  | nil => intros; rfl
  | cons d ds ih => intro p c; simp [unwrapFrom, ih]

@[simp] theorem unwrap_length (ds : List F64) : (unwrap ds).length = ds.length := by
  cases ds <;> simp [unwrap]

@[simp] theorem envelope_length (c : Numerics) (x : List Cplx) : (envelope c x).length = x.length := by simp [envelope]

/-- The core transform gives one value per sample. -/
@[simp] theorem coreTransform_length (c : Numerics) (dm : Demod) (x : List Cplx) : (coreTransform c dm x).length = x.length := by
  unfold coreTransform
  split <;> simp [coreFm, coreAm, phases]

theorem delayUpdate_length (x y : F64) (z : List F64) : ∀ (b a : List F64), b.length = z.length + 1 → a.length = z.length + 1 →
    (delayUpdate x y b a z).length = z.length + 1 := by
  induction z with
  | nil =>
    intro b a hb ha
    match b, a, hb, ha with
    | b :: bs, a :: as, _, _ => rfl
  | cons z zs ih =>
    intro b a hb ha
    match b, a, hb, ha with
    | b :: bs, a :: as, hb, ha =>
      simp only [List.length_cons, Nat.add_right_cancel_iff] at hb ha
      simp [delayUpdate, ih bs as hb ha]

/-- A filter step keeps the length of the delay line. -/
theorem filterStep_length {b a z : List F64} (x : F64) (hz : 1 ≤ z.length) (hb : b.length = z.length + 1)
    (ha : a.length = z.length + 1) : (filterStep b a z x).2.length = z.length := by
  match z, hz with
  | z :: zs, _ =>
    simp only [filterStep, List.tail_cons, List.length_cons] at *
    exact delayUpdate_length _ _ _ _ _ (by simp [hb]) (by simp [ha])

/-- A filter gives one output per input. -/
@[simp] theorem filterRun_length (b a xs : List F64) : ∀ z, (filterRun b a z xs).1.length = xs.length := by
  induction xs with
  | nil => intro; rfl
  | cons x xs ih => intro z; simp [filterRun, ih]

/-- A filter keeps the length of its delay line. -/
theorem filterRun_delay_length {b a : List F64} (xs : List F64) : ∀ z : List F64, 1 ≤ z.length → b.length = z.length + 1 →
    a.length = z.length + 1 → (filterRun b a z xs).2.length = z.length := by
  induction xs with
  | nil => intros; rfl
  | cons x xs ih =>
    intro z hz hb ha
    have h := filterStep_length x hz hb ha
    simp only [filterRun]
    rw [ih _ (by omega) (by omega) (by omega), h]

/-- Decimation never yields more samples than it reads (20_memory.md R86). -/
theorem decimate_length_le (d : Nat) (xs : List F64) : ∀ p, (decimate d p xs).1.length ≤ xs.length := by
  induction xs with
  | nil => intro; simp [decimate]
  | cons x xs ih =>
    intro p
    have h := ih ((p + 1) % d)
    simp only [decimate]
    split <;> simp <;> omega

/-- The decimation phase stays below the ratio. -/
theorem decimate_phase_lt (d : Nat) (xs : List F64) (hd : 0 < d) : ∀ p, p < d → (decimate d p xs).2 < d := by
  induction xs with
  | nil => intro p h; exact h
  | cons x xs ih => intro p _; exact ih _ (Nat.mod_lt _ hd)

@[simp] theorem deemphasis_length (alpha : F64) (us : List F64) : ∀ y, (deemphasis alpha y us).length = us.length := by
  induction us with
  | nil => intro; rfl
  | cons u us ih => intro y; simp [deemphasis, ih]

@[simp] theorem postFilter_length (draw : Nat) (dm : Demod) (u : List F64) : (postFilter draw dm u).1.length = u.length := by
  unfold postFilter
  split <;> simp [postDeemphasis, postIir]

@[simp] theorem normalise_length (y : List F64) : (normalise y).length = y.length := by
  simp only [normalise]; split <;> simp

@[simp] theorem normFor_length (m : Mode) (y : List F64) : (normFor m y).length = y.length := by
  cases m <;> simp [normFor]

@[simp] theorem antiAlias_length (draw : Nat) (dm : Demod) (x : List F64) : (antiAlias draw dm x).1.length = x.length := by
  simp only [antiAlias]; split <;> simp

/-- An audio block is no longer than the IQ block (42_demod.md R180). -/
theorem demodBlock_length_le (c : Numerics) (draw : Nat) (dm : Demod) (x : List Cplx) :
    (demodBlock c draw dm x).1.length ≤ x.length := by
  have h := decimate_length_le dm.decim.toNat (antiAlias draw dm (coreTransform c dm x)).1 dm.decPhase.toNat
  simp at h
  simpa [demodBlock] using h

/-- The configuration of the demodulator passes through a block (10_state.md R62). -/
theorem demodBlock_config (c : Numerics) (draw : Nat) (dm : Demod) (x : List Cplx) :
    let d := (demodBlock c draw dm x).2
    d.valid = dm.valid ∧ d.mode = dm.mode ∧ d.fs = dm.fs ∧ d.fa = dm.fa ∧ d.decim = dm.decim ∧ d.kfm = dm.kfm ∧
    d.alpha = dm.alpha ∧ d.aaB = dm.aaB ∧ d.aaA = dm.aaA ∧ d.pfB = dm.pfB ∧ d.pfA = dm.pfA :=
  ⟨rfl, rfl, rfl, rfl, rfl, rfl, rfl, rfl, rfl, rfl, rfl⟩

@[simp] theorem polyStep_length (r : Cplx) (cs : List Cplx) : ∀ c, (polyStep r c cs).length = cs.length + 1 := by
  induction cs with
  | nil => intro; rfl
  | cons d ds ih => intro c; simp [polyStep, ih]

/-- A polynomial has one coefficient more than roots. -/
theorem polyOfRoots_length (rs : List Cplx) : (polyOfRoots rs).length = rs.length + 1 := by
  have h : ∀ (rs cs : List Cplx), cs ≠ [] →
      (rs.foldl (fun cs r => match cs with | [] => [] | c :: rest => c :: polyStep r c rest) cs).length
        = cs.length + rs.length := by
    intro rs
    induction rs with
    | nil => intro cs _; simp
    | cons r rs ih =>
      intro cs hc
      match cs, hc with
      | c :: rest, _ =>
        rw [List.foldl_cons, ih _ (by simp)]
        simp; omega
  exact (h rs _ (by simp)).trans (by simp; omega)

/-- A low-pass design of order `n` has `n + 1` coefficients of each kind. -/
theorem numButterLp_length (c : Numerics) (n : Nat) (w : F64) :
    (numButterLp c n w).1.length = n + 1 ∧ (numButterLp c n w).2.length = n + 1 := by
  cases c <;> simp [numButterLp, refButterLp, otherCoeffs, polyOfRoots_length, protoPoles]

/-- A band-pass design of prototype order `n` has `2n + 1` coefficients of each kind. -/
theorem numButterBp_length (c : Numerics) (n : Nat) (lo hi : F64) :
    (numButterBp c n lo hi).1.length = 2 * n + 1 ∧ (numButterBp c n lo hi).2.length = 2 * n + 1 := by
  cases c <;> simp [numButterBp, refButterBp, otherCoeffs, polyOfRoots_length, protoPoles]; omega

/-! ### The Morse decoder -/

@[simp] theorem feedAppend_mem (y : Symbol) (f : Feed) : (feedAppend y f).mem = f.mem := by unfold feedAppend; split <;> rfl
@[simp] theorem feedAppend_inc (y : Symbol) (f : Feed) : (feedAppend y f).inc = f.inc := by unfold feedAppend; split <;> rfl
@[simp] theorem feedAppend_text (y : Symbol) (f : Feed) : (feedAppend y f).mc.text = f.mc.text := by
  unfold feedAppend; split <;> rfl

/-- The pending code never grows beyond its capacity (43_morse.md R232). -/
theorem feedAppend_code_le (y : Symbol) (f : Feed) (h : f.mc.code.length ≤ Config.pendingCap) :
    (feedAppend y f).mc.code.length ≤ Config.pendingCap := by
  unfold feedAppend
  split
  · simp; omega
  · exact h

@[simp] theorem feedEmit_inc (cap : Nat) (c : Byte) (f : Feed) : (feedEmit cap c f).inc = f.inc ++ [c] := by
  unfold feedEmit; split <;> rfl

@[simp] theorem feedEmit_code (cap : Nat) (c : Byte) (f : Feed) : (feedEmit cap c f).mc.code = f.mc.code := by
  unfold feedEmit; split <;> rfl

theorem feedEmit_text_le (cap : Nat) (c : Byte) (f : Feed) (h : f.mc.text.length ≤ cap) :
    (feedEmit cap c f).mc.text.length ≤ cap := by
  unfold feedEmit
  split
  · simp; omega
  · exact h

end Sys2Proof.Machine
end

