-- ==== Sys2Proof/Laws/Effects.lean ====
section
/-! SUPPORT. What each command does, once: when its checks pass, what a core step can answer, which fields its effects leave alone,
    and which bytes they may change. -/

namespace Sys2Proof.Machine

/-! ### Checks -/

/-- A failing check is reported. -/
theorem firstError_true (e cs) : firstError ((true, e) :: cs) = some e := rfl

/-- A passing check is passed over. -/
theorem firstError_false (e cs) : firstError ((false, e) :: cs) = firstError cs := rfl

/-- 40_spectrum.md R130. -/
theorem badFftSize_iff (s : State) : badFftSize s = true ↔ (fftLength s = 0 ∨ s.params.fftMax < fftLength s) := by
  simp [badFftSize]

/-- 40_spectrum.md R130. -/
theorem badFftSize_eq_false (s : State) : badFftSize s = false ↔ FftLegal s := by
  simp [badFftSize, FftLegal]; omega

/-- The length check. -/
theorem iqTooLong_iff (s : State) : iqTooLong s = true ↔ s.params.blockMax < iqLength s := by simp [iqTooLong]

/-- The length check of the envelope. -/
theorem envTooLong_iff (s : State) : envTooLong s = true ↔ s.params.blockMax < envLength s := by simp [envTooLong]

/-- 00_scope.md R17. -/
theorem iqNonfinite_iff (s : State) : iqNonfinite s = true ↔ ∃ n < iqLength s, f64IsFinite (iqSample s n).1 = false ∨
    f64IsFinite (iqSample s n).2 = false := by
  simp [iqNonfinite, iqBlock, cFinite]
  constructor
  · rintro ⟨n, h1, h2⟩; exact ⟨n, h1, by cases h : f64IsFinite (iqSample s n).1 <;> simp_all⟩
  · rintro ⟨n, h1, h2⟩; exact ⟨n, h1, by rcases h2 with h | h <;> simp_all⟩

/-- 43_morse.md R224. -/
theorem envNonfinite_iff (s : State) : envNonfinite s = true ↔ ∃ n < envLength s, f64IsFinite (envSample s n) = false := by
  simp [envNonfinite, envBlock]

/-- 41_squelch.md R151. -/
theorem badSquelchConfig_eq_false (s : State) : badSquelchConfig s = false ↔ SquelchLegal s := by
  simp [badSquelchConfig, SquelchLegal, f64NegHundred, and_assoc]

/-- The two checks on an IQ block. -/
theorem iqUsable_iff (s : State) : IqUsable s ↔ iqTooLong s = false ∧ iqNonfinite s = false := by
  have h1 : iqTooLong s = false ↔ iqLength s ≤ s.params.blockMax := by simp [iqTooLong]
  have h2 : iqNonfinite s = false ↔ ∀ n < iqLength s, f64IsFinite (iqSample s n).1 = true ∧ f64IsFinite (iqSample s n).2 = true := by
    simp [iqNonfinite, iqBlock, cFinite]
  rw [h1, h2]; rfl

/-- The two checks on an envelope block. -/
theorem envUsable_iff (s : State) : EnvUsable s ↔ envTooLong s = false ∧ envNonfinite s = false := by
  have h1 : envTooLong s = false ↔ envLength s ≤ s.params.blockMax := by simp [envTooLong]
  have h2 : envNonfinite s = false ↔ ∀ n < envLength s, f64IsFinite (envSample s n) = true := by
    simp [envNonfinite, envBlock]
  rw [h1, h2]; rfl

/-- An empty block is usable. -/
theorem iqUsable_of_empty {s : State} (h : iqLength s = 0) : IqUsable s := ⟨by omega, by intro n hn; omega⟩

/-- A command whose checks pass has its effects and completes. -/
theorem exec_of_checks {i : Instr} {s : State} (h : firstError (checksOf i s) = none) : exec i s =
    .next (complete i.opcode .ok (effectOf i s)) := by
  rw [exec_eq, runCommand_ok _ _ _ h]

/-- The code a command reports. -/
theorem exec_err (i : Instr) (s : State) : ∃ t, exec i s = .next t ∧ t.status.err = errByte ((firstError (checksOf i s)).getD .ok) := by
  refine ⟨_, exec_eq i s, ?_⟩
  rcases runCommand_cases i.opcode (checksOf i s) (effectOf i) s with ⟨e, h1, _, h⟩ | ⟨h1, h⟩ <;> rw [h, h1] <;> rfl

/-- A command that reports no error had its effects. -/
theorem exec_of_err_zero {i : Instr} {s t : State} (h : exec i s = .next t) (h0 : t.status.err = 0) :
    firstError (checksOf i s) = none ∧ t = complete i.opcode .ok (effectOf i s) := by
  rcases exec_cases h with ⟨e, _, h2, rfl⟩ | h
  · exact absurd h0 (errByte_ne_zero (checksOf_ne_ok h2))
  · exact h

/-- Every check of a command that raises nothing passes. -/
theorem checks_pass {i s} (h : firstError (checksOf i s) = none) : ∀ c ∈ checksOf i s, c.1 = false := (firstError_eq_none _).mp h

/-- When `ANALYZE` raises nothing. -/
theorem analyze_checks {s : State} (h1 : FftLegal s) (h2 : IqUsable s) : firstError (checksOf .analyze s) = none := by
  obtain ⟨a, b⟩ := (iqUsable_iff s).mp h2
  simp [checksOf, analyzeChecks, (badFftSize_eq_false s).mpr h1, a, b, firstError]

/-- When `SQ_EVALUATE` raises nothing. -/
theorem squelch_checks {s : State} (h1 : SquelchLegal s) (h2 : IqUsable s) : firstError (checksOf .sqEvaluate s) = none := by
  obtain ⟨a, b⟩ := (iqUsable_iff s).mp h2
  simp [checksOf, squelchChecks, (badSquelchConfig_eq_false s).mpr h1, a, b, firstError]

/-- When `DEMODULATE` raises nothing. -/
theorem demodulate_checks {s : State} (h1 : s.dm.valid = true) (h2 : IqUsable s) : firstError (checksOf .demodulate s) = none := by
  obtain ⟨a, b⟩ := (iqUsable_iff s).mp h2
  simp [checksOf, demodulateChecks, h1, a, b, firstError]

/-- When `MORSE_FEED` raises nothing. -/
theorem feed_checks {s : State} (h1 : s.mc.valid = true) (h2 : EnvUsable s) : firstError (checksOf .morseFeed s) = none := by
  obtain ⟨a, b⟩ := (envUsable_iff s).mp h2
  simp [checksOf, morseFeedChecks, h1, a, b, firstError]

/-! ### A core step -/

/-- No effect touches the parameters, the host side or the power-on count. -/
theorem effectOf_surroundings (i : Instr) (s : State) : SameSurroundings s (effectOf i s) := by
  have hf : ∀ s, SameSurroundings s (feedEffect s) := by
    intro s; unfold feedEffect; split <;> exact ⟨rfl, rfl, rfl, rfl, rfl⟩
  have ha : ∀ s, SameSurroundings s (analyzeEffect s) := by
    intro s; unfold analyzeEffect; split <;> exact ⟨rfl, rfl, rfl, rfl, rfl⟩
  have hq : ∀ s, SameSurroundings s (squelchEffect s) := by
    intro s; unfold squelchEffect; split <;> exact ⟨rfl, rfl, rfl, rfl, rfl⟩
  have hd : ∀ s, SameSurroundings s (demodulateEffect s) := by
    intro s; unfold demodulateEffect; split
    · exact ⟨rfl, rfl, rfl, rfl, rfl⟩
    · simp [SameSurroundings]
  have tr : ∀ s t u, SameSurroundings s t → SameSurroundings t u → SameSurroundings s u := by
    rintro s t u ⟨h1, h2, h3, h4, h5⟩ ⟨g1, g2, g3, g4, g5⟩
    exact ⟨g1.trans h1, g2.trans h2, g3.trans h3, g4.trans h4, g5.trans h5⟩
  cases i with
  | analyze => exact ha s
  | sqEvaluate => exact hq s
  | demodulate => exact hd s
  | morseFeed => exact hf s
  | demodInit => 
    simp only [effectOf, demodInitEffect]; split <;> exact ⟨rfl, rfl, rfl, rfl, rfl⟩
  | processBlock =>
    simp only [effectOf, processEffect]
    refine tr _ _ _ (tr _ _ _ (ha s) (hq _)) ?_
    split
    · unfold processAudio
      refine tr _ _ _ (hd _) ?_
      split
      · exact hf _
      · exact ⟨rfl, rfl, rfl, rfl, rfl⟩
    · exact ⟨rfl, rfl, rfl, rfl, rfl⟩
  | _ => exact ⟨rfl, rfl, rfl, rfl, rfl⟩

/-- What a core step with a pending word can answer. -/
theorem coreStep_cases (s : State) (w : Word) (hw : s.cmd = some w) :
    (∃ e, decode w = .error e ∧ coreStep s = .next (complete (w.extractLsb' 0 8) .illegalCmd s)) ∨
    (∃ i, decode w = .ok i ∧ i.opcode = w.extractLsb' 0 8 ∧ coreStep s = .next (runCommand i.opcode (checksOf i s) (effectOf i) s)) := by
  cases hd : decode w with
  | error e => left; exact ⟨e, rfl, by simp [coreStep, fetchWord, hw, hd, rejectWord, raise, cmdOp]⟩
  | ok i => right; exact ⟨i, rfl, ((decode_eq_ok w i).mp hd).2, by simp [coreStep, fetchWord, hw, hd, exec_eq]⟩

/-! ### Fields -/

/-- `ANALYZE` writes the frame and its tags only. -/
theorem analyze_fields (s : State) : (analyzeEffect s).status = s.status ∧ (analyzeEffect s).dm = s.dm ∧ (analyzeEffect s).sq = s.sq ∧
    (analyzeEffect s).mc = s.mc ∧ (analyzeEffect s).cmd = s.cmd ∧ (analyzeEffect s).csr.iqLen = s.csr.iqLen ∧
        (analyzeEffect s).csr.envLen = s.csr.envLen ∧ (analyzeEffect s).csr.sqEn = s.csr.sqEn := by
  unfold analyzeEffect; split <;> exact ⟨rfl, rfl, rfl, rfl, rfl, rfl, rfl, rfl⟩

/-- `SQ_EVALUATE` writes the squelch state only. -/
theorem squelch_fields (s : State) : (squelchEffect s).status = s.status ∧ (squelchEffect s).dm = s.dm ∧ (squelchEffect s).mem =
    s.mem ∧ (squelchEffect s).mc = s.mc ∧ (squelchEffect s).cmd = s.cmd ∧ (squelchEffect s).csr = s.csr := by
  unfold squelchEffect; split <;> exact ⟨rfl, rfl, rfl, rfl, rfl, rfl⟩

/-- `DEMODULATE` writes the demodulator, its buffers and its lengths only. -/
theorem demodulate_fields (s : State) : (demodulateEffect s).status = s.status ∧ (demodulateEffect s).sq = s.sq ∧
    (demodulateEffect s).mc = s.mc ∧ (demodulateEffect s).cmd = s.cmd := by
  unfold demodulateEffect; split
  · exact ⟨rfl, rfl, rfl, rfl⟩
  · simp

/-- The configuration fields of two demodulators are equal (10_state.md R62). -/
def SameConfig (d e : Demod) : Prop := e.valid = d.valid ∧ e.mode = d.mode ∧ e.fs = d.fs ∧ e.fa = d.fa ∧ e.decim = d.decim ∧ e.kfm =
    d.kfm ∧
    e.alpha = d.alpha ∧ e.aaB = d.aaB ∧ e.aaA = d.aaA ∧ e.pfB = d.pfB ∧ e.pfA = d.pfA

/-- `DEMODULATE` keeps the configuration. -/
theorem demodulate_cfg (s : State) : SameConfig s.dm (demodulateEffect s).dm := by
  unfold demodulateEffect; split
  · exact ⟨rfl, rfl, rfl, rfl, rfl, rfl, rfl, rfl, rfl, rfl, rfl⟩
  · exact ⟨rfl, rfl, rfl, rfl, rfl, rfl, rfl, rfl, rfl, rfl, rfl⟩

-- feeds

/-- What a feed keeps of the decoder. -/
structure FeedKeeps (f g : Feed) : Prop where
  valid : g.mc.valid = f.mc.valid
  dot : g.mc.dot = f.mc.dot
  thr : g.mc.thr = f.mc.thr
  rate : g.mc.rate = f.mc.rate
  ovf : f.textOvf = true → g.textOvf = true

theorem FeedKeeps.refl (f : Feed) : FeedKeeps f f := ⟨rfl, rfl, rfl, rfl, id⟩

theorem FeedKeeps.trans {f g h : Feed} (a : FeedKeeps f g) (b : FeedKeeps g h) : FeedKeeps f h :=
  ⟨b.valid.trans a.valid, b.dot.trans a.dot, b.thr.trans a.thr, b.rate.trans a.rate, fun x => b.ovf (a.ovf x)⟩

theorem FeedKeeps.append (y f) : FeedKeeps f (feedAppend y f) := by unfold feedAppend; split <;> exact ⟨rfl, rfl, rfl, rfl, id⟩

theorem FeedKeeps.emit (cap c f) : FeedKeeps f (feedEmit cap c f) := by
  unfold feedEmit; split
  · exact ⟨rfl, rfl, rfl, rfl, id⟩
  · exact ⟨rfl, rfl, rfl, rfl, fun _ => rfl⟩

theorem FeedKeeps.finalise (cap sp f) : FeedKeeps f (feedFinalise cap sp f) := by
  unfold feedFinalise
  by_cases h : f.mc.code = []
  · simp only [h, if_true]; exact ⟨rfl, rfl, rfl, rfl, id⟩
  · simp only [h, if_false]
    have h1 := FeedKeeps.emit cap (morseChar f.mc.code) f
    cases sp
    · exact FeedKeeps.trans h1 ⟨rfl, rfl, rfl, rfl, id⟩
    · exact FeedKeeps.trans (h1.trans (FeedKeeps.emit cap 0x20 _)) ⟨rfl, rfl, rfl, rfl, id⟩

theorem FeedKeeps.tone (f) : FeedKeeps f (leaveTone f) := by
  unfold leaveTone; split
  · exact FeedKeeps.append _ _
  · split
    · exact FeedKeeps.append _ _
    · exact .refl f

theorem FeedKeeps.gap (cap f) : FeedKeeps f (leaveGap cap f) := by
  unfold leaveGap; split
  · exact FeedKeeps.finalise _ _ _
  · split
    · exact FeedKeeps.finalise _ _ _
    · exact .refl f

theorem FeedKeeps.transition (cap cur f) : FeedKeeps f (feedTransition cap cur f) := by
  unfold feedTransition; split
  · exact .refl f
  · have : FeedKeeps f (if f.mc.last then leaveTone f else leaveGap cap f) := by
      split
      · exact FeedKeeps.tone f
      · exact FeedKeeps.gap cap f
    exact this.trans ⟨rfl, rfl, rfl, rfl, id⟩

theorem FeedKeeps.block (cap draw env f) : FeedKeeps f (feedBlock cap draw env f) :=
  (FeedKeeps.transition cap _ f).trans ⟨rfl, rfl, rfl, rfl, id⟩

/-- `MORSE_FEED` writes the Morse state only. -/
theorem feed_fields (s : State) : (feedEffect s).dm = s.dm ∧ (feedEffect s).sq = s.sq ∧ (feedEffect s).cmd = s.cmd ∧
    (feedEffect s).mc.valid = s.mc.valid ∧
    (feedEffect s).status.cmdOvr = s.status.cmdOvr ∧ (feedEffect s).status.wrDrop = s.status.wrDrop ∧ (s.status.textOvf = true →
        (feedEffect s).status.textOvf = true) := by
  unfold feedEffect; split
  · exact ⟨rfl, rfl, rfl, rfl, rfl, rfl, id⟩
  · have h := FeedKeeps.block s.params.textCap s.draws (envBlock s (envLength s)) (feedOf s)
    exact ⟨rfl, rfl, rfl, h.valid, rfl, rfl, h.ovf⟩

/-- The three ways of `PROCESS_BLOCK` after its checks (44_control.md R255, R256). -/
theorem process_cases (s : State) : 
    let t := squelchEffect (analyzeEffect s)
    ((t.dm.valid && t.sq.isOpenOut) = true ∧ t.dm.mode = .cw ∧ processEffect s = feedEffect (demodulateEffect t)) ∨
    ((t.dm.valid && t.sq.isOpenOut) = true ∧ t.dm.mode ≠ .cw ∧ processEffect s = { demodulateEffect t with csr :=
        { (demodulateEffect t).csr with textInc := 0 } }) ∨
    ((t.dm.valid && t.sq.isOpenOut) = false ∧ processEffect s = noAudio t) := by
  intro t
  cases h : (t.dm.valid && t.sq.isOpenOut)
  · right; right; refine ⟨rfl, ?_⟩; unfold processEffect; simp only [t] at h; simp [h, t]
  · by_cases hm : t.dm.mode = .cw
    · left; refine ⟨rfl, hm, ?_⟩; unfold processEffect processAudio; simp only [t] at h hm; simp only [h, hm]; rfl
    · right; left; refine ⟨rfl, hm, ?_⟩; unfold processEffect processAudio; simp only [t] at h hm; simp only [h, if_true, if_neg hm]; rfl

/-- What the first two units of `PROCESS_BLOCK` leave alone. -/
theorem pre_fields (s : State) : (squelchEffect (analyzeEffect s)).status = s.status ∧ (squelchEffect (analyzeEffect s)).dm = s.dm ∧
    (squelchEffect (analyzeEffect s)).mc = s.mc ∧ (squelchEffect (analyzeEffect s)).cmd = s.cmd := by
  have a := analyze_fields s
  have b := squelch_fields (analyzeEffect s)
  exact ⟨b.1.trans a.1, b.2.1.trans a.2.1, b.2.2.2.1.trans a.2.2.2.1, b.2.2.2.2.1.trans a.2.2.2.2.1⟩

/-- What `PROCESS_BLOCK` keeps. -/
theorem process_fields (s : State) : (processEffect s).status.cmdOvr = s.status.cmdOvr ∧ (processEffect s).status.wrDrop =
    s.status.wrDrop ∧ (processEffect s).mc.valid = s.mc.valid ∧ (s.status.textOvf = true → (processEffect s).status.textOvf = true) ∧
        SameConfig s.dm (processEffect s).dm := by
  obtain ⟨h1, h2, h3, h4⟩ := pre_fields s
  have hd := demodulate_fields (squelchEffect (analyzeEffect s))
  have hc := demodulate_cfg (squelchEffect (analyzeEffect s))
  have hf := feed_fields (demodulateEffect (squelchEffect (analyzeEffect s)))
  rw [h2] at hc
  rcases process_cases s with ⟨_, _, h⟩ | ⟨_, _, h⟩ | ⟨_, h⟩ <;> rw [h]
  · refine ⟨?_, ?_, ?_, ?_, ?_⟩
    · rw [hf.2.2.2.2.1, hd.1, h1]
    · rw [hf.2.2.2.2.2.1, hd.1, h1]
    · rw [hf.2.2.2.1, hd.2.2.1, h3]
    · intro hs; apply hf.2.2.2.2.2.2; rw [hd.1, h1]; exact hs
    · rw [hf.1]; exact hc
  · refine ⟨?_, ?_, ?_, ?_, ?_⟩ <;> simp [hd.1, h1, hd.2.2.1, h3]
    exact hc
  · refine ⟨?_, ?_, ?_, ?_, ?_⟩ <;> simp [h1, h2, h3]
    exact ⟨rfl, rfl, rfl, rfl, rfl, rfl, rfl, rfl, rfl, rfl, rfl⟩

/-! ### Bytes -/

/-- The bytes `ANALYZE` leaves alone. -/
theorem analyze_bytes (s : State) (a : Nat) (h : a < 0x200000 ∨ 0x200000 + 8 * fftLength s ≤ a) : readByte (analyzeEffect s) a =
    readByte s a := by
  unfold analyzeEffect; split
  · rfl
  · show readByte (storeValues (tagFrame s) (specAddr 0) _) a = _
    rw [readByte_storeValues]
    · rfl
    · simpa [specAddr, regionBase] using h

/-- `SQ_EVALUATE` writes no buffer. -/
theorem squelch_bytes (s : State) (a : Nat) : readByte (squelchEffect s) a = readByte s a := by
  unfold squelchEffect; split <;> rfl

/-- The bytes a stored envelope leaves alone. -/
theorem storeEnvelope_bytes (s : State) (x : List Cplx) (a : Nat) (h : s.dm.mode = .cw → a < 0x400000 ∨ 0x400000 + 8 * x.length ≤ a) :
    readByte (storeEnvelope s x) a = readByte s a := by
  unfold storeEnvelope
  split
  · rename_i hm
    show readByte (storeValues s (envAddr 0) _) a = _
    rw [readByte_storeValues]
    simpa [envAddr, regionBase] using h hm
  · rfl

/-- The bytes a stored audio block leaves alone. -/
theorem storeAudio_bytes (s : State) (r : List F64 × Demod) (a : Nat) (h : a < 0x300000 ∨ 0x300000 + 8 * r.1.length ≤ a) :
    readByte (storeAudio s r) a = readByte s a := by
  show readByte (storeValues s (audioAddr 0) r.1) a = _
  rw [readByte_storeValues]
  simpa [audioAddr, regionBase] using h

/-- The bytes `DEMODULATE` leaves alone. -/
theorem demodulate_bytes (s : State) (a : Nat) (h1 : a < 0x300000 ∨ 0x300000 + 8 * iqLength s ≤ a)
    (h2 : s.dm.mode = .cw → a < 0x400000 ∨ 0x400000 + 8 * iqLength s ≤ a) : readByte (demodulateEffect s) a = readByte s a := by
  unfold demodulateEffect; split
  · rfl
  · show readByte (storeAudio _ _) a = _
    have hl := demodBlock_length_le s.params.num s.draws s.dm (iqBlock s (iqLength s))
    rw [iqBlock_length] at hl
    rw [storeAudio_bytes _ _ _ (by omega), storeEnvelope_bytes]
    simpa using h2

/-- A feed leaves every byte outside `TEXTBUF` alone. -/
structure FeedMem (cap : Nat) (f g : Feed) : Prop where
  bytes : ∀ a, a < 0x500000 ∨ 0x500000 + cap ≤ a → memGet g.mem a = memGet f.mem a

theorem FeedMem.refl (cap f) : FeedMem cap f f := ⟨fun _ _ => rfl⟩

theorem FeedMem.trans {cap} {f g h : Feed} (a : FeedMem cap f g) (b : FeedMem cap g h) : FeedMem cap f h :=
  ⟨fun x hx => (b.bytes x hx).trans (a.bytes x hx)⟩

theorem FeedMem.emit (cap c f) : FeedMem cap f (feedEmit cap c f) := by
  unfold feedEmit; split
  · rename_i h
    exact ⟨fun a ha => by
      apply memGet_memSet_other
      simp [textAddr, regionBase]; omega⟩
  · exact ⟨fun _ _ => rfl⟩

theorem FeedMem.append (cap y f) : FeedMem cap f (feedAppend y f) := ⟨fun a _ => by simp⟩

theorem FeedMem.finalise (cap sp f) : FeedMem cap f (feedFinalise cap sp f) := by
  unfold feedFinalise
  by_cases h : f.mc.code = []
  · simp only [h, if_true]; exact ⟨fun _ _ => rfl⟩
  · simp only [h, if_false]
    have h1 := FeedMem.emit cap (morseChar f.mc.code) f
    cases sp
    · exact ⟨h1.bytes⟩
    · exact ⟨(h1.trans (FeedMem.emit cap 0x20 _)).bytes⟩

theorem FeedMem.block (cap draw env f) : FeedMem cap f (feedBlock cap draw env f) := by
  have : FeedMem cap f (feedTransition cap (f64Lt f.mc.thr (meanOf env)) f) := by
    unfold feedTransition; split
    · exact .refl _ f
    · have : FeedMem cap f (if f.mc.last then leaveTone f else leaveGap cap f) := by
        split
        · unfold leaveTone; split
          · exact FeedMem.append _ _ _
          · split
            · exact FeedMem.append _ _ _
            · exact .refl _ f
        · unfold leaveGap; split
          · exact FeedMem.finalise _ _ _
          · split
            · exact FeedMem.finalise _ _ _
            · exact .refl _ f
      exact ⟨this.bytes⟩
  exact ⟨this.bytes⟩

/-- The bytes `MORSE_FEED` leaves alone. -/
theorem feed_bytes (s : State) (a : Nat) (h : a < 0x500000 ∨ 0x500000 + s.params.textCap ≤ a) : readByte (feedEffect s) a =
    readByte s a := by
  unfold feedEffect; split
  · rfl
  · exact readByte_congr _ ((FeedMem.block s.params.textCap s.draws (envBlock s (envLength s)) (feedOf s)).bytes a h) rfl

/-! ### Completion and effects commute -/

/-- A completion leaves the IQ block. -/
theorem iqBlock_complete (q e) (s : State) (n : Nat) : iqBlock (complete q e s) n = iqBlock s n := rfl

/-- A completion leaves the envelope block. -/
theorem envBlock_complete (q e) (s : State) (n : Nat) : envBlock (complete q e s) n = envBlock s n := rfl

/-- The squelch effects ignore the completion fields. -/
theorem squelchEffect_complete (q) (s : State) : squelchEffect (complete q .ok s) = complete q .ok (squelchEffect s) := by
  unfold squelchEffect
  have h : iqLength (complete q .ok s) = iqLength s := rfl
  rw [h, iqBlock_complete]
  split <;> rfl

/-- A stored envelope ignores the completion fields. -/
theorem storeEnvelope_complete (q) (s : State) (x) : storeEnvelope (complete q .ok s) x = complete q .ok (storeEnvelope s x) := by
  unfold storeEnvelope
  have h : (complete q .ok s).dm = s.dm := rfl
  rw [h]
  split <;> rfl

/-- The demodulator effects ignore the completion fields. -/
theorem demodulateEffect_complete (q) (s : State) : demodulateEffect (complete q .ok s) = complete q .ok (demodulateEffect s) := by
  unfold demodulateEffect
  have h : iqLength (complete q .ok s) = iqLength s := rfl
  simp only [h, iqBlock_complete, storeEnvelope_complete]
  split <;> rfl

/-- The feed ignores the completion fields. -/
theorem feedEffect_complete (q) (s : State) : feedEffect (complete q .ok s) = complete q .ok (feedEffect s) := by
  unfold feedEffect
  have h : envLength (complete q .ok s) = envLength s := rfl
  rw [h, envBlock_complete]
  split <;> rfl

end Sys2Proof.Machine
end

