-- ==== Sys2Proof/Laws/Views.lean ====
section
/-! SUPPORT. The bits of the register views: one lemma per way a field is placed in a word. -/

namespace Sys2Proof.Machine

/-- The bits of a placed flag. -/
theorem flagBit_get (b : Bool) (i j : Nat) (hj : j < 64) : (flagBit b i).getLsbD j = (b && decide (i = j)) := by
  unfold flagBit
  cases b <;> simp
  · by_cases h : i = j
    · subst h; simp [hj]
    · simp [hj, h]; try omega

/-- The bits of a placed field. -/
theorem field_get {n : Nat} (v : BitVec n) (i j : Nat) (hj : j < 64) : (field v i).getLsbD j = (decide (i ≤ j) && v.getLsbD (j - i)) := by
  unfold field
  simp [hj]
  by_cases h : i ≤ j
  · simp [h]
  · simp [h]

/-- A field of `n` low bits is the word masked. -/
theorem setWidth_eq_mask (v : Word) (n : Nat) (m : Word) (hn : n ≤ 64) (hm : m.toNat = 2 ^ n - 1) : (v.setWidth n).setWidth 64 <<< 0 =
    v &&& m := by
  apply BitVec.eq_of_toNat_eq
  rw [BitVec.toNat_and, hm, Nat.and_two_pow_sub_one_eq_mod]
  simp [BitVec.toNat_setWidth]
  apply Nat.lt_of_lt_of_le (Nat.mod_lt _ (by positivity))
  exact Nat.pow_le_pow_right (by decide) hn

/-- The flag of bit 0 is the word masked. -/
theorem flagBit_bit0 (v : Word) : flagBit (v.getLsbD 0) 0 = v &&& 1 := by
  rw [← setWidth_eq_mask v 1 1 (by decide) rfl]
  apply BitVec.eq_of_toNat_eq
  have : v.getLsbD 0 = decide (v.toNat % 2 = 1) := by
    simp [BitVec.getLsbD, Nat.testBit_zero]
  unfold flagBit
  rw [this]
  rcases Nat.mod_two_eq_zero_or_one v.toNat with h | h <;> simp [h, BitVec.toNat_setWidth]

/-- The bits of a pending code. -/
theorem symbolBits_testBit (l : List Symbol) : ∀ i, (symbolBits l).testBit i = ((l[i]?) == some Symbol.dash) := by
  induction l with
  | nil => intro i; simp [symbolBits]
  | cons x xs ih =>
    intro i
    cases i with
    | zero => cases x <;> simp [symbolBits, Nat.testBit_zero, Nat.add_mod]
    | succ i =>
      rw [Nat.testBit_succ, List.getElem?_cons_succ, ← ih i]
      congr 1
      cases x <;> simp [symbolBits] ; omega

/-- Byte `i` of a word, little-endian. -/
theorem bytesOfWord_getElem (w : Word) (i : Nat) (h : i < 8) : (bytesOfWord w)[i]? = some (w.extractLsb' (8 * i) 8) := by
  have : ∀ n x k, k < n → (bytesOfNat n x)[k]? = some (BitVec.ofNat 8 (x / 256 ^ k)) := by
    intro n
    induction n with
    | zero => intro x k h; omega
    | succ n ih =>
      intro x k h
      cases k with
      | zero => simp [bytesOfNat]
      | succ k => 
        simp only [bytesOfNat, List.getElem?_cons_succ]
        rw [ih _ _ (by omega), Nat.div_div_eq_div_mul, Nat.pow_succ, Nat.mul_comm]
  rw [bytesOfWord, this 8 _ _ h]
  congr 1
  apply BitVec.eq_of_toNat_eq
  simp [BitVec.extractLsb'_toNat, Nat.shiftRight_eq_div_pow, Nat.pow_mul]

/-- The value of the increment word. -/
theorem textIncWord_toNat (out : List Byte) (h : out.length ≤ 2) : (textIncWord out).toNat =
    (out.getD 0 0).toNat + 2 ^ 8 * (out.getD 1 0).toNat + 2 ^ 16 * out.length := by
  have key : ∀ a b : Byte, ∀ n, n ≤ 2 → (field a 0 ||| field b 8 ||| field (BitVec.ofNat 2 n) 16).toNat =
      a.toNat + 2 ^ 8 * b.toNat + 2 ^ 16 * n := by
    intro a b n hn
    have e1 : (field a 0).toNat = a.toNat := by simp [field]; omega
    have e2 : (field b 8).toNat = 2 ^ 8 * b.toNat := by
      simp [field, BitVec.toNat_setWidth, Nat.shiftLeft_eq]; omega
    have e3 : (field (BitVec.ofNat 2 n) 16).toNat = 2 ^ 16 * n := by
      simp [field, BitVec.toNat_setWidth, Nat.shiftLeft_eq]; omega
    rw [BitVec.toNat_or, BitVec.toNat_or, e1, e2, e3]
    have h1 : a.toNat ||| 2 ^ 8 * b.toNat = a.toNat + 2 ^ 8 * b.toNat := by
      rw [Nat.lor_comm, Nat.two_pow_add_eq_or_of_lt (by have := a.isLt; omega) b.toNat |>.symm]; omega
    rw [h1, Nat.lor_comm, ← Nat.two_pow_add_eq_or_of_lt (by have := a.isLt; have := b.isLt; omega) n]; omega
  exact key _ _ _ h

end Sys2Proof.Machine
end

