-- ==== Sys2Proof/Laws/Signal.lean ====
section
/-! SUPPORT. The signal paths element by element: the filter delay line, the unwrap, the peak,
    the clip; and the Morse decoder in closed form. -/

namespace Sys2Proof.Machine

/-! ### Filters and FM -/

/-- A run over nothing. -/
@[simp] theorem filterRun_nil (b a z : List F64) : filterRun b a z [] = ([], z) := rfl

/-- A run steps on the first element and goes on from the delay line that this leaves (42_demod.md R176). -/
theorem filterRun_cons (b a z : List F64) (x : F64) (xs : List F64) : filterRun b a z (x :: xs) =
    ((filterStep b a z x).1 :: (filterRun b a (filterStep b a z x).2 xs).1, (filterRun b a (filterStep b a z x).2 xs).2) := rfl

/-- The differences element by element (42_demod.md R181). -/
theorem phaseDiffs_getD (ps : List F64) : ∀ (prev : F64) (n : Nat), n < ps.length →
    (phaseDiffs prev ps).getD n f64Zero = f64Sub (ps.getD n f64Zero) (if n = 0 then prev else ps.getD (n - 1) f64Zero) := by
  induction ps with
  | nil => intro _ n hn; simp at hn
  | cons p ps ih =>
    intro prev n hn
    cases n with
    | zero => rfl
    | succ n =>
      have := ih p n (by simpa using hn)
      simp only [phaseDiffs, List.getD_cons_succ, this]
      cases n <;> simp

/-- The de-emphasis element by element (42_demod.md R184). -/
theorem deemphasis_getD (alpha : F64) (us : List F64) : ∀ (y0 : F64) (n : Nat), n < us.length →
    (deemphasis alpha y0 us).getD n f64Zero = f64Add (f64Mul alpha (us.getD n f64Zero))
      (f64Mul (f64Sub f64One alpha) (if n = 0 then y0 else (deemphasis alpha y0 us).getD (n - 1) f64Zero)) := by
  induction us with
  | nil => intro _ n hn; simp at hn
  | cons u us ih =>
    intro y0 n hn
    cases n with
    | zero => rfl
    | succ n =>
      have := ih (f64Add (f64Mul alpha u) (f64Mul (f64Sub f64One alpha) y0)) n (by simpa using hn)
      simp only [deemphasis, List.getD_cons_succ, this]
      cases n <;> simp

/-- The elements of an updated delay line (42_demod.md R176). -/
theorem delayUpdate_getD (x y : F64) (z : List F64) : ∀ (b a : List F64), b.length = z.length + 1 → a.length = z.length + 1 →
    (∀ i, i < z.length → (delayUpdate x y b a z).getD i f64Zero =
        f64Sub (f64Add (f64Mul (b.getD i f64Zero) x) (z.getD i f64Zero)) (f64Mul (a.getD i f64Zero) y)) ∧
    (delayUpdate x y b a z).getD z.length f64Zero = f64Sub (f64Mul (b.getD z.length f64Zero) x) (f64Mul (a.getD z.length f64Zero) y) := by
  induction z with
  | nil =>
    intro b a hb ha
    match b, a, hb, ha with
    | b :: bs, a :: as, _, _ => exact ⟨fun i hi => absurd hi (by simp), rfl⟩
  | cons z zs ih =>
    intro b a hb ha
    match b, a, hb, ha with
    | b :: bs, a :: as, hb, ha =>
      simp only [List.length_cons, Nat.add_right_cancel_iff] at hb ha
      obtain ⟨h1, h2⟩ := ih bs as hb ha
      constructor
      · intro i hi
        cases i with
        | zero => rfl
        | succ i => exact h1 i (by simpa using hi)
      · exact h2

/-- The elements of an unwrapped sequence, given the running corrections (42_demod.md R182). -/
theorem unwrapFrom_get (ds : List F64) : ∀ (prev : F64) (c : F64) (cs : Nat → F64),
    (∀ n, n < ds.length → cs (n + 1) = f64Add (if n = 0 then c else cs n) (unwrapCorr (f64Sub (ds.getD n f64Zero) (if n =
        0 then prev else ds.getD (n - 1) f64Zero)))) →
    ∀ n, n < ds.length → (unwrapFrom prev c ds).getD n f64Zero = f64Add (ds.getD n f64Zero) (cs (n + 1)) := by
  induction ds with
  | nil => intro _ _ _ _ n hn; simp at hn
  | cons d ds ih =>
    intro prev c cs h n hn
    have h0 := h 0 (by simp)
    simp at h0
    cases n with
    | zero => simp [unwrapFrom, h0]
    | succ n =>
      have := ih d (f64Add c (unwrapCorr (f64Sub d prev))) (fun m => cs (m + 1)) (by
        intro m hm
        have := h (m + 1) (by simpa using hm)
        simp at this ⊢
        rw [this]
        cases m with
        | zero => simp [h0]
        | succ m => simp) n (by simpa using hn)
      simpa [unwrapFrom] using this

/-- A clipped sample lies in [-1, 1] or is a NaN (42_demod.md R185). -/
theorem clip_bounds (y : F64) : f64Lt (clip y) f64NegOne = false ∧ f64Lt f64One (clip y) = false := by
  unfold clip
  by_cases h1 : f64Lt y f64NegOne = true
  · rw [if_pos h1]; decide
  · rw [if_neg h1]
    by_cases h2 : f64Lt f64One y = true
    · rw [if_pos h2]; decide
    · rw [if_neg h2]; exact ⟨by simpa using h1, by simpa using h2⟩

/-! ### Magnitudes -/

/-- `abs` keeps the magnitude. -/
theorem f64Mag_abs (x : F64) : f64Mag (f64Abs x) = f64Mag x := by
  unfold f64Mag f64Abs
  have : (x &&& 0x7FFFFFFFFFFFFFFF#64).toNat = x.toNat % 2 ^ 63 := by
    rw [BitVec.toNat_and]
    exact Nat.and_two_pow_sub_one_eq_mod _ 63
  rw [this, Nat.mod_mod]

/-- `abs` clears the sign. -/
theorem f64Neg_abs (x : F64) : f64Neg (f64Abs x) = false := by
  unfold f64Neg f64Abs
  rw [BitVec.msb_and]; simp; intro _; decide

/-- The pattern of an absolute value. -/
theorem f64Abs_toNat (x : F64) : (f64Abs x).toNat = f64Mag x := by
  unfold f64Mag f64Abs
  rw [BitVec.toNat_and]
  exact Nat.and_two_pow_sub_one_eq_mod _ 63

/-- `abs` keeps a NaN. -/
theorem f64IsNaN_abs (x : F64) : f64IsNaN (f64Abs x) = f64IsNaN x := by simp [f64IsNaN, f64Mag_abs]

/-- A value that is no NaN and has no sign. -/
def AbsLike (x : F64) : Prop := f64Neg x = false ∧ f64IsNaN x = false

/-- Order of unsigned values is order of magnitudes. -/
theorem f64Lt_of_absLike {x y : F64} (hx : AbsLike x) (hy : AbsLike y) : f64Lt x y = decide (f64Mag x < f64Mag y) := by
  simp [f64Lt, hx.1, hx.2, hy.1, hy.2]

/-- Order of unsigned values is order of magnitudes. -/
theorem f64Le_of_absLike {x y : F64} (hx : AbsLike x) (hy : AbsLike y) : f64Le x y = decide (f64Mag x ≤ f64Mag y) := by
  simp [f64Le, f64Lt_of_absLike hy hx, hx.2, hy.2]
  by_cases h : f64Mag y < f64Mag x <;> simp [h] <;> omega

/-- The larger of two magnitudes. -/
theorem f64Max_spec {x y : F64} (hx : AbsLike x) (hy : AbsLike y) : AbsLike (f64Max x y) ∧ f64Mag x ≤ f64Mag (f64Max x y) ∧
    f64Mag y ≤ f64Mag (f64Max x y) ∧ (f64Max x y = x ∨ f64Max x y = y) := by
  unfold f64Max
  rw [f64Lt_of_absLike hx hy]
  by_cases h : f64Mag x < f64Mag y
  · simp [h]; exact ⟨hy, by omega⟩
  · simp [h]; exact ⟨hx, by omega⟩

/-- The largest of a list of magnitudes. -/
theorem foldl_f64Max_spec (l : List F64) : ∀ x, AbsLike x → (∀ v ∈ l, AbsLike v) →
    AbsLike (l.foldl f64Max x) ∧ f64Mag x ≤ f64Mag (l.foldl f64Max x) ∧ (∀ v ∈ l, f64Mag v ≤ f64Mag (l.foldl f64Max x)) ∧
        (l.foldl f64Max x = x ∨ l.foldl f64Max x ∈ l) := by
  induction l with
  | nil => intro x hx _; exact ⟨hx, Nat.le_refl _, by simp, .inl rfl⟩
  | cons v vs ih =>
    intro x hx hl
    obtain ⟨a, b, c, d⟩ := f64Max_spec hx (hl v (by simp))
    obtain ⟨e, f, g, h⟩ := ih (f64Max x v) a (fun w hw => hl w (by simp [hw]))
    refine ⟨e, Nat.le_trans b f, ?_, ?_⟩
    · intro w hw
      rcases List.mem_cons.mp hw with rfl | hw
      · exact Nat.le_trans c f
      · exact g w hw
    · rw [List.foldl_cons]
      rcases h with h | h
      · rcases d with d | d
        · left; rw [h, d]
        · right; rw [h, d]; simp
      · right; simp [h]

/-! ### Morse -/

/-- `APPEND` (43_morse.md R232). -/
theorem feedAppend_code (y : Symbol) (f : Feed) : (feedAppend y f).mc.code =
    if f.mc.code.length < 32 then f.mc.code ++ [y] else f.mc.code := by
  unfold feedAppend
  by_cases h : f.mc.code.length < Config.pendingCap
  · have h' : f.mc.code.length < 32 := h
    simp [h, h']
  · have h' : ¬ f.mc.code.length < 32 := h
    simp [h, h']

/-- `EMIT` (43_morse.md R233). -/
theorem feedEmit_eq (cap : Nat) (c : Byte) (f : Feed) : feedEmit cap c f = { f with
    inc := f.inc ++ [c], mem := (feedEmit cap c f).mem, mc := { f.mc with text := f.mc.text ++ [c].take (cap - f.mc.text.length) },
        textOvf := f.textOvf || decide (cap < f.mc.text.length + 1) } := by
  unfold feedEmit
  split
  · rename_i h
    have h2 : ∃ k, cap - f.mc.text.length = k + 1 := ⟨cap - f.mc.text.length - 1, by omega⟩
    obtain ⟨k, hk⟩ := h2
    have h3 : ¬ cap < f.mc.text.length + 1 := by omega
    simp [hk, h3]
  · have h2 : cap - f.mc.text.length = 0 := by omega
    have h3 : cap < f.mc.text.length + 1 := by omega
    simp [h2, h3]

/-- The bytes `EMIT` stores. -/
theorem feedEmit_mem (cap : Nat) (c : Byte) (f : Feed) : (feedEmit cap c f).mem =
    memSetBytes f.mem (textAddr f.mc.text.length) ([c].take (cap - f.mc.text.length)) := by
  unfold feedEmit
  split
  · rename_i h
    obtain ⟨k, hk⟩ : ∃ k, cap - f.mc.text.length = k + 1 := ⟨cap - f.mc.text.length - 1, by omega⟩
    rw [hk]; simp [memSetBytes]
  · rename_i h
    have h2 : cap - f.mc.text.length = 0 := by omega
    rw [h2]; rfl

/-- Storing two runs in turn. -/
theorem memSetBytes_append (m : Memory) (a : Nat) (xs ys : List Byte) : memSetBytes m a (xs ++ ys) =
    memSetBytes (memSetBytes m a xs) (a + xs.length) ys := by
  induction xs generalizing m a with
  | nil => rfl
  | cons x xs ih => simp only [List.cons_append, memSetBytes, ih, List.length_cons]; congr 1; omega

/-- `FINALISE` of a pending code (43_morse.md R230). -/
theorem feedFinalise_eq (cap : Nat) (sp : Bool) (f : Feed) (h : f.mc.code ≠ []) :
    let out := if sp then [morseChar f.mc.code, 0x20] else [morseChar f.mc.code]
    feedFinalise cap sp f = { f with
      inc := f.inc ++ out
      mem := memSetBytes f.mem (textAddr f.mc.text.length) (out.take (cap - f.mc.text.length))
      mc := { f.mc with text := f.mc.text ++ out.take (cap - f.mc.text.length), code := [] }
      textOvf := f.textOvf || decide (cap < f.mc.text.length + out.length) } := by
  intro out
  simp only [feedFinalise, if_neg h]
  cases sp with
  | false =>
    simp only [out, if_neg (show ¬ (false = true) by decide)]
    rw [feedEmit_eq, feedEmit_mem]; simp
  | true =>
    simp only [out, if_true]
    rw [feedEmit_eq cap 0x20, feedEmit_mem cap 0x20]
    have e := feedEmit_eq cap (morseChar f.mc.code) f
    have e2 := feedEmit_mem cap (morseChar f.mc.code) f
    generalize hg : feedEmit cap (morseChar f.mc.code) f = g at *
    rw [e, e2]
    by_cases h1 : cap ≤ f.mc.text.length
    · have z : cap - f.mc.text.length = 0 := by omega
      have z2 : cap < f.mc.text.length + 1 := by omega
      have z3 : cap < f.mc.text.length + 1 + 1 := by omega
      simp [z, z2, z3, memSetBytes]
    · by_cases h2 : cap = f.mc.text.length + 1
      · have z : cap - f.mc.text.length = 1 := by omega
        have z2 : ¬ cap < f.mc.text.length + 1 := by omega
        have z3 : cap < f.mc.text.length + 1 + 1 := by omega
        have z4 : cap - (f.mc.text.length + 1) = 0 := by omega
        simp [z, z2, z3, z4, memSetBytes]
      · obtain ⟨k, hk⟩ : ∃ k, cap = f.mc.text.length + 2 + k := ⟨cap - (f.mc.text.length + 2), by omega⟩
        have z : cap - f.mc.text.length = k + 2 := by omega
        have z2 : ¬ cap < f.mc.text.length + 1 := by omega
        have z3 : ¬ cap < f.mc.text.length + 1 + 1 := by omega
        have z4 : cap - (f.mc.text.length + 1) = k + 1 := by omega
        simp [z, z2, z3, z4, memSetBytes, textAddr, Nat.add_assoc]

/-- Reading after a stored run. -/
theorem readByte_memSetBytes (s t : State) (a : Nat) (bs : List Byte) (ht : t.mem = memSetBytes s.mem a bs) (he : t.epoch = s.epoch) :
    (∀ i < bs.length, readByte t (a + i) = bs.getD i 0) ∧ SameBytesOutside s t a (a + bs.length) := by
  constructor
  · intro i hi
    simp only [readByte, ht, memGet_memSetBytes]
    have : a ≤ a + i ∧ a + i < a + bs.length := by omega
    rw [if_pos this]
    simp [hi]
  · intro x hx
    apply readByte_congr _ _ he
    rw [ht, memGet_memSetBytes, if_neg (by omega)]

/-- A code outside the table is `?` (43_morse.md R223). -/
theorem morseChar_of_not_mem (code : List Symbol) (h : code ∉ morseTable.map (fun e => codeOfString e.1)) : morseChar code = 0x3F := by
  unfold morseChar
  have : morseTable.find? (fun e => codeOfString e.1 == code) = none := by
    rw [List.find?_eq_none]
    intro e he hc
    apply h
    rw [List.mem_map]
    exact ⟨e, he, by simpa using hc⟩
  rw [this]

end Sys2Proof.Machine
end

