-- ==== Sys2Proof/Laws/Fits.lean ====
section
/-! SUPPORT. What fits where: stored values stay in their buffer, and a feed keeps the text,
    the code and the increment within their bounds. -/

namespace Sys2Proof.Machine

/-- An address in the size used of a buffer is mapped. -/
theorem mapped_of_region {p : Params} {a : Nat} (r : Region) (h : regionBase r ≤ a) (h2 : a < regionBase r + regionUsed p r) : mapped p a = true := by
  unfold mapped
  rw [List.any_eq_true]
  exact ⟨r, by cases r <;> decide, by simp [inRegion, h, h2]⟩

/-- Values stored inside a buffer keep the memory canonical and mapped. -/
theorem memoryOk_storeValues {s : State} (h : MemoryOk s) (r : Region) (a : Nat) (xs : List F64) (h1 : regionBase r ≤ a)
    (h2 : a + 8 * xs.length ≤ regionBase r + regionUsed s.params r) : MemoryOk (storeValues s a xs) := by
  refine ⟨memSetWords_wf _ _ _ h.1, ?_⟩
  intro c hc
  rcases mem_memSetWords _ _ _ _ hc with ⟨g1, g2⟩ | g
  · simp at g2
    exact mapped_of_region r (by omega) (by rw [storeValues_params]; omega)
  · exact h.2 c g

/-- Values stored below `TEXTBUF` keep the text. -/
theorem textOk_storeValues {s : State} (h : TextOk s) (a : Nat) (xs : List F64) (h2 : a + 8 * xs.length ≤ 0x500000) : TextOk (storeValues s a xs) := by
  refine ⟨h.1, ?_⟩
  intro i hi
  rw [storeValues_mem, memGet_memSetWords_outside]
  · exact h.2 i hi
  · right; simp [textAddr, regionBase]; omega

/-- The bounds a feed keeps (43_morse.md R232, R233; 20_memory.md R84, R88). -/
structure FeedFits (p : Params) (f : Feed) : Prop where
  code : f.mc.code.length ≤ 32
  len : f.mc.text.length ≤ p.textCap
  text : ∀ i (h : i < f.mc.text.length), memGet f.mem (textAddr i) = some (f.mc.text[i]'h)
  wf : Memory.wf f.mem = true
  map : ∀ c ∈ f.mem, mapped p c.1 = true

theorem FeedFits.emit {p f} (c : Byte) (h : FeedFits p f) : FeedFits p (feedEmit p.textCap c f) := by
  unfold feedEmit
  split
  · rename_i hl
    refine ⟨h.code, by simp; omega, ?_, memSet_wf _ _ _ h.wf, ?_⟩
    · intro i hi
      simp at hi
      simp only [memGet_memSet]
      by_cases e : i = f.mc.text.length
      · subst e; simp
      · have : textAddr f.mc.text.length ≠ textAddr i := by simp [textAddr]; omega
        rw [if_neg this, h.text i (by omega), List.getElem_append_left]
    · intro c hc
      rcases mem_memSet hc with rfl | hc
      · exact mapped_of_region .textbuf (by simp [textAddr]) (by simp [textAddr, regionUsed]; omega)
      · exact h.map c hc
  · exact ⟨h.code, h.len, h.text, h.wf, h.map⟩

theorem FeedFits.finalise {p f} (sp : Bool) (h : FeedFits p f) (hi : f.inc = []) : FeedFits p (feedFinalise p.textCap sp f) ∧
    (feedFinalise p.textCap sp f).inc.length ≤ 2 := by
  unfold feedFinalise
  by_cases hc : f.mc.code = []
  · simp only [hc, if_true]
    exact ⟨⟨by simp, h.len, h.text, h.wf, h.map⟩, by simp [hi]⟩
  · simp only [hc, if_false]
    have h1 := FeedFits.emit (morseChar f.mc.code) h
    cases sp
    · exact ⟨⟨by simp, h1.len, h1.text, h1.wf, h1.map⟩, by simp [hi]⟩
    · have h2 := FeedFits.emit 0x20 h1
      exact ⟨⟨by simp, h2.len, h2.text, h2.wf, h2.map⟩, by simp [hi]⟩

theorem FeedFits.append {p f} (y) (h : FeedFits p f) : FeedFits p (feedAppend y f) := by
  refine ⟨feedAppend_code_le y f h.code, ?_, ?_, ?_, ?_⟩
  · simp [h.len]
  · intro i hi; simp only [feedAppend_mem, feedAppend_text] at hi ⊢; exact h.text i hi
  · simp [h.wf]
  · simpa using h.map

theorem FeedFits.block {p f} (draw env) (h : FeedFits p f) (hi : f.inc = []) : FeedFits p (feedBlock p.textCap draw env f) ∧
    (feedBlock p.textCap draw env f).inc.length ≤ 2 := by
  unfold feedBlock
  simp only
  have key : ∀ cur, FeedFits p (feedTransition p.textCap cur f) ∧ (feedTransition p.textCap cur f).inc.length ≤ 2 := by
    intro cur
    unfold feedTransition
    split
    · exact ⟨h, by simp [hi]⟩
    · have : FeedFits p (if f.mc.last then leaveTone f else leaveGap p.textCap f) ∧
        (if f.mc.last then leaveTone f else leaveGap p.textCap f).inc.length ≤ 2 := by
        split
        · unfold leaveTone; split
          · exact ⟨FeedFits.append _ h, by simp [hi]⟩
          · split
            · exact ⟨FeedFits.append _ h, by simp [hi]⟩
            · exact ⟨h, by simp [hi]⟩
        · unfold leaveGap; split
          · exact FeedFits.finalise _ h hi
          · split
            · exact FeedFits.finalise _ h hi
            · exact ⟨h, by simp [hi]⟩
      exact ⟨⟨this.1.code, this.1.len, this.1.text, this.1.wf, this.1.map⟩, this.2⟩
  obtain ⟨k1, k2⟩ := key (f64Lt f.mc.thr (meanOf env))
  exact ⟨⟨k1.code, k1.len, k1.text, k1.wf, k1.map⟩, k2⟩

end Sys2Proof.Machine
end

