-- ==== Sys2Proof/Laws/Float64.lean ====
section
/-! SUPPORT. Rounding (00_scope.md R15): `f64Round` gives the nearest binary64 value, ties to even,
    and what the operations hand it stands for the exact result; the order of values, the remainder, sums and the range of `atan2`. -/

namespace Sys2Proof.Machine

/-- The magnitude, in units, that a finite magnitude pattern stands for. -/
def magUnits (m : Nat) : Nat := (if m / 2 ^ 52 = 0 then m % 2 ^ 52 else m % 2 ^ 52 + 2 ^ 52) * 2 ^ (m / 2 ^ 52 - 1)

/-- A value in units, by sign and magnitude. -/
theorem f64Units_eq (x : F64) : f64Units x = if f64Neg x then -(magUnits (f64Mag x) : Int) else (magUnits (f64Mag x) : Int) := rfl

/-- The magnitude of a packed pattern. -/
theorem f64Mag_pack (neg : Bool) (m : Nat) (h : m < 2 ^ 63) : f64Mag (f64Pack neg m) = m := by
  unfold f64Mag f64Pack
  rw [BitVec.toNat_ofNat]
  cases neg
  · rw [if_neg (by decide)]; omega
  · rw [if_pos rfl]; omega

/-- The sign of a packed pattern. -/
theorem f64Neg_pack (neg : Bool) (m : Nat) (h : m < 2 ^ 63) : f64Neg (f64Pack neg m) = neg := by
  unfold f64Neg f64Pack
  rw [BitVec.msb_eq_decide, BitVec.toNat_ofNat]
  cases neg
  · rw [if_neg (by decide)]; simp; omega
  · rw [if_pos rfl]; simp; omega

/-- The magnitude that a rounded significand stands for. -/
theorem magUnits_of_round (q r : Nat) (h : r ≤ 2 ^ 53) (h2 : 0 < q → 2 ^ 52 ≤ r) : magUnits (q * 2 ^ 52 + r) = r * 2 ^ q := by
  unfold magUnits
  rcases Nat.lt_or_ge r (2 ^ 52) with hr | hr
  · have hq : q = 0 := by
      by_contra h0
      have := h2 (by omega)
      omega
    subst hq
    have h1 : r / 2 ^ 52 = 0 := Nat.div_eq_of_lt hr
    rw [Nat.zero_mul, Nat.zero_add, if_pos h1, h1, Nat.mod_eq_of_lt hr]
  · rcases Nat.lt_or_ge r (2 ^ 53) with hr2 | hr2
    · have h1 : (q * 2 ^ 52 + r) / 2 ^ 52 = q + 1 := by omega
      have h3 : (q * 2 ^ 52 + r) % 2 ^ 52 = r - 2 ^ 52 := by omega
      rw [if_neg (by omega), h1, h3, Nat.sub_add_cancel hr, Nat.add_sub_cancel]
    · have hr3 : r = 2 ^ 53 := by omega
      subst hr3
      have h1 : (q * 2 ^ 52 + 2 ^ 53) / 2 ^ 52 = q + 2 := by omega
      have h3 : (q * 2 ^ 52 + 2 ^ 53) % 2 ^ 52 = 0 := by omega
      rw [if_neg (by omega), h1, h3, Nat.zero_add, show q + 2 - 1 = q + 1 from rfl, Nat.pow_succ 2 q, Nat.pow_succ 2 52]
      ring

/-- A magnitude is a multiple of `2^q` or lies below the smallest one with `q + 1` as its exponent. -/
theorem magUnits_cases (q m : Nat) : 2 ^ q ∣ magUnits m ∨ (0 < q ∧ magUnits m < 2 ^ (52 + q)) := by
  unfold magUnits
  have hs : (if m / 2 ^ 52 = 0 then m % 2 ^ 52 else m % 2 ^ 52 + 2 ^ 52) < 2 ^ 53 := by
    split <;> omega
  generalize (if m / 2 ^ 52 = 0 then m % 2 ^ 52 else m % 2 ^ 52 + 2 ^ 52) = g at hs
  generalize m / 2 ^ 52 - 1 = k
  rcases Nat.lt_or_ge k q with h | h
  · refine .inr ⟨by omega, ?_⟩
    calc g * 2 ^ k < 2 ^ 53 * 2 ^ k := Nat.mul_lt_mul_of_pos_right hs (by positivity)
      _ ≤ 2 ^ 53 * 2 ^ (q - 1) := Nat.mul_le_mul_left _ (Nat.pow_le_pow_right (by decide) (by omega))
      _ = 2 ^ (52 + q) := by rw [← Nat.pow_add]; congr 1; omega
  · exact .inl (Dvd.dvd.mul_left (Nat.pow_dvd_pow 2 h) g)

/-- The grid argument: `r` is the nearest multiple of `g = 2^q·D` to `N`, and below `2^52·g` there is nothing nearer. -/
theorem grid_nearest (N D q r : Nat) (hD : 0 < D)
    (h1 : 2 * |(N : Int) - r * (2 ^ q * D : Nat)| ≤ (2 ^ q * D : Nat))
    (he : 2 * |(N : Int) - r * (2 ^ q * D : Nat)| = (2 ^ q * D : Nat) → r % 2 = 0)
    (h2 : 0 < q → 2 ^ (52 + q) * D ≤ N)
    (Z : Int) (hZ : (2 ^ q : Int) ∣ Z ∨ (0 < q ∧ |Z| < 2 ^ (52 + q))) :
    |(N : Int) - (r * 2 ^ q : Nat) * D| ≤ |(N : Int) - Z * D| ∧
    (|(N : Int) - (r * 2 ^ q : Nat) * D| = |(N : Int) - Z * D| → Z ≠ (r * 2 ^ q : Nat) → r % 2 = 0) := by
  have hg : (0 : Int) < (2 ^ q * D : Nat) := by exact_mod_cast Nat.mul_pos (by positivity) hD
  have er : ((r * 2 ^ q : Nat) : Int) * D = r * (2 ^ q * D : Nat) := by push_cast; ring
  have mult : ∀ k : Int, k ≠ r → |(N : Int) - r * (2 ^ q * D : Nat)| ≤ |(N : Int) - k * (2 ^ q * D : Nat)| ∧
      (|(N : Int) - r * (2 ^ q * D : Nat)| = |(N : Int) - k * (2 ^ q * D : Nat)| → r % 2 = 0) := by
    intro k hk
    generalize ((2 ^ q * D : Nat) : Int) = g at *
    have tri : g ≤ |(N : Int) - r * g| + |(N : Int) - k * g| := by
      have t := abs_sub_abs_le_abs_sub ((N : Int) - k * g) ((N : Int) - r * g)
      have a := abs_add_le ((N : Int) - k * g) (-((N : Int) - r * g))
      rw [abs_neg] at a
      have e : (N : Int) - k * g + -((N : Int) - r * g) = (r - k) * g := by ring
      rw [e, abs_mul, abs_of_pos hg] at a
      have o : 1 ≤ |(r : Int) - k| := Int.one_le_abs (by omega)
      nlinarith
    constructor
    · linarith
    · intro h; apply he; linarith
  rw [er]
  rcases hZ with ⟨k, rfl⟩ | ⟨hq, hs⟩
  · have ek : (2 ^ q * k : Int) * D = k * (2 ^ q * D : Nat) := by push_cast; ring
    rw [ek]
    by_cases hk : k = r
    · subst hk
      refine ⟨le_refl _, fun _ h => absurd ?_ h⟩
      push_cast; ring
    · exact ⟨(mult k hk).1, fun h _ => (mult k hk).2 h⟩
  · have hN : ((2 : Int) ^ (52 + q)) * D ≤ N := by exact_mod_cast h2 hq
    have hD' : (0 : Int) < D := by exact_mod_cast hD
    have hZ2 := (abs_lt.mp hs).2
    have strict : (N : Int) - 2 ^ (52 + q) * D < (N : Int) - Z * D := by nlinarith
    have pos : (0 : Int) ≤ (N : Int) - 2 ^ (52 + q) * D := by linarith
    have base : |(N : Int) - r * (2 ^ q * D : Nat)| ≤ (N : Int) - 2 ^ (52 + q) * D := by
      have e52 : ((2 : Int) ^ 52) * (2 ^ q * D : Nat) = 2 ^ (52 + q) * D := by push_cast; rw [pow_add]; ring
      by_cases hk : ((2 : Int) ^ 52) = r
      · rw [← hk, e52, abs_of_nonneg pos]
      · have := (mult _ hk).1
        rwa [e52, abs_of_nonneg pos] at this
    have up : (N : Int) - Z * D ≤ |(N : Int) - Z * D| := le_abs_self _
    exact ⟨by linarith, fun h => by exfalso; linarith⟩

/-- `m·2^e/2^b` is `N/D`, exactly or up to a sticky bit far below the last place. -/
def Approximates (m e b N D : Nat) : Prop :=
  N * 2 ^ b = m * 2 ^ e * D ∨
  (2 ^ 60 ≤ m ∧ ∃ Q, m = 2 * Q + 1 ∧ 2 * Q * 2 ^ e * D < N * 2 ^ b ∧ N * 2 ^ b < (2 * Q + 2) * 2 ^ e * D)

/-- `roundShift` is within half a place, and a tie is even. -/
theorem roundShift_spec (m k : Nat) : 2 * |(m : Int) - roundShift m k * 2 ^ k| ≤ 2 ^ k ∧
    (2 * |(m : Int) - roundShift m k * 2 ^ k| = 2 ^ k → roundShift m k % 2 = 0) := by
  have hk : 0 < 2 ^ k := by positivity
  have hm := Nat.div_add_mod m (2 ^ k)
  have hl := Nat.mod_lt m hk
  unfold roundShift
  generalize m / 2 ^ k = Q at *
  generalize m % 2 ^ k = R at *
  have hm' : (m : Int) = 2 ^ k * Q + R := by exact_mod_cast hm.symm
  have hl' : (R : Int) < 2 ^ k := by exact_mod_cast hl
  have hR : (0 : Int) ≤ R := by positivity
  split
  · rename_i h
    have e : (m : Int) - ((Q + 1 : Nat) : Int) * 2 ^ k = -(2 ^ k - R) := by rw [hm']; push_cast; ring
    rw [e, abs_neg, abs_of_nonneg (by linarith)]
    have h' : 2 ^ k ≤ 2 * R := by rcases h with h | h <;> omega
    have h2 : (2 : Int) ^ k ≤ 2 * R := by exact_mod_cast h'
    refine ⟨by linarith, fun h3 => ?_⟩
    have h4 : 2 * R = 2 ^ k := by
      have : (2 * R : Int) = 2 ^ k := by linarith
      exact_mod_cast this
    rcases h with h | h <;> omega
  · rename_i h
    have e : (m : Int) - (Q : Int) * 2 ^ k = R := by rw [hm']; ring
    rw [e, abs_of_nonneg hR]
    have h' : 2 * R ≤ 2 ^ k := by omega
    refine ⟨by exact_mod_cast h', fun h3 => ?_⟩
    have h4 : 2 * R = 2 ^ k := by exact_mod_cast h3
    omega

/-- The rounded significand is within half a last place of the quotient, and a tie is even. -/
theorem round_half {m e b N D q r : Nat} (ha : Approximates m e b N D)
    (hq : q = e + Nat.log2 m - (b + 52)) (hr : r = if q + b ≤ e then m * 2 ^ (e - (q + b)) else roundShift m (q + b - e)) :
    2 * |(N : Int) - r * (2 ^ q * D : Nat)| ≤ (2 ^ q * D : Nat) ∧
    (2 * |(N : Int) - r * (2 ^ q * D : Nat)| = (2 ^ q * D : Nat) → r % 2 = 0 ∨ D = 0) := by
  have hb : (0 : Int) < 2 ^ b := by positivity
  -- multiply through by 2^b
  have scale : ∀ x : Int, (2 * |x| ≤ ((2 ^ q * D : Nat) : Int) ↔ 2 * |x * 2 ^ b| ≤ 2 ^ (q + b) * D) ∧
      (2 * |x| = ((2 ^ q * D : Nat) : Int) ↔ 2 * |x * 2 ^ b| = 2 ^ (q + b) * D) := by
    intro x
    have e1 : |x * 2 ^ b| = |x| * 2 ^ b := by rw [abs_mul, abs_of_pos hb]
    have e2 : (2 : Int) ^ (q + b) * D = ((2 ^ q * D : Nat) : Int) * 2 ^ b := by push_cast; rw [pow_add]; ring
    rw [e1, e2, ← mul_assoc]
    exact ⟨(mul_le_mul_iff_left₀ hb).symm, ⟨fun h => by rw [h], fun h => mul_right_cancel₀ (ne_of_gt hb) h⟩⟩
  rw [(scale _).1, (scale _).2]
  have ex : ((N : Int) - r * (2 ^ q * D : Nat)) * 2 ^ b = (N * 2 ^ b : Nat) - r * (2 ^ (q + b) * D : Nat) := by
    push_cast; rw [pow_add]; ring
  rw [ex]
  by_cases hk : q + b ≤ e
  · rw [if_pos hk] at hr
    rcases ha with ha | ⟨hm, _⟩
    · have : ((N * 2 ^ b : Nat) : Int) - r * (2 ^ (q + b) * D : Nat) = 0 := by
        rw [ha, hr]
        have : 2 ^ e = 2 ^ (e - (q + b)) * 2 ^ (q + b) := by rw [← Nat.pow_add]; congr 1; omega
        rw [this]; push_cast; ring
      rw [this, abs_zero, mul_zero]
      refine ⟨by positivity, fun h => .inr ?_⟩
      have h2 : (0 : Int) < 2 ^ (q + b) := by positivity
      have : (D : Int) = 0 := by
        rcases mul_eq_zero.mp h.symm with h3 | h3
        · omega
        · exact h3
      exact_mod_cast this
    · exfalso
      have : 60 ≤ Nat.log2 m := (Nat.le_log2 (by omega)).mpr hm
      omega
  · rw [if_neg hk] at hr
    obtain ⟨k, hk2⟩ : ∃ k, q + b = e + k := ⟨q + b - e, by omega⟩
    have hkk : q + b - e = k := by omega
    rw [hkk] at hr
    obtain ⟨s1, s2⟩ := roundShift_spec m k
    rw [← hr] at s1 s2
    have he : (0 : Int) < 2 ^ e := by positivity
    have hD0 : (0 : Int) ≤ D := by positivity
    have ek : (2 : Int) ^ (q + b) = 2 ^ e * 2 ^ k := by rw [hk2, pow_add]
    rcases ha with ha | ⟨hm, Q, hQ, l, u⟩
    · have e1 : ((N * 2 ^ b : Nat) : Int) - r * (2 ^ (q + b) * D : Nat) = (m - r * 2 ^ k) * (2 ^ e * D) := by
        rw [ha, hk2]; push_cast; rw [pow_add]; ring
      have hp : (0 : Int) ≤ 2 ^ e * D := by positivity
      rw [e1, abs_mul, abs_of_nonneg hp, ek]
      refine ⟨by nlinarith, fun h => ?_⟩
      rcases Nat.eq_zero_or_pos D with h0 | h0
      · exact .inr h0
      · left
        apply s2
        have hp2 : (0 : Int) < 2 ^ e * D := mul_pos he (by exact_mod_cast h0)
        have : 2 * |(m : Int) - r * 2 ^ k| * (2 ^ e * D) = 2 ^ k * (2 ^ e * D) := by linarith
        exact mul_right_cancel₀ (ne_of_gt hp2) this
    · have hlog : 60 ≤ Nat.log2 m := (Nat.le_log2 (by omega)).mpr hm
      have hk3 : 2 ≤ k := by omega
      obtain ⟨j, rfl⟩ : ∃ j, k = j + 2 := ⟨k - 2, by omega⟩
      -- the odd numerator stays one off the midpoints
      have odd : 2 * |(m : Int) - r * 2 ^ (j + 2)| ≤ 2 ^ (j + 2) - 2 := by
        have e4 : (2 : Int) ^ (j + 2) = 4 * 2 ^ j := by rw [pow_add]; ring
        rw [e4] at s1 ⊢
        have hm' : (m : Int) = 2 * Q + 1 := by exact_mod_cast hQ
        rw [hm'] at s1 ⊢
        generalize hy : (2 : Int) ^ j = y at *
        rcases abs_cases ((2 * Q + 1 : Int) - r * (4 * y)) with ⟨h, _⟩ | ⟨h, _⟩ <;> rw [h] at s1 ⊢
        · have : (2 * Q + 1 : Int) - r * (4 * y) ≠ 2 * y := by
            intro h2
            have : (1 : Int) = 2 * (y + 2 * (r * y) - Q) := by linarith
            omega
          omega
        · have : -((2 * Q + 1 : Int) - r * (4 * y)) ≠ 2 * y := by
            intro h2
            have : (1 : Int) = 2 * (2 * (r * y) - y - Q) := by linarith
            omega
          omega
      have hDpos : (0 : Int) < D := by
        rcases Nat.eq_zero_or_pos D with h0 | h0
        · subst h0; omega
        · exact_mod_cast h0
      have l' : (2 * Q * 2 ^ e * D : Int) < (N * 2 ^ b : Nat) := by exact_mod_cast l
      have u' : ((N * 2 ^ b : Nat) : Int) < (2 * Q + 2) * 2 ^ e * D := by exact_mod_cast u
      have hm' : (m : Int) = 2 * Q + 1 := by exact_mod_cast hQ
      have ec : ((r : Int) * (2 ^ (q + b) * D : Nat)) = r * 2 ^ (j + 2) * (2 ^ e * D) := by
        push_cast; rw [ek]; ring
      have eg : (2 : Int) ^ (q + b) * D = 2 ^ (j + 2) * (2 ^ e * D) := by rw [ek]; ring
      have hp : (0 : Int) < 2 ^ e * D := mul_pos he hDpos
      have key : 2 * |((N * 2 ^ b : Nat) : Int) - r * (2 ^ (q + b) * D : Nat)| < 2 ^ (q + b) * D := by
        rw [ec, eg]
        clear ex ec eg scale s1 s2 ek
        rw [mul_assoc (2 * Q : Int)] at l'
        rw [mul_assoc (2 * Q + 2 : Int)] at u'
        generalize ((N * 2 ^ b : Nat) : Int) = n at *
        generalize ((2 : Int) ^ e * D) = g at *
        generalize (r : Int) * 2 ^ (j + 2) = c at *
        generalize (2 : Int) ^ (j + 2) = y at *
        rw [hm'] at odd
        obtain ⟨o1, o2⟩ := abs_le.mp (show |(2 * Q + 1 : Int) - c| ≤ y / 2 - 1 by omega)
        have y2 : 2 * (y / 2) ≤ y := by omega
        generalize y / 2 = h at *
        have up : (2 * Q + 2 : Int) * g ≤ (c + h) * g := mul_le_mul_of_nonneg_right (by linarith) (le_of_lt hp)
        have dn : (c - h) * g ≤ (2 * Q : Int) * g := mul_le_mul_of_nonneg_right (by linarith) (le_of_lt hp)
        have half : |n - c * g| < h * g := by
          rw [abs_lt]
          constructor
          · have : (c - h) * g = c * g - h * g := by ring
            linarith
          · have : (c + h) * g = c * g + h * g := by ring
            linarith
        have : 2 * (h * g) ≤ y * g := by rw [← mul_assoc]; exact mul_le_mul_of_nonneg_right y2 (le_of_lt hp)
        linarith
      exact ⟨le_of_lt key, fun h => absurd h (ne_of_lt key)⟩

/-- The leading bit. -/
theorem log2_bounds {m : Nat} (h : m ≠ 0) : 2 ^ Nat.log2 m ≤ m ∧ m < 2 ^ (Nat.log2 m + 1) :=
  ⟨Nat.log2_self_le h, Nat.lt_log2_self⟩

/-- The rounded significand has at most 53 bits, and 53 of them above the subnormals. -/
theorem round_bounds {m e b q r : Nat} (hm : m ≠ 0) (hq : q = e + Nat.log2 m - (b + 52))
    (hr : r = if q + b ≤ e then m * 2 ^ (e - (q + b)) else roundShift m (q + b - e)) :
    r ≤ 2 ^ 53 ∧ (0 < q → 2 ^ 52 ≤ r) := by
  obtain ⟨l1, l2⟩ := log2_bounds hm
  by_cases hk : q + b ≤ e
  · rw [if_pos hk] at hr
    constructor
    · rw [hr]
      calc m * 2 ^ (e - (q + b)) ≤ 2 ^ (Nat.log2 m + 1) * 2 ^ (e - (q + b)) := Nat.mul_le_mul_right _ (le_of_lt l2)
        _ = 2 ^ (Nat.log2 m + 1 + (e - (q + b))) := (Nat.pow_add _ _ _).symm
        _ ≤ 2 ^ 53 := Nat.pow_le_pow_right (by decide) (by omega)
    · intro h0
      rw [hr]
      calc 2 ^ 52 ≤ 2 ^ (Nat.log2 m + (e - (q + b))) := Nat.pow_le_pow_right (by decide) (by omega)
        _ = 2 ^ Nat.log2 m * 2 ^ (e - (q + b)) := Nat.pow_add _ _ _
        _ ≤ m * 2 ^ (e - (q + b)) := Nat.mul_le_mul_right _ l1
  · rw [if_neg hk] at hr
    generalize hkk : q + b - e = k at hr
    have hd : m / 2 ^ k < 2 ^ 53 := by
      apply Nat.div_lt_of_lt_mul
      calc m < 2 ^ (Nat.log2 m + 1) := l2
        _ ≤ 2 ^ (k + 53) := Nat.pow_le_pow_right (by decide) (by omega)
        _ = 2 ^ k * 2 ^ 53 := Nat.pow_add _ _ _
    have hrs : m / 2 ^ k ≤ r ∧ r ≤ m / 2 ^ k + 1 := by
      rw [hr]; unfold roundShift; split <;> omega
    refine ⟨by omega, fun h0 => le_trans ?_ hrs.1⟩
    rw [Nat.le_div_iff_mul_le (by positivity)]
    calc 2 ^ 52 * 2 ^ k = 2 ^ (52 + k) := (Nat.pow_add _ _ _).symm
      _ = 2 ^ Nat.log2 m := by congr 1; omega
      _ ≤ m := l1

/-- Above the subnormals the quotient reaches the smallest number with its exponent. -/
theorem round_above {m e b N D q : Nat} (hm : m ≠ 0) (ha : Approximates m e b N D) (hq : q = e + Nat.log2 m - (b + 52)) (h0 : 0 < q) :
    2 ^ (52 + q) * D ≤ N := by
  obtain ⟨l1, l2⟩ := log2_bounds hm
  have hb : 0 < 2 ^ b := by positivity
  apply Nat.le_of_mul_le_mul_right _ hb
  have hp : 2 ^ (52 + q) * D * 2 ^ b = 2 ^ Nat.log2 m * 2 ^ e * D := by
    rw [Nat.mul_right_comm, ← Nat.pow_add, ← Nat.pow_add]
    congr 2; omega
  rw [hp]
  rcases ha with ha | ⟨h60, Q, hQ, l, _⟩
  · rw [ha]; exact Nat.mul_le_mul_right _ (Nat.mul_le_mul_right _ l1)
  · have hlog : 60 ≤ Nat.log2 m := (Nat.le_log2 hm).mpr h60
    obtain ⟨j, hj⟩ : ∃ j, Nat.log2 m = j + 1 := ⟨Nat.log2 m - 1, by omega⟩
    rw [hj, Nat.pow_succ] at l1
    have : 2 ^ Nat.log2 m ≤ 2 * Q := by rw [hj, Nat.pow_succ]; omega
    exact le_trans (Nat.mul_le_mul_right _ (Nat.mul_le_mul_right _ this)) (le_of_lt l)

/-- `f64Round` rounds to nearest, ties to even, wherever its result is finite (00_scope.md R15). -/
theorem f64Round_nearest {neg : Bool} {m e b N D : Nat} (hD : 0 < D) (ha : Approximates m e b N D)
    (hf : f64IsFinite (f64Round neg m e b) = true) :
    NearestEven (if neg then -(N : Int) else N) D (f64Round neg m e b) := by
  have flip : ∀ (U Z : Int), |(if neg then -(N : Int) else N) - (if neg then -U else U) * D| = |(N : Int) - U * D| := by
    intro U _
    cases neg
    · rfl
    · rw [if_pos rfl, if_pos rfl, show -(N : Int) - -U * D = -((N : Int) - U * D) by ring, abs_neg]
  by_cases hm : m = 0
  · have hN : N = 0 := by
      rcases ha with ha | ⟨h, _⟩
      · rw [hm] at ha; simpa using ha
      · omega
    have hu : f64Units (f64Round neg m e b) = 0 := by
      have : f64Round neg m e b = f64Pack neg 0 := by unfold f64Round; exact if_pos hm
      rw [this, f64Units_eq, f64Mag_pack _ _ (by decide), show magUnits 0 = 0 by decide]; split <;> rfl
    intro z _
    rw [hu, hN]
    have e0 : (if neg then -((0 : Nat) : Int) else ((0 : Nat) : Int)) = 0 := by cases neg <;> rfl
    rw [e0]
    simp only [Int.zero_mul, sub_zero, abs_zero, zero_sub, abs_neg]
    refine ⟨abs_nonneg _, fun h h2 => absurd ?_ h2⟩
    have := abs_eq_zero.mp h.symm
    rcases mul_eq_zero.mp this with h | h
    · exact h
    · exfalso; have : D = 0 := by exact_mod_cast h
      omega
  · generalize hq : e + Nat.log2 m - (b + 52) = q
    generalize hr : (if q + b ≤ e then m * 2 ^ (e - (q + b)) else roundShift m (q + b - e)) = r
    have hR : f64Round neg m e b = f64Pack neg (min (q * 2 ^ 52 + r) f64InfMag) := by
      unfold f64Round; rw [if_neg hm]; simp only [hq, hr]
    obtain ⟨b1, b2⟩ := round_bounds hm hq.symm hr.symm
    have hinf : f64InfMag < 2 ^ 63 := by decide
    have hlt : min (q * 2 ^ 52 + r) f64InfMag < f64InfMag := by
      have := hf
      unfold f64IsFinite at this
      rw [hR, f64Mag_pack _ _ (by omega)] at this
      simpa using this
    have hmin : min (q * 2 ^ 52 + r) f64InfMag = q * 2 ^ 52 + r := by omega
    rw [hmin] at hlt hR
    have hu : f64Units (f64Round neg m e b) = if neg then -((r * 2 ^ q : Nat) : Int) else ((r * 2 ^ q : Nat) : Int) := by
      rw [hR, f64Units_eq, f64Neg_pack _ _ (by omega), f64Mag_pack _ _ (by omega), magUnits_of_round q r b1 b2]
    have hodd : (f64Round neg m e b).toNat % 2 = r % 2 := by
      rw [hR]; unfold f64Pack; rw [BitVec.toNat_ofNat]; cases neg
      · rw [if_neg (by decide)]; omega
      · rw [if_pos rfl]; omega
    obtain ⟨h1, h2⟩ := round_half ha hq.symm hr.symm
    have h2' : 2 * |(N : Int) - r * (2 ^ q * D : Nat)| = (2 ^ q * D : Nat) → r % 2 = 0 := by
      intro h; rcases h2 h with h | h
      · exact h
      · omega
    intro z _
    rw [hu, hodd]
    let Z : Int := if neg then -f64Units z else f64Units z
    have hz : f64Units z = if neg then -Z else Z := by simp only [Z]; cases neg <;> simp
    have hZ : (2 ^ q : Int) ∣ Z ∨ (0 < q ∧ |Z| < 2 ^ (52 + q)) := by
      have ha : |Z| = magUnits (f64Mag z) := by
        have : |f64Units z| = magUnits (f64Mag z) := by
          rw [f64Units_eq]; split
          · rw [abs_neg]; exact Nat.abs_cast _
          · exact Nat.abs_cast _
        simp only [Z]; split
        · rw [abs_neg]; exact this
        · exact this
      rcases magUnits_cases q (f64Mag z) with h | h
      · left; rw [← dvd_abs, ha]; exact_mod_cast h
      · right; rw [ha]; exact ⟨h.1, by exact_mod_cast h.2⟩
    obtain ⟨g1, g2⟩ := grid_nearest N D q r hD h1 h2' (fun h => round_above hm ha hq.symm h) Z hZ
    rw [hz, flip _ 0, flip _ 0]
    refine ⟨g1, fun h hne => g2 h ?_⟩
    intro e; apply hne; rw [e]

/-- An exact product. -/
theorem approximates_exact (m e b : Nat) : Approximates m e b (m * 2 ^ e) (2 ^ b) := .inl (by ring)

/-- A finite value is no NaN and no infinity. -/
theorem finite_spec {x : F64} (h : f64IsFinite x = true) : f64IsNaN x = false ∧ f64IsInf x = false := by
  unfold f64IsFinite at h
  unfold f64IsNaN f64IsInf
  simp at h
  constructor
  · simp; omega
  · simp; omega

/-- A sign flip negates the value. -/
theorem f64Units_negate (x : F64) : f64Units (f64Negate x) = -f64Units x ∧ f64IsFinite (f64Negate x) = f64IsFinite x := by
  have hx := x.isLt
  have hn : (f64Negate x).toNat = if x.toNat < 2 ^ 63 then x.toNat + 2 ^ 63 else x.toNat - 2 ^ 63 := by
    have key : ∀ y < 2 ^ 63, (2 ^ 63 ^^^ y) = 2 ^ 63 + y := by
      intro y hy
      have h1 := Nat.two_pow_add_eq_or_of_lt hy 1
      rw [Nat.mul_one] at h1
      rw [h1]
      apply Nat.eq_of_testBit_eq
      intro i
      rw [Nat.testBit_xor, Nat.testBit_or, Nat.testBit_two_pow]
      by_cases hi : 63 = i
      · subst hi; rw [Nat.testBit_lt_two_pow hy]; rfl
      · simp [hi]
    unfold f64Negate
    rw [BitVec.toNat_xor, show (0x8000000000000000#64).toNat = 2 ^ 63 from rfl, Nat.xor_comm]
    by_cases h : x.toNat < 2 ^ 63
    · rw [if_pos h, key _ h]; omega
    · rw [if_neg h]
      obtain ⟨y, hy⟩ : ∃ y, x.toNat = 2 ^ 63 + y := ⟨x.toNat - 2 ^ 63, by omega⟩
      rw [hy, ← key y (by omega), ← Nat.xor_assoc, Nat.xor_self, Nat.zero_xor, key y (by omega)]
      omega
  have hm : f64Mag (f64Negate x) = f64Mag x := by
    show (f64Negate x).toNat % 2 ^ 63 = x.toNat % 2 ^ 63
    rw [hn]; split <;> omega
  have hs : f64Neg (f64Negate x) = !f64Neg x := by
    unfold f64Neg
    rw [BitVec.msb_eq_decide, BitVec.msb_eq_decide, hn]
    by_cases h : x.toNat < 2 ^ 63
    · rw [if_pos h, decide_eq_true (by omega), decide_eq_false (by omega)]; rfl
    · rw [if_neg h, decide_eq_false (by omega), decide_eq_true (by omega)]; rfl
  refine ⟨?_, by unfold f64IsFinite; rw [hm]⟩
  rw [f64Units_eq, f64Units_eq, hm, hs]
  cases f64Neg x <;> simp

/-- Significand and scale give the magnitude. -/
theorem magUnits_sig (x : F64) : magUnits (f64Mag x) = f64Sig x * 2 ^ f64Scale x := rfl

/-- A significand has at most 53 bits. -/
theorem finite_sig {x : F64} : f64Sig x < 2 ^ 53 := by unfold f64Sig; split <;> omega

/-- A value that is no zero has a positive significand. -/
theorem sig_pos {x : F64} (h : f64IsZero x = false) : 0 < f64Sig x := by
  unfold f64IsZero at h
  simp at h
  unfold f64Sig
  split <;> omega

/-- A sticky quotient stands for the exact one. -/
theorem stickyDiv_approximates {n d e b N D : Nat} (hd : 0 < d) (hn : n = 0 ∨ 2 ^ 60 * d ≤ n) (h : N * 2 ^ b * d = 2 * n * 2 ^ e * D)
    (hD : 0 < D) : Approximates (stickyDiv n d) e b N D := by
  have hq := Nat.div_add_mod n d
  have hr := Nat.mod_lt n hd
  unfold stickyDiv
  generalize hQ : n / d = Q at *
  generalize n % d = R at *
  have hp : 0 < 2 ^ e * D := Nat.mul_pos (by positivity) hD
  by_cases h0 : R = 0
  · left
    rw [if_pos h0]
    apply Nat.eq_of_mul_eq_mul_right hd
    rw [h, ← hq, h0]; ring
  · right
    rw [if_neg h0]
    refine ⟨?_, Q, rfl, ?_, ?_⟩
    · rcases hn with hn | hn
      · exfalso
        have : R ≤ n := by rw [← hq]; omega
        omega
      · have : 2 ^ 60 ≤ Q := by rw [← hQ]; exact (Nat.le_div_iff_mul_le hd).mpr hn
        omega
    · apply Nat.lt_of_mul_lt_mul_right (a := d)
      rw [h]
      calc 2 * Q * 2 ^ e * D * d = 2 * (d * Q) * (2 ^ e * D) := by ring
        _ < 2 * n * (2 ^ e * D) := Nat.mul_lt_mul_of_pos_right (by omega) hp
        _ = 2 * n * 2 ^ e * D := by ring
    · apply Nat.lt_of_mul_lt_mul_right (a := d)
      rw [h]
      calc 2 * n * 2 ^ e * D = 2 * n * (2 ^ e * D) := by ring
        _ < 2 * (d * Q + d) * (2 ^ e * D) := Nat.mul_lt_mul_of_pos_right (by omega) hp
        _ = (2 * Q + 2) * 2 ^ e * D * d := by ring

/-! ### Order, remainder, sums and the range of `atan2` -/

/-- A larger pattern stands for a larger magnitude. -/
theorem magUnits_strictMono : StrictMono magUnits := by
  apply strictMono_nat_of_lt_succ
  intro m
  have d : m % 2 ^ 52 < 2 ^ 52 := Nat.mod_lt _ (by decide)
  by_cases h : m % 2 ^ 52 + 1 = 2 ^ 52
  · have h1 : (m + 1) / 2 ^ 52 = m / 2 ^ 52 + 1 := by omega
    have h2 : (m + 1) % 2 ^ 52 = 0 := by omega
    unfold magUnits
    rw [h1, h2, if_neg (show ¬ m / 2 ^ 52 + 1 = 0 by omega), Nat.add_sub_cancel, Nat.zero_add]
    generalize m / 2 ^ 52 = k at *
    cases k with
    | zero => rw [if_pos rfl]; omega
    | succ k =>
      rw [if_neg (by omega), Nat.add_sub_cancel, Nat.pow_succ 2 k]
      have : 0 < 2 ^ k := by positivity
      calc (m % 2 ^ 52 + 2 ^ 52) * 2 ^ k < 2 ^ 53 * 2 ^ k := Nat.mul_lt_mul_of_pos_right (by omega) this
        _ = 2 ^ 52 * (2 ^ k * 2) := by ring
  · have h1 : (m + 1) / 2 ^ 52 = m / 2 ^ 52 := by omega
    have h2 : (m + 1) % 2 ^ 52 = m % 2 ^ 52 + 1 := by omega
    unfold magUnits
    rw [h1, h2]
    apply Nat.mul_lt_mul_of_pos_right _ (by positivity)
    split <;> omega

/-- The zero patterns are the ones of value 0. -/
theorem f64IsZero_iff (x : F64) : f64IsZero x = true ↔ magUnits (f64Mag x) = 0 := by
  have h0 : magUnits 0 = 0 := rfl
  rw [← h0, magUnits_strictMono.injective.eq_iff]
  simp [f64IsZero]

/-- `<` of finite values compares them exactly (00_scope.md R15). -/
theorem f64Lt_iff {x y : F64} (hx : f64IsFinite x = true) (hy : f64IsFinite y = true) : f64Lt x y = true ↔ f64Units x < f64Units y := by
  have zx := f64IsZero_iff x
  have zy := f64IsZero_iff y
  have m1 := magUnits_strictMono.lt_iff_lt (a := f64Mag x) (b := f64Mag y)
  have m2 := magUnits_strictMono.lt_iff_lt (a := f64Mag y) (b := f64Mag x)
  rw [f64Units_eq, f64Units_eq]
  unfold f64Lt
  rw [(finite_spec hx).1, (finite_spec hy).1]
  cases f64Neg x <;> cases f64Neg y <;> simp [← m1, ← m2]
  cases h1 : f64IsZero x <;> cases h2 : f64IsZero y <;> simp [h1, h2] at zx zy ⊢ <;> omega

/-- `≤` of finite values compares them exactly. -/
theorem f64Le_iff {x y : F64} (hx : f64IsFinite x = true) (hy : f64IsFinite y = true) : f64Le x y = true ↔ f64Units x ≤ f64Units y := by
  have h := f64Lt_iff hy hx
  simp only [f64Le, (finite_spec hx).1, (finite_spec hy).1, Bool.not_false, Bool.true_and, Bool.not_eq_true', Bool.eq_false_iff, ne_eq,
      h, not_lt]

/-- A significand of at most 53 bits rounds to itself. -/
theorem f64Round_exact {neg : Bool} {m e : Nat} (hm : m < 2 ^ 53) (he : e ≤ 2045) :
    f64IsFinite (f64Round neg m e 0) = true ∧ f64Neg (f64Round neg m e 0) = neg ∧
      f64Units (f64Round neg m e 0) = if neg then -((m * 2 ^ e : Nat) : Int) else (m * 2 ^ e : Nat) := by
  have key : ∃ p, p < f64InfMag ∧ f64Round neg m e 0 = f64Pack neg p ∧ magUnits p = m * 2 ^ e := by
    unfold f64Round
    by_cases h0 : m = 0
    · subst h0
      exact ⟨0, by decide, by rw [if_pos rfl], by rw [Nat.zero_mul]; rfl⟩
    · obtain ⟨l1, l2⟩ := log2_bounds h0
      have hl : Nat.log2 m ≤ 52 := by
        by_contra hc
        have : 2 ^ 53 ≤ 2 ^ Nat.log2 m := Nat.pow_le_pow_right (by decide) (by omega)
        omega
      rw [if_neg h0]
      generalize hq : e + Nat.log2 m - (0 + 52) = q
      have hqe : q + 0 ≤ e := by omega
      have b := round_bounds (q := q) (b := 0) (e := e) h0 hq.symm rfl
      simp only [if_pos hqe] at b ⊢
      have hr : m * 2 ^ (e - (q + 0)) < 2 ^ 53 := by
        calc m * 2 ^ (e - (q + 0)) < 2 ^ (Nat.log2 m + 1) * 2 ^ (e - (q + 0)) := Nat.mul_lt_mul_of_pos_right l2 (by positivity)
          _ = 2 ^ (Nat.log2 m + 1 + (e - (q + 0))) := (Nat.pow_add _ _ _).symm
          _ ≤ 2 ^ 53 := Nat.pow_le_pow_right (by decide) (by omega)
      have hlt : q * 2 ^ 52 + m * 2 ^ (e - (q + 0)) < f64InfMag := by unfold f64InfMag; omega
      refine ⟨_, hlt, by rw [Nat.min_eq_left (Nat.le_of_lt hlt)], ?_⟩
      rw [magUnits_of_round q _ b.1 b.2, Nat.mul_assoc, ← Nat.pow_add]
      congr 2; omega
  obtain ⟨p, hp, h1, h2⟩ := key
  have h63 : p < 2 ^ 63 := Nat.lt_trans hp (by decide)
  rw [h1, f64Units_eq, f64Mag_pack _ _ h63, f64Neg_pack _ _ h63, h2]
  exact ⟨by simp [f64IsFinite, f64Mag_pack _ _ h63, hp], rfl, rfl⟩

/-- The scale of a finite value. -/
theorem finite_scale {x : F64} (h : f64IsFinite x = true) : f64Scale x ≤ 2045 := by
  unfold f64IsFinite f64InfMag at h
  simp at h
  unfold f64Scale
  omega

/-- `fmod` is the exact remainder with the sign of the dividend (42_demod.md R182). -/
theorem f64Fmod_exact {x y : F64} (hx : f64IsFinite x = true) (hy : f64IsFinite y = true) (h0 : f64IsZero y = false) :
    f64IsFinite (f64Fmod x y) = true ∧ f64Neg (f64Fmod x y) = f64Neg x ∧ f64Units (f64Fmod x y) = (f64Units x).tmod (f64Units y) := by
  obtain ⟨x1, x2⟩ := finite_spec hx
  obtain ⟨y1, y2⟩ := finite_spec hy
  have sx := finite_sig (x := x)
  have sy := finite_sig (x := y)
  have s0 := sig_pos h0
  have ux := f64Units_eq x
  have uy := f64Units_eq y
  rw [magUnits_sig] at ux uy
  unfold f64Fmod
  simp only [x1, x2, y1, y2, h0, Bool.or_self, Bool.false_eq_true, if_false]
  generalize he : min (f64Scale x) (f64Scale y) = e
  have hle : e ≤ 2045 := by have := finite_scale hx; omega
  have ex : f64Sig x * 2 ^ f64Scale x = f64Sig x * 2 ^ (f64Scale x - e) * 2 ^ e := by
    rw [Nat.mul_assoc, ← Nat.pow_add]; congr 2; omega
  have ey : f64Sig y * 2 ^ f64Scale y = f64Sig y * 2 ^ (f64Scale y - e) * 2 ^ e := by
    rw [Nat.mul_assoc, ← Nat.pow_add]; congr 2; omega
  have hm : f64Sig x * 2 ^ (f64Scale x - e) % (f64Sig y * 2 ^ (f64Scale y - e)) < 2 ^ 53 := by
    rcases Nat.le_total (f64Scale x) (f64Scale y) with h | h
    · have : f64Scale x - e = 0 := by omega
      rw [this, Nat.pow_zero, Nat.mul_one]
      exact lt_of_le_of_lt (Nat.mod_le _ _) sx
    · have : f64Scale y - e = 0 := by omega
      rw [this, Nat.pow_zero, Nat.mul_one]
      exact Nat.lt_trans (Nat.mod_lt _ s0) sy
  obtain ⟨r1, r2, r3⟩ := f64Round_exact (neg := f64Neg x) hm hle
  refine ⟨r1, r2, ?_⟩
  rw [r3, ux, uy, ex, ey]
  generalize f64Sig x * 2 ^ (f64Scale x - e) = a
  generalize f64Sig y * 2 ^ (f64Scale y - e) = b
  rw [← Nat.mul_mod_mul_right]
  cases f64Neg x <;> cases f64Neg y <;> simp only [if_true, if_false, Bool.false_eq_true, Int.neg_tmod, Int.tmod_neg] <;> rfl

/-- A sum with one more term (00_scope.md R15). -/
theorem f64Sum_append (ts : List F64) (t : F64) (h : ts ≠ []) : f64Sum (ts ++ [t]) = f64Add (f64Sum ts) t := by
  cases ts with
  | nil => exact absurd rfl h
  | cons a as => simp [f64Sum]

/-- A value within the range of `NUM.atan2` lies between the ends. -/
theorem inPiRange_bounds {v : F64} (h : inPiRange v = true) :
    f64Le 0xC00921FB54442D18#64 v = true ∧ f64Le v 0x400921FB54442D18#64 = true := by
  have p : magUnits (f64Mag v) ≤ magUnits (f64Mag Config.pi) := magUnits_strictMono.le_iff_le.mpr (by simpa [inPiRange] using h)
  have hf : f64IsFinite v = true := by
    have h1 : f64Mag v ≤ f64Mag Config.pi := by simpa [inPiRange] using h
    have h2 : f64Mag Config.pi < f64InfMag := by decide
    simp only [f64IsFinite, decide_eq_true_eq]; omega
  have e1 : f64Units 0xC00921FB54442D18#64 = -(magUnits (f64Mag Config.pi) : Int) := by
    rw [f64Units_eq, if_pos (by decide), show f64Mag 0xC00921FB54442D18#64 = f64Mag Config.pi by decide]
  have e2 : f64Units 0x400921FB54442D18#64 = (magUnits (f64Mag Config.pi) : Int) := by
    rw [f64Units_eq, if_neg (by decide), show f64Mag 0x400921FB54442D18#64 = f64Mag Config.pi by decide]
  rw [f64Le_iff (by decide) hf, f64Le_iff hf (by decide), e1, e2, f64Units_eq]
  generalize magUnits (f64Mag Config.pi) = P at *
  split <;> omega

/-- `withinPi` answers within the range. -/
theorem inPiRange_withinPi (neg : Bool) (v : F64) : inPiRange (withinPi neg v) = true := by
  unfold withinPi
  split
  · assumption
  · cases neg <;> decide

/-- Every value of `NUM.atan2` at operands that are numbers lies within the range (00_scope.md R15). -/
theorem inPiRange_numAtan2 (c : Numerics) {y x : F64} (hy : f64IsNaN y = false) (hx : f64IsNaN x = false) :
    inPiRange (numAtan2 c y x) = true := by
  have pk : ∀ (n : Bool) (m : Nat), m ≤ f64Mag Config.pi → inPiRange (f64Pack n m) = true := by
    intro n m hm
    have h : f64Mag Config.pi < 2 ^ 63 := by decide
    simpa [inPiRange, f64Mag_pack n m (by omega)] using hm
  unfold numAtan2
  split
  · rename_i h
    unfold atan2Zero
    split
    · exact pk _ _ (Nat.le_refl _)
    · have : f64IsZero y = true := by simp at h; exact h.1
      have h0 : f64Mag y = 0 := by simpa [f64IsZero] using this
      simp [inPiRange, h0]
  · cases c with
    | other k => exact inPiRange_withinPi _ _
    | reference =>
      unfold refAtan2
      simp only [hy, hx, Bool.or_self, Bool.false_eq_true, if_false]
      repeat' split
      all_goals first | exact inPiRange_withinPi _ _ | exact pk _ _ (by decide)

end Sys2Proof.Machine
end

