-- ==== Sys2Proof/Laws/PerInstr.lean ====
section
/-! SUPPORT. Statements about every command as syntax, one lemma per constructor of `Instr`. -/

namespace Sys2Proof.Laws

/-- A command is in the table, is well formed, its word is legal and decodes to it
(30_encoding.md R110 to R113). -/
def Encodes.Statement (i : Instr) : Prop :=
  i ∈ Instr.all ∧ WellFormed i = true ∧ WellFormedWord (encode i) = true ∧ decode (encode i) = .ok i ∧
  decodeBytes (encodeBytes i) = .ok (i, []) ∧ decodeTableWord 64 (encode i).toNat = some i

theorem Encodes.nop : Encodes.Statement .nop := by unfold Encodes.Statement; decide
theorem Encodes.softReset : Encodes.Statement .softReset := by unfold Encodes.Statement; decide
theorem Encodes.analyze : Encodes.Statement .analyze := by unfold Encodes.Statement; decide
theorem Encodes.sqEvaluate : Encodes.Statement .sqEvaluate := by unfold Encodes.Statement; decide
theorem Encodes.demodInit : Encodes.Statement .demodInit := by unfold Encodes.Statement; decide
theorem Encodes.demodulate : Encodes.Statement .demodulate := by unfold Encodes.Statement; decide
theorem Encodes.morseInit : Encodes.Statement .morseInit := by unfold Encodes.Statement; decide
theorem Encodes.morseReset : Encodes.Statement .morseReset := by unfold Encodes.Statement; decide
theorem Encodes.morseFeed : Encodes.Statement .morseFeed := by unfold Encodes.Statement; decide
theorem Encodes.processBlock : Encodes.Statement .processBlock := by unfold Encodes.Statement; decide

end Sys2Proof.Laws
end

