-- ==== Sys2Proof/Tests/Slice0.lean ====
section
/-! SUPPORT. Tests: the checks of well-formedness, hand-written command words, one or two single steps per command, and for every statement
with hypotheses a state that meets them. Expected values come from the rules of spec/, by hand. -/

-- One test after the other: each waits for the kernel, and many that wait at once take too much memory.
set_option Elab.async false

namespace Sys2Proof.Machine

/-! ### Small states -/

/-- 2.0, 0.25 and 0.75 as binary64. -/
def tTwo : F64 := 0x4000000000000000#64
def tQuarter : F64 := 0x3FD0000000000000#64
def tThreeQuarters : F64 := 0x3FE8000000000000#64

/-- The state that a command leaves. -/
def after (i : Instr) (s : State) : State :=
  match exec i s with
  | .next t => t
  | .fault _ => s
  | .refused _ => s

/-- The state that a step leaves. -/
def stepped (s : State) : State :=
  match step s with
  | .next t => t
  | .fault _ => s
  | .refused _ => s

/-- A block with IQ samples and `FFT_SIZE = n`. -/
def tIq (n : U32) (xs : List Cplx) : State :=
  { State.reset with
    csr := { Csr.reset with fftSize := n, iqLen := BitVec.ofNat 32 xs.length, sampleRate := 48000, audioRate := 48000 }
    mem := memSetWords [] (iqAddr 0) (xs.flatMap fun x => [x.1, x.2]) }

/-- A block with envelope samples and a decoder of 20 words a minute (dot 0.06 s), threshold 0.5 and 1000 samples a second. -/
def tEnv (last : Bool) (dur : F64) (code : List Symbol) (xs : List F64) : State :=
  { State.reset with
    csr := { Csr.reset with envLen := BitVec.ofNat 32 xs.length }
    mc := { valid := true, dot := 0x3FAEB851EB851EB8#64, thr := f64Half, rate := 1000, code := code, text := [], last := last, dur := dur }
    mem := memSetWords [] (envAddr 0) xs }

/-- `s` with a demodulator of mode `m` and ratio `d`, its filters the identity. -/
def tDemod (m : Mode) (d : U32) (s : State) : State :=
  { s with dm := { Demod.reset 5 with
      valid := true, mode := m, fs := d * 48000, fa := 48000, decim := d, kfm := f64One, alpha := f64One,
      pfB := f64One :: List.replicate 10 0, pfA := f64One :: List.replicate 10 0,
      aaB := f64One :: List.replicate 5 0, aaA := f64One :: List.replicate 5 0 } }

/-- `s` with a pending command word. -/
def tPending (w : Word) (s : State) : State := { s with cmd := some w }

/-- The selector and the rates of a construction. -/
def tSelect (sel : BitVec 3) (fs fa : U32) : State :=
  { State.reset with csr := { Csr.reset with modeSel := sel, sampleRate := fs, audioRate := fa } }

/-! ### Well-formedness, decoding and encoding (30_encoding.md R110 to R113) -/

theorem test_wellFormed_refuses_reserved : WellFormedWord 0x100#64 = false ∧ reservedClear 0x100#64 = false := by decide
theorem test_wellFormed_refuses_high_reserved : WellFormedWord 0x8000000000000010#64 = false := by decide
theorem test_wellFormed_refuses_opcode : WellFormedWord 0x02#64 = false ∧ opcodeAssigned 0x02#64 = false := by decide
theorem test_wellFormed_refuses_above_table : WellFormedWord 0x51#64 = false ∧ WellFormedWord 0xFF#64 = false := by decide
theorem test_wellFormed_every_command : Instr.all.all WellFormed = true := by decide

theorem test_decode_nop : decode 0b00000000#64 = .ok .nop := by decide
theorem test_decode_softReset : decode 0b00000001#64 = .ok .softReset := by decide
theorem test_decode_analyze : decode 0b00010000#64 = .ok .analyze := by decide
theorem test_decode_sqEvaluate : decode 0b00100000#64 = .ok .sqEvaluate := by decide
theorem test_decode_demodInit : decode 0b00110000#64 = .ok .demodInit := by decide
theorem test_decode_demodulate : decode 0b00110001#64 = .ok .demodulate := by decide
theorem test_decode_morseInit : decode 0b01000000#64 = .ok .morseInit := by decide
theorem test_decode_morseReset : decode 0b01000001#64 = .ok .morseReset := by decide
theorem test_decode_morseFeed : decode 0b01000010#64 = .ok .morseFeed := by decide
theorem test_decode_processBlock : decode 0b01010000#64 = .ok .processBlock := by decide
theorem test_decode_reserved_bit : decode (0b01010000#64 ||| 1#64 <<< 8) = .error .reservedBits := by decide
theorem test_decode_top_bit : decode (1#64 <<< 63) = .error .reservedBits := by decide
theorem test_decode_unassigned : decode 0x43#64 = .error .unassignedOpcode := by decide
theorem test_decode_truncated : decodeBytes [0x10, 0, 0, 0, 0, 0, 0] = .error .truncated := by decide
theorem test_decode_bytes : decodeBytes [0x31, 0, 0, 0, 0, 0, 0, 0, 0xAB] = .ok (.demodulate, [0xAB]) := by decide
theorem test_tableWord : decodeTableWord 64 0x42 = some .morseFeed ∧ decodeTableWord 64 0x1042 = none := by decide
theorem test_withFetchWord : (stepped (State.reset.withFetchWord 64 0x41)).status.lastOp = 0x41 := by decide +kernel

/-! ### One step of each command -/

/-- 44_control.md R252. -/
theorem test_nop : (after .nop (tPending 0 State.reset)).status.err = 0 ∧ (after .nop (tPending 0 State.reset)).cmd = none := by decide +kernel

/-- 44_control.md R253: a soft reset restores `CTRL` and clears a sticky flag. -/
theorem test_softReset :
    (after .softReset { State.reset with csr := { Csr.reset with sqEn := false }, status := { Status.reset with wrDrop := true } }).csr.sqEn = true ∧
    (after .softReset { State.reset with status := { Status.reset with wrDrop := true } }).status.wrDrop = false := by decide +kernel

/-- 40_spectrum.md R130: `FFT_SIZE = 0` raises `ERR_CFG_FFT` before the length is looked at. -/
theorem test_analyze_fft_size : (after .analyze (tIq 0 [])).status.err = 0x04 := by decide +kernel
/-- 40_spectrum.md R130: one bin of one sample, and the frame's length. -/
theorem test_analyze_length : (after .analyze (tIq 1 [(f64One, 0)])).csr.specLen = 1 := by decide +kernel

/-- 41_squelch.md R152 to R155: a sample of power 1.0 opens a gate of -50 dB: open, last open, primed. -/
theorem test_sqEvaluate_opens : regValue (after .sqEvaluate (tIq 1 [(f64One, 0)])) .sqResult = 0b111#64 := by decide +kernel
/-- 41_squelch.md R156: an empty block reports the closed gate and does not prime. -/
theorem test_sqEvaluate_empty : regValue (after .sqEvaluate (tIq 1 [])) .sqResult = 0b000#64 := by decide +kernel

/-- 42_demod.md R170, 10_state.md R65: FM, 96000 to 48000, gives `D = 2` and `DMODE = 1`, and clears the post-filter's delay line. -/
theorem test_demodInit_fm :
    let s := { tSelect 1 96000 48000 with dm := { Demod.reset 5 with pfZ := List.replicate 10 f64One } }
    regValue (after .demodInit s) .demodInfo = 0x100000002#64 ∧ (after .demodInit s).dm.pfZ = List.replicate 10 f64Zero := by decide +kernel
/-- 42_demod.md R171: 48000 is no multiple of 44100. -/
theorem test_demodInit_ratio : (after .demodInit (tSelect 1 48000 44100)).status.err = 0x08 := by decide +kernel

/-- 42_demod.md R177: no demodulator. -/
theorem test_demodulate_none : (after .demodulate (tIq 1 [(f64One, 0)])).status.err = 0x0E := by decide +kernel
/-- 42_demod.md R181 to R185: in FM the step from phase 0 to atan2(1, 0) = π/2 is clipped to 1.0. -/
theorem test_demodulate_fm_clips : readWord (after .demodulate (tDemod .fm 1 (tIq 1 [(0, f64One)]))) (audioAddr 0) = f64One := by
  decide +kernel

/-- 43_morse.md R220: 1.2 / 20.0. -/
theorem test_morseInit_dot :
    (after .morseInit { State.reset with csr := { Csr.reset with morseRate := 8000 } }).mc.dot = 0x3FAEB851EB851EB8#64 := by decide +kernel
/-- 43_morse.md R220: `MORSE_RATE = 0`. -/
theorem test_morseInit_rate : (after .morseInit State.reset).status.err = 0x0C := by decide +kernel

/-- 43_morse.md R222. -/
theorem test_morseReset : (after .morseReset (tEnv true f64One [.dot] [])).mc.code = [] := by decide +kernel

/-- 43_morse.md R228: a tone of 0.06 s, one dot long, is a dot. -/
theorem test_morseFeed_dot : (after .morseFeed (tEnv true 0x3FAEB851EB851EB8#64 [.dash] [0])).mc.code = [.dash, .dot] := by decide +kernel
/-- 43_morse.md R229, R230, R234: after a gap of 1.0 s the code `.-` is an `A` and a space. -/
theorem test_morseFeed_word : (after .morseFeed (tEnv false f64One [.dot, .dash] [f64One])).csr.textInc = 0x22041#64 := by decide +kernel

/-- 44_control.md R255: without a demodulator a block is analysed and gated. -/
theorem test_processBlock : (after .processBlock (tIq 1 [(f64One, 0)])).sq.isOpenOut = true ∧
    (after .processBlock (tIq 1 [(f64One, 0)])).csr.specLen = 1 := by decide +kernel
/-- 44_control.md R255: CW without a Morse decoder is refused before any effect. -/
theorem test_processBlock_cw : (after .processBlock (tDemod .cw 1 (tIq 1 [(f64One, 0)]))).status.err = 0x0F ∧
    (after .processBlock (tDemod .cw 1 (tIq 1 [(f64One, 0)]))).csr.specLen = 0 := by decide +kernel

/-! ### The host's side -/

/-- 20_memory.md R89, R92: a stored word reads back. -/
theorem test_host_readback :
    (hostAccess (.read 0x100008) (hostAccess (.write 0x100008 0x0123456789ABCDEF#64) State.reset).2).1.data = 0x0123456789ABCDEF#64 := by
  decide +kernel
/-- 30_encoding.md R118: `EXEC NOP` and the wait end with an idle block. -/
theorem test_program_runs :
    ((runSteps 5 (loadProgram [.execute 0] State.reset)).map fun s => (busy s, s.agenda.length)) = some (false, 0) := by decide +kernel

/-! ### Numbers (00_scope.md R15; worked by hand) -/

theorem test_add : f64Add f64One f64One = tTwo ∧ f64Sub f64One tQuarter = tThreeQuarters := by decide
theorem test_div_third : f64Div f64One f64Three = 0x3FD5555555555555#64 := by decide +kernel
theorem test_subnormal : f64Mul 0x0010000000000000#64 f64Half = 0x0008000000000000#64 := by decide +kernel
theorem test_sqrt_two : f64Sqrt tTwo = 0x3FF6A09E667F3BCD#64 := by decide +kernel
theorem test_log10_hundred : refLog10 0x4059000000000000#64 = tTwo := by decide +kernel
theorem test_cos_zero : refCos 0 = f64One := by decide +kernel
theorem test_atan2_quarter_turn : numAtan2 .reference f64One 0 = 0x3FF921FB54442D18#64 := by decide +kernel

/-- 95_test_vectors.md V-DM-2: the AM post-filter at 48000 Hz, `butter_lp(5, 0.625)`. -/
theorem test_butter_lp :
    refButterLp 5 0x3FE4000000000000#64 =
      ([0x3FC05379E3E1AD72#64, 0x3FE468585CDA18CE#64, 0x3FF468585CDA18CE#64, 0x3FF468585CDA18CE#64,
        0x3FE468585CDA18CE#64, 0x3FC05379E3E1AD72#64],
       [0x3FF0000000000000#64, 0x3FF3B77A134650FA#64, 0x3FF2AABE75B5E984#64, 0x3FE0A96E68C3DFF0#64,
        0x3FC2AC1E758C41A2#64, 0x3F905D00DDC0C7B4#64]) := by decide +kernel

/-! ### States that meet the hypotheses of the statements -/

theorem exec_after (i : Instr) (s : State) : exec i s = .next (after i s) := by cases i <;> rfl
theorem step_stepped (s : State) (h : s.cmd = none) (h2 : s.agenda = []) : step s = .next (stepped s) := by
  simp [stepped, step, h2, coreStep, fetchWord, h]

theorem witness_StepRunsThePendingCommand :
    (tPending 0x50 State.reset).cmd = some 0x50 ∧ decode 0x50#64 = .ok .processBlock ∧ WellFormed .processBlock = true ∧
    (tPending 0x50 State.reset).agenda = [] ∧
    { tPending 0x50 State.reset with agenda := [.core, .wait] }.agenda = .core :: [.wait] := by decide
theorem witness_CoreStepDecodesTheWord :
    (tPending 0x100 State.reset).cmd = some 0x100 ∧ BitVec.extractLsb' 8 56 0x100#64 ≠ 0 ∧
    (∀ i : Instr, i.opcode ≠ BitVec.extractLsb' 0 8 0x51#64) ∧
    BitVec.extractLsb' 8 56 0x50#64 = 0 ∧ Instr.processBlock.opcode = BitVec.extractLsb' 0 8 0x50#64 := by
  refine ⟨by decide, by decide, ?_, by decide, by decide⟩
  intro i; cases i <;> decide
theorem witness_StepServesTheAgenda :
    State.reset.cmd = none ∧ State.reset.agenda = [] ∧ { State.reset with agenda := [.core] }.agenda = [.core] ∧
    { State.reset with agenda := [.access (.read 0)] }.agenda = [.access (.read 0)] := by decide

/-- The clauses of the map at the ends of the slots and of a buffer, and below the next buffer. -/
theorem witness_UnmappedAndMisalignedAnswerSlverr :
    ¬ MappedAddress State.reset.params (0x000100 : BusAddr).toNat ∧ ¬ MappedAddress State.reset.params (0x110000 : BusAddr).toNat ∧
    ¬ MappedAddress State.reset.params (0xFFFFF8 : BusAddr).toNat ∧ (0x0000FC : BusAddr).toNat % 8 ≠ 0 := by
  unfold MappedAddress; decide
theorem witness_UnmappedAndMisalignedAnswerSlverr_mapped :
    (MappedAddress State.reset.params (0x0000F8 : BusAddr).toNat ∧ (0x0000F8 : BusAddr).toNat % 8 = 0) ∧
    (MappedAddress State.reset.params (0x10FFF8 : BusAddr).toNat ∧ (0x10FFF8 : BusAddr).toNat % 8 = 0) ∧
    (MappedAddress State.reset.params (0x500FF8 : BusAddr).toNat ∧ (0x500FF8 : BusAddr).toNat % 8 = 0) := by
  unfold MappedAddress; decide
theorem witness_IdleRegisterWriteReadsBack :
    busy State.reset = false ∧ Reg.ctrl ≠ .cmd ∧ regWritable .ctrl = true ∧ Reg.reservedF8 ≠ .cmd ∧ regWritable .reservedF8 = false := by decide
/-- The last word of an `RW` buffer and of an `RO` one. -/
theorem witness_IdleBufferWriteReadsBack :
    State.reset.params.legal = true ∧ busy State.reset = false ∧ 8 * 8191 < regionUsed State.reset.params .iqbuf ∧
    regionWritable .iqbuf = true ∧ 8 * 511 < regionUsed State.reset.params .textbuf ∧ regionWritable .textbuf = false := by decide
theorem witness_BusyWritesAreDropped :
    busy (tPending 0 State.reset) = true ∧
    (MappedAddress (tPending 0 State.reset).params (0x000000 : BusAddr).toNat ∧ (0x000000 : BusAddr).toNat % 8 = 0 ∧ (0 : BusAddr) ≠ 0x08) ∧
    (MappedAddress (tPending 0 State.reset).params (0x000010 : BusAddr).toNat ∧ (0x000010 : BusAddr).toNat % 8 = 0 ∧ (0x10 : BusAddr) ≠ 0x08) := by
  unfold MappedAddress; decide
theorem witness_CommandIssueMakesTheBlockBusy : busy State.reset = false := by decide
theorem witness_ReadsReturnTheValueOrADraw :
    busy State.reset = false ∧ (busy (tPending 0 State.reset) = true ∧ regIsOutput .ctrl = false ∧ regIsOutput .demodInfo = true) ∧
    (tPending 0 State.reset).params.legal = true ∧ 8 * 8191 < regionUsed State.reset.params .iqbuf ∧
    (8 * 4095 < regionUsed State.reset.params .specbuf ∧ Region.specbuf ≠ .iqbuf) := by decide
theorem witness_MorseCodeShowsThePendingCode :
    (tEnv true f64One (List.replicate 32 .dash) []).mc.code.length ≤ 32 ∧ (tEnv true f64One [] []).mc.code.length ≤ 32 ∧
    busy State.reset = false := by decide
theorem witness_ViewRegistersShowHiddenState :
    State.reset.mc.text.length < 2 ^ 32 ∧ State.reset.dm.valid = false ∧ (tDemod .cw 2 State.reset).dm.valid = true := by decide
theorem witness_PowerOnResetDiscardsThePendingCommand :
    { tPending 0x10 State.reset with agenda := [.powerOn, .wait] }.agenda = .powerOn :: [.wait] := by decide
theorem witness_EveryPendingWordCompletes : (tPending 0xFFFFFFFFFFFFFFFF State.reset).cmd = some 0xFFFFFFFFFFFFFFFF := by decide
theorem witness_FailedCommandChangesNothingElse :
    (tPending 0x31 State.reset).cmd = some 0x31 ∧ coreStep (tPending 0x31 State.reset) = .next (after .demodulate (tPending 0x31 State.reset)) ∧
    (after .demodulate (tPending 0x31 State.reset)).status.err ≠ 0 := ⟨by decide, rfl, by decide +kernel⟩

/-! The clauses of the first error, at their boundaries. -/

/-- A gate configuration at given levels. -/
def tGate (thr hyst : F64) (s : State) : State := { s with csr := { s.csr with sqThresholdDb := thr, sqHystDb := hyst } }

theorem witness_fft_clauses :
    fftLength (tIq 0 []) = 0 ∧ State.reset.params.fftMax < fftLength (tIq 4097 []) ∧
    FftLegal (tIq 4096 []) ∧ FftLegal (tIq 1 []) := by unfold FftLegal; decide +kernel
theorem witness_length_clauses :
    State.reset.params.blockMax < iqLength { tIq 1 [] with csr := { (tIq 1 []).csr with iqLen := 4097 } } ∧
    ¬ State.reset.params.blockMax < iqLength { tIq 1 [] with csr := { (tIq 1 []).csr with iqLen := 4096 } } ∧
    State.reset.params.blockMax < envLength { State.reset with csr := { Csr.reset with envLen := 4097 } } := by decide +kernel
theorem witness_nonfinite_clauses :
    (∃ n < iqLength (tIq 1 [(f64One, f64Inf)]),
      f64IsFinite (iqSample (tIq 1 [(f64One, f64Inf)]) n).1 = false ∨ f64IsFinite (iqSample (tIq 1 [(f64One, f64Inf)]) n).2 = false) ∧
    (∃ n < envLength (tEnv true 0 [] [f64NaN]), f64IsFinite (envSample (tEnv true 0 [] [f64NaN]) n) = false) :=
  ⟨⟨0, by decide +kernel, by decide +kernel⟩, ⟨0, by decide +kernel, by decide +kernel⟩⟩
/-- The largest finite values are usable. -/
theorem witness_finite_clauses :
    IqUsable (tIq 1 [(0x7FEFFFFFFFFFFFFF#64, 0xFFEFFFFFFFFFFFFF#64)]) ∧ EnvUsable (tEnv true 0 [] [0x7FEFFFFFFFFFFFFF#64]) := by
  unfold IqUsable EnvUsable; decide +kernel
/-- The levels -100.0, 0.0 and hysteresis 0.0 are legal; the next values outside are not. -/
theorem witness_squelch_clauses :
    SquelchLegal (tGate f64NegHundred 0 State.reset) ∧ SquelchLegal (tGate 0 0 State.reset) ∧ ¬ SquelchLegal (tGate 1 0 State.reset) ∧
    ¬ SquelchLegal (tGate 0xC059000000000001#64 0 State.reset) ∧ ¬ SquelchLegal (tGate 0 0x8000000000000001#64 State.reset) ∧
    ¬ SquelchLegal (tGate f64NaN 0 State.reset) := by unfold SquelchLegal; decide +kernel
theorem witness_unit_clauses :
    State.reset.dm.valid = false ∧ (tDemod .cw 1 State.reset).dm.valid = true ∧ (tDemod .cw 1 State.reset).dm.mode = .cw ∧
    (tDemod .cw 1 State.reset).mc.valid = false ∧ (tEnv true 0 [] []).mc.valid = true := by decide

theorem witness_construction_mode : 5 ≤ (tSelect 5 1 1).csr.modeSel.toNat ∧ (tSelect 4 1 1).csr.modeSel.toNat < 5 := by decide
theorem witness_construction_rate :
    (tSelect 0 0 1).csr.sampleRate.toNat = 0 ∧ (tSelect 0 1 0).csr.audioRate.toNat = 0 ∧
    (tSelect 0 48000 44100).csr.sampleRate.toNat % (tSelect 0 48000 44100).csr.audioRate.toNat ≠ 0 := by decide
/-- The cutoffs at 30000 and 30001, 6000 and 6001. -/
theorem witness_construction_cutoff :
    (tSelect 0 30000 30000).csr.audioRate.toNat ≤ 30000 ∧ CutoffLegal .am (tSelect 0 30001 30001).csr.audioRate.toNat ∧
    (tSelect 3 6000 6000).csr.audioRate.toNat ≤ 6000 ∧ CutoffLegal .lsb (tSelect 3 6001 6001).csr.audioRate.toNat := by
  unfold CutoffLegal; decide
theorem witness_construction_deviation :
    f64Lt f64Zero (0 : F64) = false ∧ (f64IsFinite (1 : F64) = true ∧ f64Lt f64Zero (1 : F64) = true) ∧ f64IsFinite f64Inf = false := by
  decide +kernel
theorem witness_morse_construction :
    ¬ (f64IsFinite (0 : F64) = true ∧ f64Lt f64Zero (0 : F64) = true) ∧
    (f64IsFinite State.reset.csr.morseWpm = true ∧ f64Lt f64Zero State.reset.csr.morseWpm = true) ∧ State.reset.csr.morseRate = 0 ∧
    (1 : U32) ≠ 0 ∧ f64IsFinite f64NaN = false ∧ f64IsFinite State.reset.csr.morseDetThr = true := by decide +kernel

theorem witness_OnlyTheNamedCommandsChangeAFlag :
    (exec .nop State.reset = .next (after .nop State.reset) ∧ Instr.nop ≠ .softReset ∧ Instr.nop ≠ .demodInit ∧ Instr.nop ≠ .morseInit ∧
      Instr.nop ≠ .morseReset ∧ Instr.nop ≠ .morseFeed ∧ Instr.nop ≠ .processBlock) ∧
    (tDemod .fm 1 State.reset).dm.valid = true ∧ (tEnv true 0 [] []).mc.valid = true ∧
    { State.reset with status := { Status.reset with textOvf := true } }.status.textOvf = true := by
  refine ⟨⟨exec_after _ _, ?_⟩, ?_⟩ <;> decide
theorem witness_OnlyConstructionWritesTheDemodulatorConfiguration :
    Instr.demodulate ≠ .demodInit ∧ Instr.demodulate ≠ .softReset ∧
    exec .demodulate (tDemod .fm 1 (tIq 1 [(0, f64One)])) = .next (after .demodulate (tDemod .fm 1 (tIq 1 [(0, f64One)]))) :=
  ⟨by decide, by decide, exec_after _ _⟩
/-- A byte of the text that a feed changes. -/
theorem witness_CommandsWriteOnlyTheirBuffers :
    let s := { tEnv false f64One [.dot, .dash] [f64One] with mem := memSetWord (memSetWords [] (envAddr 0) [f64One]) (textAddr 0) 0 }
    exec .morseFeed s = .next (after .morseFeed s) ∧ readByte (after .morseFeed s) (textAddr 0) ≠ readByte s (textAddr 0) ∧
    s.params.legal = true := ⟨exec_after _ _, by decide +kernel, by decide⟩

theorem witness_AnalyzeWritesTheSpectralFrame :
    FftLegal (tIq 4096 [(f64One, 0)]) ∧ IqUsable (tIq 4096 [(f64One, 0)]) ∧ 0 < iqLength (tIq 4096 [(f64One, 0)]) := by
  unfold FftLegal IqUsable; decide +kernel
theorem witness_AnalyzeOfAnEmptyBlockWritesOnlyTheTags : FftLegal (tIq 1 []) ∧ iqLength (tIq 1 []) = 0 := by unfold FftLegal; decide
/-- Two states that differ in the hidden state alone. -/
theorem witness_AnalyzeDependsOnItsOperandsAlone :
    let s := tIq 1 [(f64One, 0)]
    let s' := tDemod .cw 1 s
    s'.params = s.params ∧ s'.csr.fftSize = s.csr.fftSize ∧ s'.csr.iqLen = s.csr.iqLen ∧
    (∀ n < iqLength s, iqSample s' n = iqSample s n) ∧ exec .analyze s = .next (after .analyze s) ∧
    exec .analyze s' = .next (after .analyze s') ∧ (after .analyze s).status.err = 0 ∧ 0 < (after .analyze s).csr.specLen.toNat ∧
    f64IsNaN (readWord (after .analyze s) (specAddr 0)) = false :=
  ⟨rfl, rfl, rfl, fun _ _ => rfl, exec_after _ _, exec_after _ _, by decide +kernel, by decide +kernel, by decide +kernel⟩
theorem witness_SqEvaluateAdvancesTheGate :
    SquelchLegal (tIq 1 [(f64One, 0)]) ∧ IqUsable (tIq 1 [(f64One, 0)]) ∧ 0 < iqLength (tIq 1 [(f64One, 0)]) := by
  unfold SquelchLegal IqUsable; decide +kernel
theorem witness_SqEvaluateOfAnEmptyBlockReportsTheGate : SquelchLegal (tIq 1 []) ∧ iqLength (tIq 1 []) = 0 := by
  unfold SquelchLegal; decide +kernel
/-- A gate that opens, with the squelch enabled and disabled. -/
theorem witness_GateTogglesOnlyAcrossItsLevels_opening :
    let s := tIq 1 [(f64One, 0)]
    exec .sqEvaluate s = .next (after .sqEvaluate s) ∧ (after .sqEvaluate s).status.err = 0 ∧ s.sq.lastOpen = false ∧
    (after .sqEvaluate s).sq.lastOpen = true ∧ iqLength s ≠ 0 ∧
    f64Lt s.csr.sqThresholdDb (regValue (after .sqEvaluate s) .sqPowerDb) = true ∧ s.csr.sqEn = true ∧
    { s with csr := { s.csr with sqEn := false } }.csr.sqEn = false :=
  ⟨exec_after _ _, by decide +kernel, by decide, by decide +kernel, by decide, by decide +kernel, by decide, by decide⟩
/-- A gate that closes: an open one, not primed, on a block of zeros. -/
theorem witness_GateTogglesOnlyAcrossItsLevels_closing :
    let s := { tIq 1 [(0, 0)] with sq := { Squelch.reset with lastOpen := true } }
    exec .sqEvaluate s = .next (after .sqEvaluate s) ∧ (after .sqEvaluate s).status.err = 0 ∧ s.sq.lastOpen = true ∧
    (after .sqEvaluate s).sq.lastOpen = false ∧ iqLength s ≠ 0 ∧
    f64Lt (regValue (after .sqEvaluate s) .sqPowerDb) (f64Sub s.csr.sqThresholdDb s.csr.sqHystDb) = true :=
  ⟨exec_after _ _, by decide +kernel, by decide, by decide +kernel, by decide, by decide +kernel⟩

/-- One construction for each mode, at the lowest legal audio rates, with and without decimation. -/
theorem witness_DemodInitConstructsTheDemodulator :
    (1 ≤ (tSelect 0 30001 30001).csr.sampleRate.toNat ∧
      (tSelect 0 60002 30001).csr.sampleRate.toNat % (tSelect 0 60002 30001).csr.audioRate.toNat = 0 ∧
      1 < (tSelect 0 60002 30001).csr.sampleRate.toNat / (tSelect 0 60002 30001).csr.audioRate.toNat) ∧
    (∀ m, CutoffLegal m 30001) ∧ CutoffLegal .usb 6001 ∧ CutoffLegal .fm 1 ∧ (∀ m, DeviationLegal m (tSelect 1 1 1).csr.fmDeviationHz) := by
  refine ⟨by decide, ?_, by unfold CutoffLegal; decide, trivial, ?_⟩
  · intro m; cases m <;> unfold CutoffLegal <;> decide
  · intro m _; decide +kernel
theorem witness_DemodulateOfAnEmptyBlockWritesOnlyTheLengths :
    (tDemod .cw 1 (tIq 1 [])).dm.valid = true ∧ iqLength (tDemod .cw 1 (tIq 1 [])) = 0 := by decide
/-- Three samples at `D = 2`: two audio samples, so that every clause of the differences and of the recurrence has an element. -/
theorem witness_DemodulateInFmRunsThePipeline :
    let s := tDemod .fm 2 (tIq 1 [(0, f64One), (f64One, 0), (0, f64One)])
    s.dm.valid = true ∧ s.dm.mode = .fm ∧ IqUsable s ∧ 0 < iqLength s ∧ 1 + 1 < iqLength s ∧ 0 < s.dm.decim.toNat ∧
    f64Lt tTwo f64NegOne = false ∧ f64Lt f64One tTwo = true ∧ f64Lt f64One f64One = false := by unfold IqUsable; decide +kernel
theorem witness_DemodulateInTheFilteredModesRunsThePipeline :
    (tDemod .cw 1 (tIq 1 [(0, f64One)])).params.legal = true ∧ (tDemod .cw 1 (tIq 1 [(0, f64One)])).dm.valid = true ∧
    (tDemod .cw 1 (tIq 1 [(0, f64One)])).dm.mode ≠ .fm ∧ (tDemod .usb 1 (tIq 1 [(0, f64One)])).dm.mode ≠ .fm ∧
    IqUsable (tDemod .cw 1 (tIq 1 [(0, f64One)])) ∧ 0 < iqLength (tDemod .cw 1 (tIq 1 [(0, f64One)])) := by unfold IqUsable; decide +kernel
theorem witness_DecimatorKeepsThePhaseZeroSamples : 1 ≤ 2 ∧ 1 < 2 := by decide
theorem witness_FilterStepIsDirectFormTwoTransposed :
    1 ≤ 2 ∧ [f64One, f64Half, tQuarter].length = 2 + 1 ∧ [f64One, tQuarter, f64Half].length = 2 + 1 ∧ [f64Zero, f64Zero].length = 2 ∧
    0 + 1 < 2 := by decide
/-- A jump of 4.0 radians, which the unwrap corrects. -/
theorem witness_UnwrapAddsTheRunningCorrection :
    let d : List F64 := [f64Zero, 0x4010000000000000#64]
    let corr := fun n => if n = 0 then f64Zero else 0xC01921FB54442D18#64
    corr 0 = f64Zero ∧
    (∀ n, n + 1 < d.length →
      let dd := f64Sub (d.getD (n + 1) f64Zero) (d.getD n f64Zero)
      let r0 := f64Fmod (f64Add dd Config.pi) (f64Mul f64Two Config.pi)
      let r1 := if f64Lt r0 f64Zero then f64Add r0 (f64Mul f64Two Config.pi) else r0
      let r := if f64Eq r1 f64Zero then f64Zero else r1
      let dm := f64Sub r Config.pi
      let dm' := if f64Eq dm (f64Negate Config.pi) ∧ f64Lt f64Zero dd then Config.pi else dm
      corr (n + 1) = f64Add (corr n) (if f64Lt (f64Abs dd) Config.pi then f64Zero else f64Sub dm' dd)) := by
  refine ⟨rfl, ?_⟩
  intro n hn
  have h : n = 0 := by simp at hn; omega
  subst h
  decide +kernel
theorem witness_FmAudioIsClipped :
    let s := tDemod .fm 1 (tIq 1 [(0, f64One)])
    exec .demodulate s = .next (after .demodulate s) ∧ (after .demodulate s).status.err = 0 ∧ s.dm.mode = .fm ∧
    s.params.blockMax ≤ 65536 ∧ 0 < (after .demodulate s).csr.audioLen.toNat :=
  ⟨exec_after _ _, by decide +kernel, by decide, by decide, by decide +kernel⟩
theorem witness_NormalisationDividesByThePeak :
    [f64NaN, f64One] ≠ [] ∧ (∃ v ∈ [f64NaN, f64One], f64IsNaN v = true) ∧ (∀ v ∈ [tQuarter, f64NegOne], f64IsNaN v = false) ∧
    (∀ v ∈ [(0 : F64)], f64IsNaN v = false) ∧ f64Eq (blockPeak [0]) f64Zero = true ∧
    f64Eq (blockPeak [tQuarter, f64NegOne]) f64Zero = false := by
  refine ⟨List.cons_ne_nil _ _, ⟨f64NaN, List.mem_cons_self, by decide⟩, ?_, ?_, by decide +kernel, by decide +kernel⟩
  · intro v h
    obtain rfl | rfl : v = tQuarter ∨ v = f64NegOne := by simpa using h
    · decide
    · decide
  · intro v h
    obtain rfl : v = 0 := by simpa using h
    decide
theorem witness_UsbEqualsLsb :
    (tDemod .usb 1 (tIq 1 [(f64One, 0)])).dm.mode = .usb ∧
    exec .demodulate (tDemod .usb 1 (tIq 1 [(f64One, 0)])) = .next (after .demodulate (tDemod .usb 1 (tIq 1 [(f64One, 0)]))) :=
  ⟨by decide, exec_after _ _⟩

theorem witness_MorseInitConstructsTheDecoder :
    let s := { State.reset with csr := { Csr.reset with morseRate := 1 } }
    f64IsFinite s.csr.morseWpm = true ∧ f64Lt f64Zero s.csr.morseWpm = true ∧ s.csr.morseRate ≠ 0 ∧
    f64IsFinite s.csr.morseDetThr = true := by decide +kernel
theorem witness_MorseFeedOfAnEmptyEnvelopeClearsTheIncrement :
    (tEnv true 0 [] []).mc.valid = true ∧ envLength (tEnv true 0 [] []) = 0 := by decide

/-- The mean of one sample, compared with the threshold as the feed compares it. -/
theorem witness_feed_steady :
    let s := tEnv false f64One [] [0]
    s.mc.valid = true ∧ EnvUsable s ∧ 0 < envLength s ∧
    f64Lt s.mc.thr (f64Div (f64Sum ((List.range (envLength s)).map (envSample s))) (f64OfNat (envLength s))) = s.mc.last := by
  unfold EnvUsable; decide +kernel
/-- A tone that ends, at the dash threshold 0.7 × (3 × 0.06) and at the dot threshold 0.5 × 0.06, and one shorter, with a full code. -/
theorem witness_feed_tone :
    let s := tEnv true (dashThreshold 0x3FAEB851EB851EB8#64) [] [0]
    s.mc.valid = true ∧ EnvUsable s ∧ 0 < envLength s ∧ s.mc.last = true ∧
    f64Lt s.mc.thr (f64Div (f64Sum ((List.range (envLength s)).map (envSample s))) (f64OfNat (envLength s))) = false ∧
    f64Le (f64Mul 0x3FE6666666666666#64 (f64Mul 0x4008000000000000#64 s.mc.dot)) s.mc.dur = true ∧ s.mc.code.length < 32 ∧
    f64Le (dashThreshold s.mc.dot) (dotThreshold s.mc.dot) = false ∧ f64Le (dotThreshold s.mc.dot) (dotThreshold s.mc.dot) = true ∧
    f64Le (dotThreshold s.mc.dot) 0 = false ∧ 32 ≤ (tEnv true 0 (List.replicate 32 .dot) [0]).mc.code.length := by
  unfold EnvUsable; decide +kernel
theorem witness_feed_gap :
    let s := tEnv false (wordGapThreshold 0x3FAEB851EB851EB8#64) [.dot] [f64One]
    s.mc.valid = true ∧ EnvUsable s ∧ 0 < envLength s ∧ s.mc.last = false ∧
    f64Lt s.mc.thr (f64Div (f64Sum ((List.range (envLength s)).map (envSample s))) (f64OfNat (envLength s))) = true := by
  unfold EnvUsable; decide +kernel
theorem witness_MorseIncrementIsAtMostACharacterAndASpace :
    let s := tEnv false f64One [.dot, .dash] [f64One]
    exec .morseFeed s = .next (after .morseFeed s) ∧ (after .morseFeed s).status.err = 0 ∧
    ((after .morseFeed s).csr.textInc.extractLsb' 16 2).toNat = 2 := ⟨exec_after _ _, by decide +kernel, by decide +kernel⟩
theorem witness_MorseTableIsInternationalMorseCode :
    [Symbol.dot, .dash, .dot, .dash] ∉ morseTable.map (fun e => codeOfString e.1) ∧ 5 < [Symbol.dot, .dot, .dot, .dot, .dot, .dot].length := by
  decide +kernel

/-- A block that opens the gate for a CW demodulator with a Morse decoder, and the same without a demodulator. -/
theorem witness_ProcessBlockRunsTheUnitsInOrder :
    let s := { tDemod .cw 1 (tIq 1 [(f64One, 0)]) with mc := (tEnv true 0 [] []).mc }
    s.params.legal = true ∧ FftLegal s ∧ SquelchLegal s ∧ (s.dm.valid = true → s.dm.mode = .cw → s.mc.valid = true) ∧ IqUsable s ∧
    (after .sqEvaluate (after .analyze s)).dm.valid = true ∧ (after .sqEvaluate (after .analyze s)).sq.isOpenOut = true ∧
    EnvUsable (after .demodulate (after .sqEvaluate (after .analyze s))) ∧
    (after .sqEvaluate (after .analyze (tIq 1 [(f64One, 0)]))).dm.valid = false ∧ (tDemod .fm 1 s).dm.mode ≠ .cw := by
  unfold FftLegal SquelchLegal IqUsable EnvUsable; decide +kernel
theorem witness_ClosedGateStopsAudioAndMorse :
    let s := tDemod .fm 1 (tIq 1 [(0, 0)])
    exec .processBlock s = .next (after .processBlock s) ∧ (after .processBlock s).status.err = 0 ∧
    (after .processBlock s).sq.isOpenOut = false ∧ (tIq 1 [(0, 0)]).dm.valid = false :=
  ⟨exec_after _ _, by decide +kernel, by decide +kernel, by decide⟩

theorem witness_HostAccessesWhileBusyDoNotReachTheCore : busy (tPending 0x50 State.reset) = true := by decide
theorem witness_WaitEndsWithAnIdleBlock :
    { tPending 0x50 State.reset with agenda := [.wait, .core] }.agenda = .wait :: [.core] := by decide

/-- A state away from reset that meets the invariant: an `A` decoded, a demodulator with `D = 2`, a frame of one bin. -/
theorem witness_StepKeepsTheInvariant :
    let s := { tDemod .usb 2 (tEnv true f64One [.dash] []) with
      csr := { Csr.reset with specLen := 1, textInc := 0x10041#64 }
      mc := { (tEnv true f64One [.dash] []).mc with text := [0x41] }
      mem := [(specAddr 0, 0), (textAddr 0, 0x41)] }
    Inv s ∧ step s = .next (stepped s) := by
  refine ⟨⟨by decide, ⟨by decide, by decide⟩, ⟨by decide, ?_⟩, ⟨by decide, by decide⟩, ?_, ⟨by decide, by decide⟩, by unfold ErrOk; decide⟩,
    step_stepped _ rfl rfl⟩
  · intro i h
    have h0 : i = 0 := by simpa using h
    subst h0
    rfl
  · intro _
    refine ⟨by decide, by decide, by decide, by decide, fun _ => by unfold FilterShape; decide, ?_⟩
    intro k hk
    have h : k = 10 := by simpa [tDemod, postOrder] using hk.symm
    subst h
    unfold FilterShape
    decide
theorem witness_IntegerConversionIsExact : 4294967295 < 2 ^ 32 := by decide
theorem witness_ArithmeticRoundsToNearestEven :
    f64IsFinite f64One = true ∧ f64IsFinite f64Three = true ∧ f64IsFinite (f64Add f64One f64Three) = true ∧
    f64IsFinite (f64Sub f64One f64Three) = true ∧ f64IsFinite (f64Mul f64One f64Three) = true ∧ f64IsZero f64Three = false ∧
    f64IsFinite (f64Div f64One f64Three) = true := by decide +kernel
/-- Remainders of both signs, a NaN, and `atan2` at the zeros and at a negative number. -/
theorem witness_SumsComparisonsRemaindersAndAnglesAreAsStated :
    [f64One, tTwo] ≠ [] ∧ (f64IsFinite f64NegOne = true ∧ f64IsFinite tQuarter = true ∧ f64IsZero tQuarter = false) ∧ f64IsNaN f64NaN = true ∧
    (f64IsNaN f64Zero = false ∧ f64IsNaN 0x8000000000000000#64 = false) ∧ f64Lt f64NegOne f64Zero = true ∧ f64Lt f64Zero f64One = true ∧
    f64Lt f64Zero f64Zero = false ∧ f64Lt f64Zero 0x8000000000000000#64 = false ∧ f64Lt 0x8000000000000000#64 f64Zero = false := by decide

end Sys2Proof.Machine
end

-- ==== Proofs: the MORSE_CODE view ====
section
/-! The proof of `MorseCodeShowsThePendingCode` (10_state.md R57): the word is read bit by bit, and each field of the rule is a range of
those bits. -/

namespace Sys2Proof.Machine

/-- A range of bits that are all clear is a zero field. -/
theorem extractLsb'_eq_zero_of_bits {w : Word} {start len : Nat} (h : ∀ i < len, w.getLsbD (start + i) = false) :
    w.extractLsb' start len = 0 := by
  refine BitVec.eq_of_getLsbD_eq fun i hi => ?_
  simp [hi, h i hi]

/-- The three fields of `MORSE_CODE`, at the places that R57 gives them. -/
theorem morseCodeWord_get (s : State) (j : Nat) (hj : j < 64) :
    (morseCodeWord s).getLsbD j =
      (decide (j < 6) && s.mc.code.length.testBit j ||
       decide (8 ≤ j ∧ j < 40) && (s.mc.code[j - 8]? == some .dash) ||
       s.mc.last && decide (j = 40)) := by
  have hwidth : 8 ≤ j → (j - 8 < 32 ↔ j < 40) := by omega
  rw [morseCodeWord, BitVec.getLsbD_or, BitVec.getLsbD_or, field_get _ _ _ hj, field_get _ _ _ hj, flagBit_get _ _ _ hj,
    BitVec.getLsbD_ofNat, BitVec.getLsbD_ofNat, symbolBits_testBit]
  by_cases h8 : 8 ≤ j <;> simp [h8, hwidth, eq_comm]

/-- The bits between the fields of R57 and above the last one are clear. -/
theorem morseCodeWord_reserved (s : State) (j : Nat) (hj : 6 ≤ j ∧ j < 8 ∨ 41 ≤ j ∧ j < 64) : (morseCodeWord s).getLsbD j = false := by
  have hlow : ¬ j < 6 := by omega
  have hmid : ¬ (8 ≤ j ∧ j < 40) := by omega
  have htop : j ≠ 40 := by omega
  simp [morseCodeWord_get s j (by omega), hlow, hmid, htop]

/-- `PENDING_LEN` holds every length that its six bits can. -/
theorem morseCodeWord_length (s : State) (h : s.mc.code.length < 64) :
    ((morseCodeWord s).extractLsb' 0 6).toNat = s.mc.code.length := by
  have hfield : (morseCodeWord s).extractLsb' 0 6 = BitVec.ofNat 6 s.mc.code.length := by
    refine BitVec.eq_of_getLsbD_eq fun i hi => ?_
    have hlow : ¬ 8 ≤ i ∧ i ≠ 40 := by omega
    rw [BitVec.getLsbD_extractLsb', BitVec.getLsbD_ofNat, morseCodeWord_get s _ (by omega)]
    simp [hi, hlow]
  rw [hfield, BitVec.toNat_ofNat, Nat.mod_eq_of_lt h]

/-- A write to a read-only register of an idle block changes nothing; `CMD` is the one other register that accepts a write
(10_state.md R32, R61). -/
theorem hostWrite_readOnly (s : State) (r : Reg) (v : Word) (hidle : busy s = false) (hro : regWritable r = false) (hcmd : r ≠ .cmd) :
    (hostWrite s (regAddr r) v).2 = s := by
  have hwrite : hostWrite s (regAddr r) v = idleWrite s v (.reg r) := by simp [hostWrite, hidle, locate_regAddr]
  rw [hwrite]
  cases r with
  | cmd => exact absurd rfl hcmd
  | ctrl | mode | sampleRate | audioRate | fftSize | iqLen | centerFreq | sqThresholdDb | sqHystDb | fmDeviationHz
  | morseWpm | morseDetThr | morseRate | envLen => cases hro
  | _ => rfl

/-- Settles O14: the bits of each field of R57 are those that `morseCodeWord_get` gives. -/
theorem morseCodeShowsThePendingCode : Obligations.MorseCodeShowsThePendingCode := by
  refine ⟨fun s hlen => ⟨morseCodeWord_length s (by omega), ?reserved_low, ?symbols, ?last, ?reserved_high⟩,
    ?reset, rfl, fun s v hidle => hostWrite_readOnly s .morseCode v hidle rfl (by decide)⟩
  case reserved_low => exact extractLsb'_eq_zero_of_bits fun i hi => morseCodeWord_reserved s _ (by omega)
  case symbols =>
    intro i hi
    have hplace : ¬ 8 + i < 6 ∧ 8 + i < 40 ∧ 8 + i ≠ 40 := by omega
    simp [regValue, morseCodeWord_get s (8 + i) (by omega), hplace]
  case last => exact (morseCodeWord_get s 40 (by decide)).trans (by simp)
  case reserved_high => exact extractLsb'_eq_zero_of_bits fun i hi => morseCodeWord_reserved s _ (by omega)
  case reset => rfl

end Sys2Proof.Machine
end

-- ==== Proofs: where a host access answers OKAY ====
section
/-! The proof of `UnmappedAndMisalignedAnswerSlverr` (20_memory.md R84, R91): an access names a place exactly when its address is mapped
and aligned, and what a read or a write answers depends only on whether it names one. -/

namespace Sys2Proof.Machine

/-- The target is a register or a buffer word, so that the access is performed (20_memory.md R84, R91). -/
def namesPlace : Target → Bool
  | .reg _ => true
  | .buffer _ _ => true
  | .unmapped => false
  | .misaligned => false

/-- An address lies in the size used of a buffer exactly when it is between its two ends. -/
theorem inRegion_iff (p : Params) (n : Nat) (r : Region) :
    inRegion p n r = true ↔ regionBase r ≤ n ∧ n < regionBase r + regionUsed p r := by
  rw [inRegion, Bool.and_eq_true, decide_eq_true_eq, decide_eq_true_eq]

/-- The mapped addresses are the register slots and the sizes used of the buffers (20_memory.md R81, R84). -/
theorem mappedAddress_iff (p : Params) (n : Nat) : MappedAddress p n ↔ n < 0x100 ∨ mapped p n = true := by
  simp [MappedAddress, mapped, Region.all, inRegion_iff, regionBase, regionUsed]

/-- An address that is not a multiple of 8 is misaligned, mapped or not (20_memory.md R91). -/
theorem locate_misaligned (p : Params) {n : Nat} (h : n % 8 ≠ 0) : locate p n = .misaligned := if_pos h

/-- An aligned address names a place exactly when it is mapped. -/
theorem namesPlace_locate_aligned (p : Params) {n : Nat} (h8 : n % 8 = 0) :
    namesPlace (locate p n) = true ↔ MappedAddress p n := by
  rw [mappedAddress_iff]
  by_cases hslot : n < 0x100
  case pos =>
    obtain ⟨r, -, hreg⟩ := locate_reg p n h8 hslot
    simp [hreg, namesPlace, hslot]
  case neg =>
    rw [locate_high p n h8 hslot, or_iff_right hslot, mapped, ← List.isSome_find?]
    cases Region.all.find? (inRegion p n) with
    | some | none => simp [namesPlace]

/-- An access names a place exactly when its address is mapped and a multiple of 8. -/
theorem namesPlace_locate (p : Params) (n : Nat) : namesPlace (locate p n) = true ↔ MappedAddress p n ∧ n % 8 = 0 := by
  by_cases h8 : n % 8 = 0
  · rw [namesPlace_locate_aligned p h8, and_iff_left h8]
  · simp [locate_misaligned p h8, namesPlace, h8]

/-! ### What an access answers -/

/-- A read that names no place answers `SLVERR` with 0, and not even the count of free values moves. -/
theorem hostRead_of_noPlace {s : State} {addr : BusAddr} (h : namesPlace (locate s.params addr.toNat) = false) :
    hostRead s addr = (slverrReply, s) := by
  unfold hostRead
  cases hl : locate s.params addr.toNat with
  | reg | buffer => rw [hl] at h; cases h
  | unmapped | misaligned => simp [isOutput, idleRead]

/-- A write that names no place answers `SLVERR` and sets no sticky flag. -/
theorem hostWrite_of_noPlace {s : State} {addr : BusAddr} (v : Word) (h : namesPlace (locate s.params addr.toNat) = false) :
    hostWrite s addr v = (slverrReply, s) := by
  unfold hostWrite
  cases hl : locate s.params addr.toNat with
  | reg | buffer => rw [hl] at h; cases h
  | unmapped | misaligned => exact ite_self _

/-- A read of a place answers `OKAY`, with a free value or with what the place holds. -/
theorem hostRead_okay {s : State} {addr : BusAddr} (h : namesPlace (locate s.params addr.toNat) = true) :
    (hostRead s addr).1.response = .okay := by
  unfold hostRead
  cases hl : locate s.params addr.toNat with
  | reg | buffer => dsimp only; split <;> rfl
  | unmapped | misaligned => rw [hl] at h; cases h

/-- A dropped write to a place of a busy block answers `OKAY` (70_reset_and_hazards.md R310, R311). -/
theorem busyWrite_okay (s : State) {t : Target} (h : namesPlace t = true) : (busyWrite s t).1 = okayReply := by
  cases t with
  | reg r => cases r <;> rfl
  | buffer => rfl
  | unmapped | misaligned => cases h

/-- A write to a place of an idle block answers `OKAY`, also where the place ignores it (10_state.md R61; 20_memory.md R81). -/
theorem idleWrite_okay (s : State) (v : Word) {t : Target} (h : namesPlace t = true) : (idleWrite s v t).1 = okayReply := by
  cases t with
  | reg r => cases r <;> rfl
  | buffer => rfl
  | unmapped | misaligned => cases h

/-- A write to a place answers `OKAY`, busy or not. -/
theorem hostWrite_okay {s : State} {addr : BusAddr} (v : Word) (h : namesPlace (locate s.params addr.toNat) = true) :
    (hostWrite s addr v).1 = okayReply := by
  unfold hostWrite
  dsimp only
  split
  · exact busyWrite_okay s h
  · exact idleWrite_okay s v h

/-- Settles O7: the addresses that name no place are the unmapped and the misaligned ones, by `namesPlace_locate`. -/
theorem unmappedAndMisalignedAnswerSlverr : Obligations.UnmappedAndMisalignedAnswerSlverr := by
  intro s addr v
  have hplace := namesPlace_locate s.params addr.toNat
  refine ⟨fun hbad => ?refused, fun hmapped h8 => ?accepted⟩
  case refused =>
    have hno : namesPlace (locate s.params addr.toNat) = false := by
      rw [Bool.eq_false_iff, ne_eq, hplace]
      exact fun ⟨hmapped, h8⟩ => hbad.elim (· hmapped) (· h8)
    exact ⟨hostRead_of_noPlace hno, hostWrite_of_noPlace v hno⟩
  case accepted =>
    have hyes := hplace.mpr ⟨hmapped, h8⟩
    exact ⟨hostRead_okay hyes, congrArg Reply.response (hostWrite_okay v hyes)⟩

end Sys2Proof.Machine
end

-- ==== Proofs: the encoding of the commands ====
section
/-! The proof of `DecodeAndEncodeAgree` (30_encoding.md R112): a word is its two fields, so the words that `decode_eq_ok` accepts are the
encodings; the clause on byte sequences follows from the bytes of a word giving that word back. -/

namespace Sys2Proof.Machine

/-- The field `OP` of an encoded command is its opcode (30_encoding.md R112). -/
@[simp] theorem cmdOp_encode (i : Instr) : cmdOp (encode i) = i.opcode := by
  rw [cmdOp, encode, BitVec.extractLsb'_setWidth_of_le (by decide), BitVec.extractLsb'_eq_self]

/-- The reserved field of an encoded command is clear (30_encoding.md R110). -/
@[simp] theorem cmdRsv_encode (i : Instr) : cmdRsv (encode i) = 0 := by
  refine BitVec.eq_of_getLsbD_eq fun j hj => ?_
  simp [cmdRsv, encode]

/-- The two fields of a command word determine it. -/
theorem cmdWord_ext {v w : Word} (hrsv : cmdRsv v = cmdRsv w) (hop : cmdOp v = cmdOp w) : v = w := by
  refine BitVec.eq_of_toNat_eq ?_
  rw [cmdWord_split v, cmdWord_split w, hrsv, hop]

/-- The decoder accepts exactly the encodings. -/
theorem decode_eq_ok_iff_eq_encode (w : Word) (i : Instr) : decode w = .ok i ↔ w = encode i := by
  rw [decode_eq_ok]
  constructor
  · rintro ⟨hrsv, hop⟩
    exact cmdWord_ext (hrsv.trans (cmdRsv_encode i).symm) (hop.symm.trans (cmdOp_encode i).symm)
  · rintro rfl
    exact ⟨cmdRsv_encode i, (cmdOp_encode i).symm⟩

/-- The bytes of a word are read as that word, whatever follows them (20_memory.md R89; 30_encoding.md R115). -/
theorem decodeBytes_bytesOfWord_append (w : Word) (rest : List Byte) :
    decodeBytes (bytesOfWord w ++ rest) = (decode w).map fun i => (i, rest) := by
  have hlen : ¬ (bytesOfWord w ++ rest).length < 8 := by simp
  rw [decodeBytes, if_neg hlen, List.take_left' (bytesOfWord_length w), List.drop_left' (bytesOfWord_length w),
    wordOfBytes_bytesOfWord]

/-- The decoder reads an encoded command off the head of a byte sequence and leaves the rest. -/
theorem decodeBytes_encodeBytes_append (i : Instr) (rest : List Byte) :
    decodeBytes (encodeBytes i ++ rest) = .ok (i, rest) := by
  rw [encodeBytes, decodeBytes_bytesOfWord_append, (decode_eq_ok_iff_eq_encode _ i).mpr rfl]
  rfl

/-- The table lists every command. -/
theorem mem_instr_all (i : Instr) : i ∈ Instr.all := by cases i <;> decide

/-- Settles O1: both ways of the round trip are `decode_eq_ok_iff_eq_encode`. -/
theorem decodeAndEncodeAgree : Obligations.DecodeAndEncodeAgree :=
  ⟨decode_eq_ok_iff_eq_encode, by decide, fun i rest => ⟨mem_instr_all i, decodeBytes_encodeBytes_append i rest⟩⟩

end Sys2Proof.Machine
end

-- ==== Proofs: the decode at the core step ====
section
/-! The proof of `CoreStepDecodesTheWord` (30_encoding.md R111): the hypothesis of each clause says through `decode_eq_ok` what the decoder
answers, and the core step follows that answer. -/

namespace Sys2Proof.Machine

/-- A word with a reserved bit set or with an opcode of no command decodes to no command (30_encoding.md R113). -/
theorem decode_ne_ok_of_illegal {w : Word} (h : cmdRsv w ≠ 0 ∨ ∀ i : Instr, i.opcode ≠ cmdOp w) (i : Instr) :
    decode w ≠ .ok i := by
  rw [ne_eq, decode_eq_ok]
  rintro ⟨hrsv, hop⟩
  exact h.elim (· hrsv) (· i hop)

/-- An illegal word completes with `ERR_ILLEGAL_CMD` and has no other effect (30_encoding.md R111). -/
theorem coreStep_of_illegal {s : State} {w : Word} (hw : s.cmd = some w)
    (h : cmdRsv w ≠ 0 ∨ ∀ i : Instr, i.opcode ≠ cmdOp w) :
    coreStep s = .next (complete (cmdOp w) .illegalCmd s) := by
  obtain ⟨_, _, hstep⟩ | ⟨i, hi, _, _⟩ := coreStep_cases s w hw
  · exact hstep
  · exact absurd hi (decode_ne_ok_of_illegal h i)

/-- A legal word is run as the command it decodes to (30_encoding.md R111). -/
theorem coreStep_of_decode {s : State} {w : Word} {i : Instr} (hw : s.cmd = some w) (hi : decode w = .ok i) :
    coreStep s = exec i s := by
  simp [coreStep, fetchWord, hw, hi]

/-- Every command completes with its own opcode in `LAST_OP` (44_control.md R251). -/
theorem exec_lastOp (i : Instr) (s : State) : ∃ t, exec i s = .next t ∧ t.status.lastOp = i.opcode :=
  ⟨_, exec_eq i s, runCommand_lastOp ..⟩

/-- Settles O5: the decoder's answer picks the clause, `coreStep_of_illegal` or `coreStep_of_decode`. -/
theorem coreStepDecodesTheWord : Obligations.CoreStepDecodesTheWord := by
  intro s w hw
  refine ⟨coreStep_of_illegal hw, fun i hrsv hop => ?legal⟩
  case legal =>
    have hi : decode w = .ok i := (decode_eq_ok w i).mpr ⟨hrsv, hop⟩
    exact ⟨coreStep_of_decode hw hi, hop ▸ exec_lastOp i s⟩

end Sys2Proof.Machine
end

-- ==== Proofs: the spectral analyser on an empty block ====
section
/-! The proof of `AnalyzeOfAnEmptyBlockWritesOnlyTheTags` (40_spectrum.md R133): an empty block passes every check of `ANALYZE` for a legal
FFT size, and its effects are an empty frame with the tags. -/

namespace Sys2Proof.Machine

/-- The frame of an empty block has no bin (40_spectrum.md R133). -/
theorem analyzeEffect_of_empty {s : State} (h : iqLength s = 0) : analyzeEffect s = setSpecLen (tagFrame s) 0 := if_pos h

/-- Settles O28: the checks pass because an empty block is usable, so the command completes with the effects of `analyzeEffect_of_empty`. -/
theorem analyzeOfAnEmptyBlockWritesOnlyTheTags : Obligations.AnalyzeOfAnEmptyBlockWritesOnlyTheTags := by
  intro s hfft hempty
  have hpass : firstError (checksOf .analyze s) = none := analyze_checks hfft (iqUsable_of_empty hempty)
  calc exec .analyze s
    _ = .next (complete Instr.analyze.opcode .ok (analyzeEffect s)) := exec_of_checks hpass
    _ = .next (complete Instr.analyze.opcode .ok (setSpecLen (tagFrame s) 0)) := by rw [analyzeEffect_of_empty hempty]
    _ = _ := rfl

end Sys2Proof.Machine
end

-- ==== Proofs: the squelch gate on an empty block ====
section
/-! The proof of `SqEvaluateOfAnEmptyBlockReportsTheGate` (41_squelch.md R156): an empty block passes every check of `SQ_EVALUATE` for a
legal squelch configuration, and its effects are the report of the standing gate. -/

namespace Sys2Proof.Machine

/-- An empty block reports the standing gate and leaves the estimate, the gate and the priming (41_squelch.md R156). -/
theorem squelchEffect_of_empty {s : State} (h : iqLength s = 0) :
    squelchEffect s = { s with sq := reportGate s.csr.sqEn s.sq } := if_pos h

/-- Settles O31: only the squelch configuration could fail a check, so the command completes with the effects of `squelchEffect_of_empty`. -/
theorem sqEvaluateOfAnEmptyBlockReportsTheGate : Obligations.SqEvaluateOfAnEmptyBlockReportsTheGate := by
  intro s hlegal hempty
  have hpass : firstError (checksOf .sqEvaluate s) = none := squelch_checks hlegal (iqUsable_of_empty hempty)
  calc exec .sqEvaluate s
    _ = .next (complete Instr.sqEvaluate.opcode .ok (squelchEffect s)) := exec_of_checks hpass
    _ = .next (complete Instr.sqEvaluate.opcode .ok { s with sq := reportGate s.csr.sqEn s.sq }) := by
      rw [squelchEffect_of_empty hempty]
    _ = _ := rfl

end Sys2Proof.Machine
end

-- ==== Proofs: the demodulator on an empty block ====
section
/-! The proof of `DemodulateOfAnEmptyBlockWritesOnlyTheLengths` (42_demod.md R193): an empty block passes every check of `DEMODULATE` where a
demodulator is valid, and its effects are the lengths of `emptyAudio`. -/

namespace Sys2Proof.Machine

/-- An empty block reaches neither the pipeline nor a buffer: only its lengths are written (42_demod.md R193). -/
theorem demodulateEffect_of_empty {s : State} (h : iqLength s = 0) : demodulateEffect s = emptyAudio s := if_pos h

/-- Settles O34: only a missing demodulator could fail a check, so the command completes with the effects of `demodulateEffect_of_empty`. -/
theorem demodulateOfAnEmptyBlockWritesOnlyTheLengths : Obligations.DemodulateOfAnEmptyBlockWritesOnlyTheLengths := by
  intro s hvalid hempty
  have hpass : firstError (checksOf .demodulate s) = none := demodulate_checks hvalid (iqUsable_of_empty hempty)
  calc exec .demodulate s
    _ = .next (complete Instr.demodulate.opcode .ok (demodulateEffect s)) := exec_of_checks hpass
    _ = .next (complete Instr.demodulate.opcode .ok (emptyAudio s)) := by rw [demodulateEffect_of_empty hempty]
    _ = _ := rfl

end Sys2Proof.Machine
end

-- ==== Proofs: the Morse decoder's commands without a block ====
section
/-! The proofs of `MorseResetClearsTheDecoder` (43_morse.md R222) and `MorseFeedOfAnEmptyEnvelopeClearsTheIncrement` (R225): neither command
can raise an error there, so each completes with its effects. -/

namespace Sys2Proof.Machine

/-- Settles O45: `MORSE_RESET` has no check to fail, so it completes with the effects of `morseClear`, decoder or not. -/
theorem morseResetClearsTheDecoder : Obligations.MorseResetClearsTheDecoder := by
  refine ⟨by decide, fun s => ?cleared⟩
  case cleared =>
    have hpass : firstError (checksOf .morseReset s) = none := rfl
    calc exec .morseReset s
      _ = .next (complete Instr.morseReset.opcode .ok (morseClear s)) := exec_of_checks hpass
      _ = _ := rfl

/-- An empty envelope is usable. -/
theorem envUsable_of_empty {s : State} (h : envLength s = 0) : EnvUsable s :=
  ⟨h ▸ Nat.zero_le _, fun n hn => absurd (h ▸ hn) (Nat.not_lt_zero n)⟩

/-- An empty envelope does not reach the state machine: only the increment is cleared (43_morse.md R225). -/
theorem feedEffect_of_empty {s : State} (h : envLength s = 0) : feedEffect s = { s with csr := { s.csr with textInc := 0 } } := if_pos h

/-- Settles O46: only a missing decoder could fail a check, so the command completes with the effects of `feedEffect_of_empty`. -/
theorem morseFeedOfAnEmptyEnvelopeClearsTheIncrement : Obligations.MorseFeedOfAnEmptyEnvelopeClearsTheIncrement := by
  intro s hvalid hempty
  have hpass : firstError (checksOf .morseFeed s) = none := feed_checks hvalid (envUsable_of_empty hempty)
  calc exec .morseFeed s
    _ = .next (complete Instr.morseFeed.opcode .ok (feedEffect s)) := exec_of_checks hpass
    _ = .next (complete Instr.morseFeed.opcode .ok { s with csr := { s.csr with textInc := 0 } }) := by
      rw [feedEffect_of_empty hempty]
    _ = _ := rfl

end Sys2Proof.Machine
end

-- ==== Proofs: the Morse table ====
section
/-! The proof of `MorseTableIsInternationalMorseCode` (43_morse.md R223): the lookup of a listed code gives its own entry, because no two
entries share a code; the lookup of any other code falls through. -/

namespace Sys2Proof.Machine

/-- No two entries of the table have the same code. -/
theorem morseTable_codes_nodup : (morseTable.map fun e => codeOfString e.1).Nodup := by decide

/-- The lookup of an entry's code finds that entry. -/
theorem morseChar_of_mem {e : String × Byte} (he : e ∈ morseTable) : morseChar (codeOfString e.1) = e.2 := by
  have hfind : morseTable.find? (fun d => codeOfString d.1 == codeOfString e.1) = some e := by
    obtain ⟨d, hd⟩ : ∃ d, morseTable.find? (fun d => codeOfString d.1 == codeOfString e.1) = some d :=
      Option.isSome_iff_exists.mp (List.find?_isSome.mpr ⟨e, he, beq_self_eq_true _⟩)
    have hcode : codeOfString d.1 = codeOfString e.1 := by simpa using List.find?_some hd
    rw [hd, List.inj_on_of_nodup_map morseTable_codes_nodup (List.mem_of_find?_eq_some hd) he hcode]
  rw [morseChar, hfind]

/-- The characters of the codes listed in a part of the table are the bytes listed there. -/
theorem map_morseChar_of_subset {es : List (String × Byte)} (hes : es ⊆ morseTable) :
    ((es.map Prod.fst).map fun c => (morseChar (codeOfString c)).toNat) = es.map fun e => e.2.toNat := by
  rw [List.map_map]
  exact List.map_congr_left fun e he => congrArg BitVec.toNat (morseChar_of_mem (hes he))

/-- The codes of the table have at most five symbols. -/
theorem morseTable_code_length_le {e : String × Byte} (he : e ∈ morseTable) : (codeOfString e.1).length ≤ 5 := by
  revert e
  decide

/-- A code of more than five symbols is not in the table, so it decodes to `?` (43_morse.md R223). -/
theorem morseChar_of_long {code : List Symbol} (h : 5 < code.length) : morseChar code = 0x3F := by
  refine morseChar_of_not_mem code fun hmem => ?_
  obtain ⟨e, he, rfl⟩ := List.mem_map.mp hmem
  exact absurd (morseTable_code_length_le he) (Nat.not_le.mpr h)

/-- Settles O51: the letters are the first 26 entries of the table and the digits the rest. -/
theorem morseTableIsInternationalMorseCode : Obligations.MorseTableIsInternationalMorseCode := by
  refine ⟨?letters, ?digits, morseChar_of_not_mem, fun _ => morseChar_of_long⟩
  case letters => exact (map_morseChar_of_subset (List.take_subset 26 morseTable)).trans (by decide)
  case digits => exact (map_morseChar_of_subset (List.drop_subset 26 morseTable)).trans (by decide)

end Sys2Proof.Machine
end

-- ==== Proofs: the command NOP ====
section
/-! The proof of `NopOnlyCompletes` (44_control.md R252): `NOP` has neither a check nor an effect, so the completion is all that it does. -/

namespace Sys2Proof.Machine

/-- Settles O19: `NOP` has no check to fail, so it completes with its effects, and there are none: they are the state itself. -/
theorem nopOnlyCompletes : Obligations.NopOnlyCompletes := by
  refine ⟨by decide, fun s => ?completion⟩
  case completion =>
    have hpass : firstError (checksOf .nop s) = none := rfl
    have hskip : effectOf .nop s = s := rfl
    calc exec .nop s
      _ = .next (complete Instr.nop.opcode .ok (effectOf .nop s)) := exec_of_checks hpass
      _ = .next (complete Instr.nop.opcode .ok s) := by rw [hskip]
      _ = _ := rfl

end Sys2Proof.Machine
end

-- ==== Proofs: a command that raises ====
section
/-! The proof of `FailedCommandChangesNothingElse` (60_exceptions.md R274): success completes with the code 0, so a code other than 0 means
that the step was the completion of the state at entry. -/

namespace Sys2Proof.Machine

/-- A command that reports an error is its completion at entry: its effects are discarded (60_exceptions.md R272, R274). -/
theorem runCommand_of_err_ne_zero {op : Byte} {cs : List (Bool × ErrCode)} {f : State → State} {s : State}
    (herr : (runCommand op cs f s).status.err ≠ 0) : ∃ e, runCommand op cs f s = complete op e s := by
  obtain ⟨e, _, _, hraise⟩ | ⟨_, hok⟩ := runCommand_cases op cs f s
  · exact ⟨e, hraise⟩
  · have hzero : (runCommand op cs f s).status.err = 0 := by rw [hok]; rfl
    exact absurd hzero herr

/-- A core step that reports an error, of a legal word or not, is a completion of the state at entry (60_exceptions.md R274). -/
theorem coreStep_of_err_ne_zero {s t : State} {w : Word} (hw : s.cmd = some w) (hstep : coreStep s = .next t)
    (herr : t.status.err ≠ 0) : ∃ e, t = complete (w.extractLsb' 0 8) e s := by
  obtain ⟨_, _, hillegal⟩ | ⟨i, _, hop, hrun⟩ := coreStep_cases s w hw
  · exact ⟨.illegalCmd, Host.Outcome.next.inj (hstep.symm.trans hillegal)⟩
  · obtain rfl := Host.Outcome.next.inj (hstep.symm.trans hrun)
    exact hop ▸ runCommand_of_err_ne_zero herr

/-- Settles O21: the step is a completion of `s` by `coreStep_of_err_ne_zero`, and a completion writes the completion fields only. -/
theorem failedCommandChangesNothingElse : Obligations.FailedCommandChangesNothingElse := by
  intro s t w hw hstep herr
  obtain ⟨e, rfl⟩ := coreStep_of_err_ne_zero hw hstep herr
  rfl

end Sys2Proof.Machine
end

-- ==== Proofs: the command SOFT_RESET ====
section
/-! The proof of `SoftResetRestoresTheRegisters` (70_reset_and_hazards.md R301): what a register reads after `resetRegisters` depends on no
free value, the completion shows in `STATUS` only, and neither of the two writes a buffer. -/

namespace Sys2Proof.Machine

/-- A completion shows in no register but `STATUS` (44_control.md R251). -/
theorem regValue_complete {r : Reg} (h : r ≠ .status) (op : Byte) (code : ErrCode) (s : State) :
    regValue (complete op code s) r = regValue s r := by
  cases r with
  | status => exact absurd rfl h
  | _ => rfl

/-- Of the registers only `STATUS`, by its `BUSY`, can tell the reset of the registers from power-on: the free values of the hidden state
show in none (70_reset_and_hazards.md R301, R303). -/
theorem regValue_resetRegisters {r : Reg} (h : r ≠ .status) (s : State) : regValue (resetRegisters s) r = regValue State.reset r := by
  cases r with
  | status => exact absurd rfl h
  | _ => rfl

/-- A success right after the reset of the registers leaves in `STATUS` its opcode and no flag (44_control.md R253). -/
theorem statusWord_complete_resetRegisters (op : Byte) (s : State) : statusWord (complete op .ok (resetRegisters s)) = field op 16 := by
  have hidle : busy (complete op .ok (resetRegisters s)) = false := rfl
  have hdm : (demodAfterReset s.draws s.params.aaOrder).valid = false := rfl
  have hmc : (morseAfterReset s.draws).valid = false := rfl
  simp [statusWord, hidle, hdm, hmc, Status.reset, flagBit, field, errByte]

/-- The reset of the registers and its completion keep every buffer byte (20_memory.md R94). -/
theorem sameBytes_complete_resetRegisters (op : Byte) (code : ErrCode) (s : State) :
    SameBytes s (complete op code (resetRegisters s)) :=
  fun a => readByte_congr a (by simp) (by simp)

/-- Settles O18: `SOFT_RESET` has no check to fail, so it completes with the effects of `resetRegisters`. -/
theorem softResetRestoresTheRegisters : Obligations.SoftResetRestoresTheRegisters := by
  intro s
  have hpass : firstError (checksOf .softReset s) = none := rfl
  refine ⟨complete Instr.softReset.opcode .ok (resetRegisters s), exec_of_checks hpass, fun r => ?registers, rfl, rfl, rfl, rfl, rfl, rfl,
    rfl, rfl, sameBytes_complete_resetRegisters _ _ s, effectOf_surroundings .softReset s⟩
  case registers =>
    split
    case isTrue hstatus =>
      subst hstatus
      calc regValue (complete Instr.softReset.opcode .ok (resetRegisters s)) .status
        _ = field Instr.softReset.opcode 16 := statusWord_complete_resetRegisters _ s
        _ = 0x0000000000010000#64 := by decide
    case isFalse hother => exact (regValue_complete hother _ _ _).trans (regValue_resetRegisters hother s)

end Sys2Proof.Machine
end

-- ==== Proofs: the invariant ====
section
/-! The proofs of `ResetMeetsTheInvariant` and `StepKeepsTheInvariant`. The effects of each unit keep the invariant, a command is a check, an
effect and a completion, and a host access changes one of a few fields (10_state.md R62 to R67; 20_memory.md R84, R88; 43_morse.md R235;
60_exceptions.md R271). -/

namespace Sys2Proof.Machine

/-- Settles O56: after reset the buffers are unwritten, the text and the code empty, and no demodulator is valid. -/
theorem resetMeetsTheInvariant : Obligations.ResetMeetsTheInvariant where
  legal := by decide
  memory := ⟨reset_mem_wf, fun _ hc => absurd hc List.not_mem_nil⟩
  text := ⟨Nat.zero_le _, fun _ hi => absurd hi (Nat.not_lt_zero _)⟩
  morse := by simp [MorseOk, State.reset, Morse.reset, Csr.reset]
  demod := fun hvalid => absurd hvalid (by decide)
  lengths := by simp [LengthsOk, State.reset, Csr.reset]
  err := by simp [ErrOk, State.reset, Status.reset]

/-! ### Completions and resets -/

/-- A completion writes a code of the table and nothing else that the invariant reads (60_exceptions.md R271). -/
theorem inv_complete {s : State} (h : Inv s) (op : Byte) (code : ErrCode) : Inv (complete op code s) :=
  ⟨h.legal, h.memory, h.text, h.morse, h.demod, h.lengths, errByte_le code⟩

/-- A reset of the registers clears the text, the code and the lengths, and leaves no valid demodulator (70_reset_and_hazards.md R301). -/
theorem inv_resetRegisters {s : State} (h : Inv s) : Inv (resetRegisters s) where
  legal := h.legal
  memory := h.memory
  text := ⟨Nat.zero_le _, fun _ hi => absurd hi (Nat.not_lt_zero _)⟩
  morse := ⟨Nat.zero_le _, by simp [Csr.reset]⟩
  demod := fun hvalid => Bool.noConfusion hvalid
  lengths := ⟨Nat.zero_le _, Nat.zero_le _⟩
  err := Nat.zero_le _

/-- A power-on reset also forgets what was written to the buffers (70_reset_and_hazards.md R302). -/
theorem inv_powerOnReset {s : State} (h : Inv s) : Inv (powerOnReset s) :=
  have hreg := inv_resetRegisters h
  { legal := hreg.legal
    memory := ⟨rfl, fun _ hc => absurd hc List.not_mem_nil⟩
    text := ⟨Nat.zero_le _, fun _ hi => absurd hi (Nat.not_lt_zero _)⟩
    morse := hreg.morse, demod := hreg.demod, lengths := hreg.lengths, err := hreg.err }

/-! ### The spectral analyser and the squelch gate -/

/-- A frame of a legal size fits `SPECBUF`, which lies below `TEXTBUF` (20_memory.md R85). -/
theorem inv_analyzeEffect {s : State} (h : Inv s) (hfft : FftLegal s) : Inv (analyzeEffect s) := by
  obtain ⟨-, hmax, -⟩ := legal_bounds h.legal
  have hlen : s.csr.fftSize.toNat ≤ s.params.fftMax := hfft.2
  unfold analyzeEffect
  split
  case isTrue => exact ⟨h.legal, h.memory, h.text, h.morse, h.demod, ⟨Nat.zero_le _, h.lengths.2⟩, h.err⟩
  case isFalse =>
    have hmem : MemoryOk (tagFrame s) := h.memory
    have htext : TextOk (tagFrame s) := h.text
    refine ⟨h.legal, memoryOk_storeValues hmem .specbuf _ _ ?_ ?_, textOk_storeValues htext _ _ ?_, h.morse, h.demod,
      ⟨hlen, h.lengths.2⟩, h.err⟩ <;>
    simp [specAddr, regionBase, regionUsed, fftLength] <;> omega

/-- The squelch state is no part of the invariant. -/
theorem inv_squelchEffect {s : State} (h : Inv s) : Inv (squelchEffect s) := by
  unfold squelchEffect
  split <;> exact ⟨h.legal, h.memory, h.text, h.morse, h.demod, h.lengths, h.err⟩

/-! ### The demodulator -/

/-- The designs of a mode have the shape that its order asks for (42_demod.md R187, R190). -/
theorem constructDemod_postShape (s : State) (m : Mode) {k : Nat} (hk : postOrder m = some k) :
    FilterShape (constructDemod s m).pfB (constructDemod s m).pfA (constructDemod s m).pfZ k := by
  have hlp := numButterLp_length s.params.num 5
  have hbp := numButterBp_length s.params.num 5
  cases m with
  | fm => cases hk
  | am | cw | usb | lsb =>
    obtain rfl := Option.some.inj hk
    simp [FilterShape, constructDemod, postDesign, postOrder, hlp, hbp]

/-- The anti-alias design of a ratio above 1 has the shape of its order (42_demod.md R178). -/
theorem constructDemod_aaShape (s : State) (m : Mode) (hd : 1 < s.csr.sampleRate.toNat / s.csr.audioRate.toNat) :
    FilterShape (constructDemod s m).aaB (constructDemod s m).aaA (constructDemod s m).aaZ s.params.aaOrder := by
  have hlp := numButterLp_length s.params.num s.params.aaOrder
  simp [FilterShape, constructDemod, aaDesign, hd, hlp]

/-- A number that fits its field is held as it is. -/
theorem toNat_ofNat_of_lt {w n : Nat} (h : n < 2 ^ w) : (BitVec.ofNat w n).toNat = n := by
  rw [BitVec.toNat_ofNat, Nat.mod_eq_of_lt h]

/-- The ratio held is the quotient of the rates: it fits its 32 bits. -/
theorem constructDemod_decim (s : State) (m : Mode) :
    (constructDemod s m).decim.toNat = s.csr.sampleRate.toNat / s.csr.audioRate.toNat :=
  toNat_ofNat_of_lt (lt_of_le_of_lt (Nat.div_le_self _ _) s.csr.sampleRate.isLt)

/-- What the checks of `DEMOD_INIT` promise about the rates (42_demod.md R171). -/
theorem demodInit_rates {s : State} (hpass : firstError (checksOf .demodInit s) = none) :
    0 < s.csr.sampleRate.toNat ∧ 0 < s.csr.audioRate.toNat ∧ s.csr.sampleRate.toNat % s.csr.audioRate.toNat = 0 := by
  have hrates := checks_pass hpass (s.csr.sampleRate == 0 || s.csr.audioRate == 0, .cfgRate) (by simp [checksOf, demodInitChecks])
  have hratio := checks_pass hpass (s.csr.sampleRate.toNat % s.csr.audioRate.toNat != 0, .cfgDecim)
    (by simp [checksOf, demodInitChecks])
  simp only [Bool.or_eq_false_iff, beq_eq_false_iff_ne, ne_eq, ← BitVec.toNat_inj] at hrates
  exact ⟨Nat.pos_of_ne_zero hrates.1, Nat.pos_of_ne_zero hrates.2, by simpa using hratio⟩

/-- A construction gives a demodulator with an exact ratio, at phase 0, with filters of their orders (42_demod.md R170, R171). -/
theorem inv_demodInitEffect {s : State} (h : Inv s) (hpass : firstError (checksOf .demodInit s) = none) : Inv (demodInitEffect s) := by
  obtain ⟨hfs, hfa, hexact⟩ := demodInit_rates hpass
  have hd := constructDemod_decim s
  have hpos : 1 ≤ s.csr.sampleRate.toNat / s.csr.audioRate.toNat :=
    Nat.div_pos (Nat.le_of_dvd hfs (Nat.dvd_of_mod_eq_zero hexact)) hfa
  unfold demodInitEffect
  split
  case h_1 m _ =>
    refine ⟨h.legal, h.memory, h.text, h.morse, fun _ => ?_, ⟨h.lengths.1, Nat.zero_le _⟩, h.err⟩
    refine ⟨(hd m).symm ▸ hpos, ?ratio, ?phase, List.length_replicate,
      fun hone => constructDemod_aaShape s m (hd m ▸ hone), fun k hk => constructDemod_postShape s m hk⟩
    case ratio => exact (hd m).symm ▸ (Nat.div_mul_cancel (Nat.dvd_of_mod_eq_zero hexact)).symm
    case phase => exact (hd m).symm ▸ hpos
  case h_2 => exact h

/-- The delay line that the anti-alias stage leaves has the length of the one it finds. -/
theorem antiAlias_delay_length {dm : Demod} {k : Nat} (hk : 1 ≤ k) (hz : dm.aaZ.length = k)
    (hshape : 1 < dm.decim.toNat → FilterShape dm.aaB dm.aaA dm.aaZ k) (draw : Nat) (x : List F64) :
    (antiAlias draw dm x).2.length = k := by
  unfold antiAlias
  split
  case isTrue hd =>
    obtain ⟨hb, ha, -⟩ := hshape hd
    simp [filterRun_delay_length (b := dm.aaB) (a := dm.aaA) x dm.aaZ (by omega) (by omega) (by omega), hz]
  case isFalse => exact hz

/-- The delay line that a post-filter leaves has the length of the one it finds. -/
theorem postIir_delay_length {dm : Demod} {k : Nat} (hk : 1 ≤ k) (hshape : FilterShape dm.pfB dm.pfA dm.pfZ k) (draw : Nat)
    (u : List F64) : (postIir draw dm u).2.2.length = k := by
  obtain ⟨hb, ha, hz⟩ := hshape
  unfold postIir
  split
  · exact hz
  · simp [filterRun_delay_length (b := dm.pfB) (a := dm.pfA) u dm.pfZ (by omega) (by omega) (by omega), hz]

/-- Every mode with a post-filter keeps the shape of it. -/
theorem postFilter_shape {dm : Demod} {k : Nat} (hk : postOrder dm.mode = some k) (hshape : FilterShape dm.pfB dm.pfA dm.pfZ k)
    (draw : Nat) (u : List F64) : FilterShape dm.pfB dm.pfA (postFilter draw dm u).2.2 k := by
  refine ⟨hshape.1, hshape.2.1, ?_⟩
  unfold postFilter
  cases hm : dm.mode with
  | fm => rw [hm] at hk; cases hk
  | am | cw | usb | lsb =>
    rw [hm] at hk
    obtain rfl := Option.some.inj hk
    exact postIir_delay_length (by decide) hshape draw u

/-- A block leaves a valid demodulator in shape, its phase below the ratio (10_state.md R63, R65). -/
theorem demodOk_demodulateEffect {s : State} (h : DemodOk s) (horder : 1 ≤ s.params.aaOrder) : DemodOk (demodulateEffect s) := by
  unfold demodulateEffect
  split
  case isTrue => exact h
  case isFalse =>
    intro hvalid
    obtain ⟨hpos, hratio, hphase, hz, haa, hpf⟩ := h hvalid
    simp only [drawn_dm, storeAudio_dm, drawn_params, storeAudio_params, storeEnvelope_params, demodBlock]
    set aa := antiAlias s.draws s.dm (coreTransform s.params.num s.dm (iqBlock s (iqLength s)))
    have haz : aa.2.length = s.params.aaOrder := antiAlias_delay_length horder hz haa _ _
    have hnext : (decimate s.dm.decim.toNat s.dm.decPhase.toNat aa.1).2 < s.dm.decim.toNat := decimate_phase_lt _ _ hpos _ hphase
    refine ⟨hpos, hratio, ?_, haz, fun hone => ⟨(haa hone).1, (haa hone).2.1, haz⟩, fun k hk => postFilter_shape hk (hpf k hk) _ _⟩
    rw [toNat_ofNat_of_lt (hnext.trans s.dm.decim.isLt)]
    exact hnext

/-- The envelope of a block that fits `IQBUF` fits `ENVBUF` (20_memory.md R87). -/
theorem memoryOk_storeEnvelope {s : State} {x : List Cplx} (h : MemoryOk s) (hx : x.length ≤ s.params.blockMax) :
    MemoryOk (storeEnvelope s x) := by
  unfold storeEnvelope
  split
  · exact memoryOk_storeValues h .envbuf _ _ (by simp [envAddr]) (by simp [envAddr, regionUsed]; omega)
  · exact h

/-- `ENVBUF` lies below `TEXTBUF`. -/
theorem textOk_storeEnvelope {s : State} {x : List Cplx} (h : TextOk s) (hx : x.length ≤ 65536) : TextOk (storeEnvelope s x) := by
  unfold storeEnvelope
  split
  · exact textOk_storeValues h _ _ (by simp [envAddr, regionBase]; omega)
  · exact h

/-- A block that fits `IQBUF` leaves audio that fits `AUDIOBUF` and, in CW, an envelope that fits `ENVBUF` (20_memory.md R86, R87). -/
theorem inv_demodulateEffect {s : State} (h : Inv s) (hlen : iqLength s ≤ s.params.blockMax) : Inv (demodulateEffect s) := by
  obtain ⟨hmax, -, -, -, horder⟩ := legal_bounds h.legal
  have hdemod := demodOk_demodulateEffect h.demod horder
  revert hdemod
  unfold demodulateEffect
  split
  case isTrue =>
    exact fun hdemod => ⟨h.legal, h.memory, h.text, h.morse, hdemod, ⟨h.lengths.1, Nat.zero_le _⟩, h.err⟩
  case isFalse =>
    intro hdemod
    have hx : (iqBlock s (iqLength s)).length ≤ s.params.blockMax := by simpa using hlen
    have haudio := (demodBlock_length_le s.params.num s.draws s.dm (iqBlock s (iqLength s))).trans hx
    have hmem : MemoryOk (storeEnvelope s (iqBlock s (iqLength s))) := memoryOk_storeEnvelope h.memory hx
    have htext : TextOk (storeEnvelope s (iqBlock s (iqLength s))) := textOk_storeEnvelope h.text (hx.trans hmax)
    refine ⟨?_, memoryOk_storeValues hmem .audiobuf _ _ (by simp [audioAddr]) ?_, textOk_storeValues htext _ _ ?_, ?_, hdemod, ?_, ?_⟩
    · simpa using h.legal
    · simp [audioAddr, regionUsed]; omega
    · simp [audioAddr, regionBase]; omega
    · simpa [MorseOk, apply_ite Csr.textInc] using h.morse
    · refine ⟨by simpa [apply_ite Csr.specLen] using h.lengths.1, ?_⟩
      exact (BitVec.toNat_ofNat _ _).trans_le ((Nat.mod_le _ _).trans (by simpa using haudio))
    · simpa [ErrOk] using h.err

/-! ### The Morse decoder -/

/-- A clear empties the text, the code and the increment (43_morse.md R222). -/
theorem inv_morseClear {s : State} (h : Inv s) : Inv (morseClear s) :=
  ⟨h.legal, h.memory, ⟨Nat.zero_le _, fun _ hi => absurd hi (Nat.not_lt_zero _)⟩, ⟨Nat.zero_le _, by simp⟩, h.demod, h.lengths, h.err⟩

/-- The state at the start of a feed fits. -/
theorem feedFits_feedOf {s : State} (h : Inv s) : FeedFits s.params (feedOf s) :=
  ⟨h.morse.1, h.text.1, h.text.2, h.memory.1, h.memory.2⟩

/-- An increment of at most two characters fits `TEXT_INC` (10_state.md R56). -/
theorem textIncWord_lt {inc : List Byte} (h : inc.length ≤ 2) : (textIncWord inc).toNat < 3 * 2 ^ 16 := by
  have h0 := (inc.getD 0 0).isLt
  have h1 := (inc.getD 1 0).isLt
  rw [textIncWord_toNat inc h]
  omega

/-- An empty increment fits `TEXT_INC`. -/
theorem inv_clearIncrement {s : State} (h : Inv s) : Inv { s with csr := { s.csr with textInc := 0 } } :=
  ⟨h.legal, h.memory, h.text, ⟨h.morse.1, by simp⟩, h.demod, h.lengths, h.err⟩

/-- An empty audio block fits `AUDIOBUF`. -/
theorem inv_noAudio {s : State} (h : Inv s) : Inv (noAudio s) :=
  have hinc := inv_clearIncrement h
  ⟨hinc.legal, hinc.memory, hinc.text, hinc.morse, hinc.demod, ⟨h.lengths.1, Nat.zero_le _⟩, hinc.err⟩

/-- A feed keeps the text in its buffer and the code in its register (43_morse.md R232, R233, R235). -/
theorem inv_feedEffect {s : State} (h : Inv s) : Inv (feedEffect s) := by
  unfold feedEffect
  split
  case isTrue => exact inv_clearIncrement h
  case isFalse =>
    obtain ⟨hfits, hinc⟩ := (feedFits_feedOf h).block s.draws (envBlock s (envLength s)) rfl
    exact ⟨h.legal, ⟨hfits.wf, hfits.map⟩, ⟨hfits.len, hfits.text⟩, ⟨hfits.code, textIncWord_lt hinc⟩, h.demod, h.lengths, h.err⟩

/-! ### Commands and steps -/

/-- The checks of `PROCESS_BLOCK` cover those of the units it runs (44_control.md R255). -/
theorem process_checks_inv {s : State} (hpass : firstError (checksOf .processBlock s) = none) :
    FftLegal s ∧ SquelchLegal s ∧ (s.dm.valid = true → s.dm.mode = .cw → s.mc.valid = true) ∧ IqUsable s := by
  obtain ⟨hfft, hsq, hmorse, hlen, hfin⟩ : badFftSize s = false ∧ badSquelchConfig s = false ∧
      (s.dm.valid && s.dm.mode == .cw && !s.mc.valid) = false ∧ iqTooLong s = false ∧ iqNonfinite s = false := by
    simpa [checksOf, processChecks] using checks_pass hpass
  refine ⟨(badFftSize_eq_false s).mp hfft, (badSquelchConfig_eq_false s).mp hsq, fun hvalid hmode => ?_, (iqUsable_iff s).mpr ⟨hlen, hfin⟩⟩
  simpa [hvalid, hmode] using hmorse

/-- The checks of `ANALYZE`, passed. -/
theorem analyze_checks_inv {s : State} (hpass : firstError (checksOf .analyze s) = none) : FftLegal s ∧ IqUsable s := by
  obtain ⟨hfft, hlen, hfin⟩ : badFftSize s = false ∧ iqTooLong s = false ∧ iqNonfinite s = false := by
    simpa [checksOf, analyzeChecks] using checks_pass hpass
  exact ⟨(badFftSize_eq_false s).mp hfft, (iqUsable_iff s).mpr ⟨hlen, hfin⟩⟩

/-- The checks of `DEMODULATE`, passed. -/
theorem demodulate_checks_inv {s : State} (hpass : firstError (checksOf .demodulate s) = none) : s.dm.valid = true ∧ IqUsable s := by
  obtain ⟨hvalid, hlen, hfin⟩ : (!s.dm.valid) = false ∧ iqTooLong s = false ∧ iqNonfinite s = false := by
    simpa [checksOf, demodulateChecks] using checks_pass hpass
  exact ⟨by simpa using hvalid, (iqUsable_iff s).mpr ⟨hlen, hfin⟩⟩

/-- The first two units of `PROCESS_BLOCK` leave the IQ length and the parameters. -/
theorem pre_iqLength (s : State) :
    iqLength (squelchEffect (analyzeEffect s)) = iqLength s ∧ (squelchEffect (analyzeEffect s)).params = s.params := by
  obtain ⟨-, -, -, -, -, hiq, -, -⟩ := analyze_fields s
  obtain ⟨-, -, -, -, -, hcsr⟩ := squelch_fields (analyzeEffect s)
  obtain ⟨hparams, -⟩ := effectOf_surroundings .analyze s
  obtain ⟨hparams', -⟩ := effectOf_surroundings .sqEvaluate (analyzeEffect s)
  exact ⟨by rw [iqLength, hcsr, hiq, iqLength], hparams'.trans hparams⟩

/-- `PROCESS_BLOCK` is its units one after another, and each keeps the invariant (44_control.md R255). -/
theorem inv_processEffect {s : State} (h : Inv s) (hfft : FftLegal s) (hlen : iqLength s ≤ s.params.blockMax) : Inv (processEffect s) := by
  have hpre : Inv (squelchEffect (analyzeEffect s)) := inv_squelchEffect (inv_analyzeEffect h hfft)
  obtain ⟨hiq, hparams⟩ := pre_iqLength s
  have hdemod : Inv (demodulateEffect (squelchEffect (analyzeEffect s))) := inv_demodulateEffect hpre (by rw [hiq, hparams]; exact hlen)
  obtain ⟨-, -, hflow⟩ | ⟨-, -, hflow⟩ | ⟨-, hflow⟩ := process_cases s <;> rw [hflow]
  · exact inv_feedEffect hdemod
  · exact inv_clearIncrement hdemod
  · exact inv_noAudio hpre

/-- The effects of a command whose checks pass keep the invariant. -/
theorem inv_effectOf {s : State} (h : Inv s) (i : Instr) (hpass : firstError (checksOf i s) = none) : Inv (effectOf i s) := by
  cases i with
  | nop => exact h
  | softReset => exact inv_resetRegisters h
  | analyze => exact inv_analyzeEffect h (analyze_checks_inv hpass).1
  | sqEvaluate => exact inv_squelchEffect h
  | demodInit => exact inv_demodInitEffect h hpass
  | demodulate => exact inv_demodulateEffect h (demodulate_checks_inv hpass).2.1
  | morseInit =>
    have hclear := inv_morseClear h
    exact ⟨hclear.legal, hclear.memory, hclear.text, hclear.morse, hclear.demod, hclear.lengths, hclear.err⟩
  | morseReset => exact inv_morseClear h
  | morseFeed => exact inv_feedEffect h
  | processBlock =>
    obtain ⟨hfft, -, -, hiq⟩ := process_checks_inv hpass
    exact inv_processEffect h hfft hiq.1

/-- A core step keeps the invariant: it completes at entry, or after effects that keep it. -/
theorem inv_coreStep {s t : State} (h : Inv s) (hstep : coreStep s = .next t) : Inv t := by
  cases hcmd : s.cmd with
  | none =>
    have hidle : coreStep s = .next s := by simp [coreStep, fetchWord, hcmd]
    obtain rfl := Host.Outcome.next.inj (hidle.symm.trans hstep)
    exact h
  | some w =>
    obtain ⟨_, _, hillegal⟩ | ⟨i, _, _, hrun⟩ := coreStep_cases s w hcmd
    · obtain rfl := Host.Outcome.next.inj (hillegal.symm.trans hstep)
      exact inv_complete h _ _
    · obtain rfl := Host.Outcome.next.inj (hrun.symm.trans hstep)
      obtain ⟨e, -, -, hrun⟩ | ⟨hpass, hrun⟩ := runCommand_cases i.opcode (checksOf i s) (effectOf i) s <;> rw [hrun]
      · exact inv_complete h _ _
      · exact inv_complete (inv_effectOf h i hpass) _ _

/-- A word stored by the host lies in a buffer, and the buffers it may write lie below `TEXTBUF` (20_memory.md R81). -/
theorem inv_storeWord {s : State} (h : Inv s) {r : Region} {a : Nat} (hr : regionWritable r = true) (h8 : a % 8 = 0)
    (hin : inRegion s.params a r = true) (v : Word) : Inv { s with mem := memSetWord s.mem a v } := by
  obtain ⟨hmax, -, -, -, -⟩ := legal_bounds h.legal
  obtain ⟨hlo, hhi⟩ := (inRegion_iff s.params a r).mp hin
  have hend : a + 8 ≤ regionBase r + regionUsed s.params r ∧ a + 8 ≤ 0x500000 := by
    cases r with
    | iqbuf | envbuf => simp only [regionBase, regionUsed] at *; omega
    | specbuf | audiobuf | textbuf => cases hr
  refine ⟨h.legal, ⟨memSetWord_wf _ _ _ h.memory.1, fun c hc => ?_⟩, ⟨h.text.1, fun i hi => ?_⟩, h.morse, h.demod, h.lengths, h.err⟩
  · obtain ⟨hca, hcb⟩ | hold := mem_memSetWord hc
    · exact mapped_of_region r (by omega) (hcb.trans_le hend.1)
    · exact h.memory.2 c hold
  · have hbase : textAddr i = 0x500000 + i := rfl
    exact (memGet_memSetWord_outside _ _ _ _ (by omega)).trans (h.text.2 i hi)

/-- A host access keeps the invariant: at most it counts a read, sets a flag or a register of its own, issues a command or stores a word. -/
theorem inv_hostAccess {s : State} (h : Inv s) (a : Access) : Inv (hostAccess a s).2 := by
  have hframe : ∀ (c : Csr) (b : Status) (w : Option Word) (n : Nat), c.textInc = s.csr.textInc → c.specLen = s.csr.specLen →
      c.audioLen = s.csr.audioLen → b.err = s.status.err → Inv { s with csr := c, status := b, cmd := w, busyReads := n } := by
    intro c b w n hinc hspec haudio herr
    exact ⟨h.legal, h.memory, h.text, ⟨h.morse.1, hinc ▸ h.morse.2⟩, h.demod, ⟨hspec ▸ h.lengths.1, haudio ▸ h.lengths.2⟩,
      show b.err.toNat ≤ _ from herr ▸ h.err⟩
  cases a with
  | read addr =>
    obtain hsame | ⟨-, -, hread⟩ := hostRead_state s addr
    · exact (show Inv (hostRead s addr).2 from hsame.symm ▸ h)
    · rw [hostAccess, hread]
      exact hframe s.csr s.status s.cmd _ rfl rfl rfl rfl
  | write addr v =>
    rw [hostAccess]
    cases hbusy : busy s with
    | true =>
      obtain hw | hw | hw := hostWrite_busy s addr v hbusy <;> rw [hw]
      · exact h
      · exact hframe s.csr { s.status with cmdOvr := true } s.cmd s.busyReads rfl rfl rfl rfl
      · exact hframe s.csr { s.status with wrDrop := true } s.cmd s.busyReads rfl rfl rfl rfl
    | false =>
      obtain hw | hw | ⟨r, -, hw⟩ | ⟨r, hr, h8, hin, hw⟩ := hostWrite_idle s addr v hbusy <;> rw [hw]
      · exact h
      · exact hframe s.csr s.status (some v) s.busyReads rfl rfl rfl rfl
      · obtain ⟨hspec, -, -, -, haudio, hinc⟩ := regWrite_outputs s.csr v r
        exact hframe _ s.status s.cmd s.busyReads hinc hspec haudio rfl
      · exact inv_storeWord h hr h8 hin v

/-- The agenda and the replies are no part of the invariant. -/
theorem inv_hostSide {s : State} (h : Inv s) (agenda : List Event) (replies : List Reply) :
    Inv { s with agenda := agenda, replies := replies } :=
  ⟨h.legal, h.memory, h.text, h.morse, h.demod, h.lengths, h.err⟩

/-- Settles O57: by the head of the agenda a step is a core step, a host access, a power-on reset, or the reads of a loop of the host. -/
theorem stepKeepsTheInvariant : Obligations.StepKeepsTheInvariant := by
  intro s t h hstep
  have hserved : ∀ rest, Inv { s with agenda := rest } := fun rest => inv_hostSide h rest s.replies
  obtain ⟨-, hcore⟩ | ⟨rest, -, hcore⟩ | ⟨a, rest, -, rfl⟩ | ⟨rest, -, rfl⟩ | ⟨rest, -, rfl⟩ | ⟨rest, -, rfl⟩ := step_cases hstep
  · exact inv_coreStep h hcore
  · exact inv_coreStep (hserved rest) hcore
  · exact inv_hostSide (inv_hostAccess (hserved rest) a) _ _
  · exact inv_powerOnReset (hserved rest)
  · have hread := inv_hostAccess (hserved rest) (.read (regAddr .status))
    unfold hostWait
    dsimp only
    split <;> exact inv_hostSide hread _ _
  · exact inv_hostSide (inv_hostAccess (hserved rest) (.read (regAddr .textLen))) _ _

end Sys2Proof.Machine
end

-- ==== Proofs: the illegal words and the steps of the agenda ====
section
/-! The proofs of `IllegalWordsAreTheReservedRanges` and `SampleWordsDecode` (30_encoding.md R112, R113), and of `StepRunsThePendingCommand`
and `StepServesTheAgenda` (44_control.md R250; 60_exceptions.md R286). -/

namespace Sys2Proof.Machine

/-- The decoder refuses a word exactly when it accepts it as no command. -/
theorem decode_error_iff (w : Word) : (∃ e, decode w = .error e) ↔ ¬ (cmdRsv w = 0 ∧ ∃ i : Instr, i.opcode = cmdOp w) := by
  have hok : (cmdRsv w = 0 ∧ ∃ i : Instr, i.opcode = cmdOp w) ↔ ∃ i, decode w = .ok i := by simp [decode_eq_ok]
  rw [hok]
  cases decode w <;> simp

/-- The assigned opcodes are those of the table (30_encoding.md R112). -/
theorem opcode_assigned_iff (op : Byte) :
    (∃ i : Instr, i.opcode = op) ↔ op.toNat ∈ [0x00, 0x01, 0x10, 0x20, 0x30, 0x31, 0x40, 0x41, 0x42, 0x50] := by
  have htable : Instr.all.map (fun i => i.opcode.toNat) = [0x00, 0x01, 0x10, 0x20, 0x30, 0x31, 0x40, 0x41, 0x42, 0x50] := by decide
  simp only [← htable, List.mem_map, BitVec.toNat_inj, mem_instr_all, true_and]

/-- The opcode of a word is its low byte. -/
theorem cmdOp_toNat (w : Word) : (cmdOp w).toNat = w.toNat % 256 := by
  have hsplit := cmdWord_split w
  have hbyte := (cmdOp w).isLt
  omega

/-- The reserved field is clear exactly in the words of one byte. -/
theorem cmdRsv_eq_zero_iff (w : Word) : cmdRsv w = 0 ↔ w.toNat < 256 := by
  have hsplit := cmdWord_split w
  have hbyte := (cmdOp w).isLt
  rw [← BitVec.toNat_inj, show (0 : BitVec 56).toNat = 0 from rfl]
  omega

/-- Settles O2: the reserved ranges are the gaps between the assigned opcodes. -/
theorem illegalWordsAreTheReservedRanges : Obligations.IllegalWordsAreTheReservedRanges := by
  intro w
  simp only [decode_error_iff, cmdRsv_eq_zero_iff, opcode_assigned_iff, cmdOp_toNat, List.mem_cons, List.not_mem_nil, or_false]
  omega

/-- Settles O3: the legal words are encodings; the other two have a reserved bit and an opcode of no command. -/
theorem sampleWordsDecode : Obligations.SampleWordsDecode := by
  have hlegal : ∀ i : Instr, decode (encode i) = .ok i := fun i => (decode_eq_ok_iff_eq_encode _ i).mpr rfl
  exact ⟨hlegal .softReset, hlegal .analyze, hlegal .sqEvaluate, hlegal .demodulate, hlegal .morseFeed, hlegal .processBlock,
    by decide, by decide⟩

/-! ### One step -/

/-- With an empty agenda the core has the turn (log 11). -/
theorem step_of_agenda_nil {s : State} (h : s.agenda = []) : step s = coreStep s := by simp [step, h]

/-- A turn of the core is a core step on the rest of the agenda. -/
theorem step_of_agenda_core {s : State} {rest : List Event} (h : s.agenda = .core :: rest) :
    step s = coreStep { s with agenda := rest } := by simp [step, h]

/-- An idle block does nothing in a core step (60_exceptions.md R286). -/
theorem coreStep_of_idle {s : State} (h : s.cmd = none) : coreStep s = .next s := by simp [coreStep, fetchWord, h]

/-- Settles O4: both kinds of turn are a core step, and that runs the command decoded. -/
theorem stepRunsThePendingCommand : Obligations.StepRunsThePendingCommand := by
  intro s w i hw hi _
  exact ⟨fun hnil => (step_of_agenda_nil hnil).trans (coreStep_of_decode hw hi),
    fun rest hcore => (step_of_agenda_core hcore).trans (coreStep_of_decode (s := { s with agenda := rest }) hw hi)⟩

/-- Settles O6: an idle core step changes nothing, and an access at the head is served at once. -/
theorem stepServesTheAgenda : Obligations.StepServesTheAgenda := by
  intro s
  refine ⟨fun hidle hnil => (step_of_agenda_nil hnil).trans (coreStep_of_idle hidle),
    fun rest hidle hcore => (step_of_agenda_core hcore).trans (coreStep_of_idle (s := { s with agenda := rest }) hidle), fun a rest haccess => ?_⟩
  simp only [step, haccess]
  rfl

end Sys2Proof.Machine
end

-- ==== Proofs: reads and writes of the host ====
section
/-! The proofs of the statements about host accesses: what a write to an idle block stores (10_state.md R61; 20_memory.md R81, R89), what
a busy block does with it (70_reset_and_hazards.md R310, R311), and what a read returns (20_memory.md R93; R312). -/

namespace Sys2Proof.Machine

/-! ### Registers of an idle block -/

/-- A write to a register of an idle block other than `CMD` changes the register file alone. -/
theorem hostWrite_idle_reg {s : State} {r : Reg} (v : Word) (hidle : busy s = false) (hcmd : r ≠ .cmd) :
    hostWrite s (regAddr r) v = (okayReply, { s with csr := regWrite s.csr v r }) := by
  have hwrite : hostWrite s (regAddr r) v = idleWrite s v (.reg r) := by simp [hostWrite, hidle, locate_regAddr]
  rw [hwrite]
  cases r with
  | cmd => exact absurd rfl hcmd
  | _ => rfl

/-- A register that the host may not write ignores the value. -/
theorem regWrite_readOnly {r : Reg} (c : Csr) (v : Word) (h : regWritable r = false) : regWrite c v r = c := by
  cases r with
  | ctrl | mode | sampleRate | audioRate | fftSize | iqLen | centerFreq | sqThresholdDb | sqHystDb | fmDeviationHz
  | morseWpm | morseDetThr | morseRate | envLen => cases h
  | _ => rfl

/-- An `RW` register reads back the defined bits of the value written (10_state.md R61). -/
theorem regValue_regWrite_same {r : Reg} (s : State) (v : Word) (h : regWritable r = true) :
    regValue { s with csr := regWrite s.csr v r } r = definedBits r v := by
  cases r with
  | ctrl => exact flagBit_bit0 v
  | mode => exact setWidth_eq_mask v 3 7 (by decide) rfl
  | sampleRate | audioRate | fftSize | iqLen | morseRate | envLen => exact setWidth_eq_mask v 32 0xFFFFFFFF (by decide) rfl
  | centerFreq | sqThresholdDb | sqHystDb | fmDeviationHz | morseWpm | morseDetThr => rfl
  | _ => cases h

/-- A write shows in no other register: each register has a field of its own (equal names contradict `h`). -/
theorem regValue_regWrite_other {q r : Reg} (s : State) (v : Word) (h : q ≠ r) :
    regValue { s with csr := regWrite s.csr v r } q = regValue s q := by
  cases r <;> cases q <;> first | contradiction | rfl

/-- Settles O8: the write stores into the field of its register or, where the host may not write, nowhere. -/
theorem idleRegisterWriteReadsBack : Obligations.IdleRegisterWriteReadsBack := by
  intro s r v hidle hcmd
  have hro (h : regWritable r = false) : { s with csr := regWrite s.csr v r } = s := by rw [regWrite_readOnly s.csr v h]
  refine ⟨_, hostWrite_idle_reg v hidle hcmd, ?same, fun q hq => regValue_regWrite_other s v hq, rfl, hro⟩
  case same =>
    cases hw : regWritable r with
    | true => exact regValue_regWrite_same s v hw
    | false => rw [hro hw]; rfl

/-! ### Buffers of an idle block -/

/-- A read of a place that is no output, or of an idle block, shows what the place holds (20_memory.md R93). -/
theorem hostRead_shows {s : State} {addr : BusAddr} {p : Target} (hp : locate s.params addr.toNat = p)
    (h : busy s = false ∨ isOutput p = false) : hostRead s addr = (idleRead s p, s) := by
  have hno : (busy s && isOutput p) = false := Bool.and_eq_false_iff.mpr h
  simp [hostRead, hp, hno]

/-- A read of an output while busy returns a fresh free value (70_reset_and_hazards.md R312). -/
theorem hostRead_draws {s : State} {addr : BusAddr} {p : Target} (hp : locate s.params addr.toNat = p)
    (hbusy : busy s = true) (hout : isOutput p = true) :
    hostRead s addr = (shown (Config.busyRead s.busyReads), { s with busyReads := s.busyReads + 1 }) := by
  simp [hostRead, hp, hbusy, hout]

/-- A stored word reads back (20_memory.md R89). -/
theorem readWord_memSetWord_same (s : State) (a : Nat) (v : Word) : readWord { s with mem := memSetWord s.mem a v } a = v :=
  readWord_of_bytes _ a v fun i hi => memGet_memSetWord_inside s.mem a i v hi

/-- Byte `i` of a stored word is byte `i` of the value (20_memory.md R89). -/
theorem readByte_memSetWord_same (s : State) (a : Nat) (v : Word) {i : Nat} (hi : i < 8) :
    readByte { s with mem := memSetWord s.mem a v } (a + i) = v.extractLsb' (8 * i) 8 := by
  simp [readByte, memGet_memSetWord_inside s.mem a i v hi, bytesOfWord_getElem v i hi]

/-- A stored word changes its eight bytes alone. -/
theorem sameBytesOutside_memSetWord (s : State) (a : Nat) (v : Word) :
    SameBytesOutside s { s with mem := memSetWord s.mem a v } a (a + 8) :=
  fun x hx => readByte_congr x (memGet_memSetWord_outside s.mem a x v hx) rfl

/-- Settles O9: the address names the word, an `RW` buffer stores it and an `RO` one ignores it. -/
theorem idleBufferWriteReadsBack : Obligations.IdleBufferWriteReadsBack := by
  intro s r j v hlegal hidle hj a
  obtain ⟨haddr, hloc⟩ := locate_buffer hlegal r j hj
  have hwrite : hostWrite s (BitVec.ofNat 24 a) v = idleWrite s v (.buffer r a) := by simp [hostWrite, hidle, a, haddr, hloc]
  cases hr : regionWritable r with
  | true =>
    have hread : hostRead { s with mem := memSetWord s.mem a v } (BitVec.ofNat 24 a) = _ :=
      hostRead_shows (p := .buffer r a) (by simpa [a, haddr] using hloc) (.inl hidle)
    exact ⟨{ s with mem := memSetWord s.mem a v }, by simp [hostAccess, hwrite, idleWrite, hr, okayReply],
      congrArg Prod.fst hread, fun _ => ⟨readWord_memSetWord_same s a v, fun i hi => readByte_memSetWord_same s a v hi,
        sameBytesOutside_memSetWord s a v, rfl⟩, nofun⟩
  | false =>
    have hread : hostRead s (BitVec.ofNat 24 a) = _ := hostRead_shows (p := .buffer r a) (by simpa [a, haddr] using hloc) (.inl hidle)
    exact ⟨s, by simp [hostAccess, hwrite, idleWrite, hr, okayReply], congrArg Prod.fst hread, nofun, fun _ => rfl⟩

/-! ### Busy blocks -/

/-- No two slots hold the same register. -/
theorem reg_all_nodup : Reg.all.Nodup := by decide

/-- An address that names a register is the register's offset. -/
theorem locate_reg_inv {p : Params} {n : Nat} {r : Reg} (h : locate p n = .reg r) : n = regOffset r := by
  unfold locate at h
  split at h
  case isTrue => cases h
  case isFalse h8 =>
    split at h
    case h_1 q hq =>
      obtain rfl := Target.reg.inj h
      obtain ⟨hlt, rfl⟩ := List.getElem?_eq_some_iff.mp hq
      rw [regOffset, reg_all_nodup.idxOf_getElem _ hlt]
      omega
    case h_2 => split at h <;> cases h

/-- A dropped write to any place but `CMD` is recorded by `WR_DROP` (70_reset_and_hazards.md R311). -/
theorem busyWrite_wrDrop (s : State) {t : Target} (h : namesPlace t = true) (hcmd : t ≠ .reg .cmd) :
    busyWrite s t = (okayReply, { s with status := { s.status with wrDrop := true } }) := by
  cases t with
  | reg r =>
    cases r with
    | cmd => exact absurd rfl hcmd
    | _ => rfl
  | buffer => rfl
  | unmapped | misaligned => cases h

/-- The address of `CMD` names it. -/
theorem locate_cmd (p : Params) : locate p (0x08 : BusAddr).toNat = .reg .cmd := locate_regAddr p .cmd

/-- Settles O10: only the address 0x08 names `CMD`, and any other mapped aligned one names another place. -/
theorem busyWritesAreDropped : Obligations.BusyWritesAreDropped := by
  intro s addr v hbusy
  have hwrite : hostAccess (.write addr v) s = busyWrite s (locate s.params addr.toNat) := by simp [hostAccess, hostWrite, hbusy]
  refine ⟨?_, fun hmapped h8 hne => ?_⟩
  · rintro rfl
    rw [hwrite, locate_cmd]
    rfl
  · have hcmd : locate s.params addr.toNat ≠ .reg .cmd := fun hloc => hne (BitVec.eq_of_toNat_eq (locate_reg_inv hloc))
    exact hwrite.trans (busyWrite_wrDrop s ((namesPlace_locate _ _).mpr ⟨hmapped, h8⟩) hcmd)

/-! ### Reads -/

/-- `IQBUF` is the one buffer that is no output. -/
theorem regionIsOutput_iff (r : Region) : regionIsOutput r = true ↔ r ≠ .iqbuf := by cases r <;> decide

/-- Settles O12: a place is read as it is, or by a free value where the block is busy and the place an output. -/
theorem readsReturnTheValueOrADraw : Obligations.ReadsReturnTheValueOrADraw := by
  intro s
  refine ⟨fun r h => hostRead_shows (locate_regAddr s.params r) h, fun r hbusy hout => hostRead_draws (locate_regAddr s.params r) hbusy hout,
    fun r j hlegal hj => ?_⟩
  obtain ⟨haddr, hloc⟩ := locate_buffer hlegal r j hj
  have hplace : locate s.params (BitVec.ofNat 24 (regionBase r + 8 * j)).toNat = .buffer r (regionBase r + 8 * j) := haddr.symm ▸ hloc
  exact ⟨fun h => hostRead_shows hplace (h.imp_right fun hiq => by rw [hiq]; rfl),
    fun hbusy hne => hostRead_draws hplace hbusy ((regionIsOutput_iff r).mpr hne)⟩

end Sys2Proof.Machine
end

-- ==== Proofs: the register views, the issue of a command and the reset values ====
section
/-! The proofs of `StatusShowsItsFields` (10_state.md R33), `CommandIssueMakesTheBlockBusy` (R32), `ViewRegistersShowHiddenState` (R53 to R55,
R58, R59), `ResetRegisterValues` and `PowerOnResetDiscardsThePendingCommand` (70_reset_and_hazards.md R300, R303). Each word is read bit by bit. -/

namespace Sys2Proof.Machine

/-- The eight fields of `STATUS` at the places of R33. -/
theorem statusWord_get (s : State) (j : Nat) (hj : j < 64) :
    (statusWord s).getLsbD j =
      (busy s && decide (0 = j) || s.dm.valid && decide (1 = j) || s.mc.valid && decide (2 = j) ||
       s.status.textOvf && decide (3 = j) || s.status.cmdOvr && decide (4 = j) || s.status.wrDrop && decide (5 = j) ||
       decide (8 ≤ j) && s.status.err.getLsbD (j - 8) || decide (16 ≤ j) && s.status.lastOp.getLsbD (j - 16)) := by
  simp only [statusWord, BitVec.getLsbD_or, flagBit_get _ _ _ hj, field_get _ _ _ hj]

/-- From bit 6 on `STATUS` holds no flag. -/
theorem statusWord_get_high (s : State) (j : Nat) (h6 : 6 ≤ j) (hj : j < 64) :
    (statusWord s).getLsbD j =
      (decide (8 ≤ j) && s.status.err.getLsbD (j - 8) || decide (16 ≤ j) && s.status.lastOp.getLsbD (j - 16)) := by
  have hflags : 0 ≠ j ∧ 1 ≠ j ∧ 2 ≠ j ∧ 3 ≠ j ∧ 4 ≠ j ∧ 5 ≠ j := by omega
  simp [statusWord_get s j hj, hflags]

/-- Settles O13: bits 0 to 5 are the flags, and the two codes have bytes of their own. -/
theorem statusShowsItsFields : Obligations.StatusShowsItsFields := by
  intro s w
  have hflag (j : Nat) (hj : j < 64) : w.getLsbD j = _ := statusWord_get s j hj
  have hhigh (j : Nat) (h6 : 6 ≤ j) (hj : j < 64) : w.getLsbD j = _ := statusWord_get_high s j h6 hj
  refine ⟨(hflag 0 (by decide)).trans (by simp), (hflag 1 (by decide)).trans (by simp), (hflag 2 (by decide)).trans (by simp),
    (hflag 3 (by decide)).trans (by simp), (hflag 4 (by decide)).trans (by simp), (hflag 5 (by decide)).trans (by simp),
    ?reserved_low, ?err, ?lastOp, ?reserved_high⟩
  case reserved_low =>
    refine extractLsb'_eq_zero_of_bits fun i hi => ?_
    have hbelow : ¬ 8 ≤ 6 + i ∧ ¬ 16 ≤ 6 + i := by omega
    simp [hhigh (6 + i) (by omega) (by omega), hbelow]
  case err =>
    refine BitVec.eq_of_getLsbD_eq fun i hi => ?_
    have hbelow : ¬ 16 ≤ 8 + i := by omega
    simp [hi, hhigh (8 + i) (by omega) (by omega), hbelow]
  case lastOp =>
    refine BitVec.eq_of_getLsbD_eq fun i hi => ?_
    have hpast : s.status.err.getLsbD (16 + i - 8) = false := BitVec.getLsbD_of_ge _ _ (by omega)
    simp [hi, hhigh (16 + i) (by omega) (by omega), hpast]
  case reserved_high =>
    refine extractLsb'_eq_zero_of_bits fun i hi => ?_
    have hpast : s.status.err.getLsbD (24 + i - 8) = false := BitVec.getLsbD_of_ge _ _ (by omega)
    have hpast' : s.status.lastOp.getLsbD (24 + i - 16) = false := BitVec.getLsbD_of_ge _ _ (by omega)
    simp [hhigh (24 + i) (by omega) (by omega), hpast, hpast']

/-- Settles O11: the write to `CMD` of an idle block is accepted, and `CMD` is no output. -/
theorem commandIssueMakesTheBlockBusy : Obligations.CommandIssueMakesTheBlockBusy := by
  intro s w
  refine ⟨fun hidle => ⟨?issued, ?busy⟩, hostRead_shows (locate_cmd s.params) (.inr rfl)⟩
  case issued =>
    have hwrite : hostWrite s 0x08 w = idleWrite s w (locate s.params (0x08 : BusAddr).toNat) := by simp [hostWrite, hidle]
    exact hwrite.trans (by rw [locate_cmd]; rfl)
  case busy => exact (statusWord_get { s with cmd := some w } 0 (by decide)).trans (by simp [busy])

/-- The three flags of `SQ_RESULT` (10_state.md R53). -/
theorem sqResultWord_get (s : State) (j : Nat) (hj : j < 64) :
    (sqResultWord s).getLsbD j = (s.sq.isOpenOut && decide (0 = j) || s.sq.lastOpen && decide (1 = j) || s.sq.primed && decide (2 = j)) := by
  simp only [sqResultWord, BitVec.getLsbD_or, flagBit_get _ _ _ hj]

/-- The two fields of `DEMOD_INFO` of a demodulator (10_state.md R59). -/
theorem demodInfoWord_get {s : State} (hvalid : s.dm.valid = true) (j : Nat) (hj : j < 64) :
    (demodInfoWord s).getLsbD j = (s.dm.decim.getLsbD j || decide (32 ≤ j) && (modeCode s.dm.mode).getLsbD (j - 32)) := by
  simp [demodInfoWord, hvalid, field_get _ _ _ hj]

/-- The ratio is the low half of `DEMOD_INFO`, the mode code the three bits above it, and the rest is clear. -/
theorem demodInfoWord_fields {s : State} (hvalid : s.dm.valid = true) :
    (demodInfoWord s).extractLsb' 0 32 = s.dm.decim ∧ (demodInfoWord s).extractLsb' 32 3 = modeCode s.dm.mode ∧
    (demodInfoWord s).extractLsb' 35 29 = 0 := by
  have hbit (j : Nat) (hj : j < 64) := demodInfoWord_get hvalid j hj
  have hratio (j : Nat) (hj : 32 ≤ j) : s.dm.decim.getLsbD j = false := BitVec.getLsbD_of_ge _ _ hj
  refine ⟨BitVec.eq_of_getLsbD_eq fun i hi => ?_, BitVec.eq_of_getLsbD_eq fun i hi => ?_, extractLsb'_eq_zero_of_bits fun i hi => ?_⟩
  · have hbelow : ¬ 32 ≤ i := by omega
    rw [BitVec.getLsbD_extractLsb', Nat.zero_add, hbit i (by omega)]
    simp [hi, hbelow]
  · rw [BitVec.getLsbD_extractLsb', hbit (32 + i) (by omega), hratio (32 + i) (by omega)]
    simp [hi]
  · have hpast : (modeCode s.dm.mode).getLsbD (35 + i - 32) = false := BitVec.getLsbD_of_ge _ _ (by omega)
    rw [hbit (35 + i) (by omega), hratio (35 + i) (by omega), hpast]
    simp

/-- Settles O15: the two composed words are read bit by bit, the others are the fields themselves. -/
theorem viewRegistersShowHiddenState : Obligations.ViewRegistersShowHiddenState := by
  intro s
  have hbit (j : Nat) (hj : j < 64) : (regValue s .sqResult).getLsbD j = _ := sqResultWord_get s j hj
  refine ⟨⟨(hbit 0 (by decide)).trans (by simp), (hbit 1 (by decide)).trans (by simp), (hbit 2 (by decide)).trans (by simp),
    extractLsb'_eq_zero_of_bits fun i hi => ?above⟩, rfl, fun hlen => ?textLen, rfl, fun hnone => ?none, fun hvalid => ?info⟩
  case above =>
    have hflags : 0 ≠ 3 + i ∧ 1 ≠ 3 + i ∧ 2 ≠ 3 + i := by omega
    simp [hbit (3 + i) (by omega), hflags]
  case textLen =>
    have hfits : s.mc.text.length % 2 ^ 32 = s.mc.text.length := Nat.mod_eq_of_lt hlen
    simp only [regValue, field, BitVec.shiftLeft_zero, BitVec.toNat_setWidth, BitVec.toNat_ofNat, hfits]
    omega
  case none => simp [regValue, demodInfoWord, hnone]
  case info =>
    obtain ⟨hratio, hmode, hrest⟩ := demodInfoWord_fields hvalid
    exact ⟨hratio, hmode.trans (by cases s.dm.mode <;> rfl), hrest⟩

/-- Settles O16: the reset state is closed, and its registers are read one after another. -/
theorem resetRegisterValues : Obligations.ResetRegisterValues := ⟨by decide, rfl, rfl, rfl⟩

/-- After a power-on reset every register reads its reset value: with no command pending `STATUS` does too (70_reset_and_hazards.md R303). -/
theorem regValue_powerOnReset (s : State) (r : Reg) : regValue (powerOnReset s) r = regValue State.reset r := by
  cases r <;> rfl

/-- Settles O17: the reset empties the list of written bytes, so every byte reads as drawn for the new epoch. -/
theorem powerOnResetDiscardsThePendingCommand : Obligations.PowerOnResetDiscardsThePendingCommand := by
  intro s rest hagenda
  have hstep : step s = .next (powerOnReset { s with agenda := rest }) := by simp [step, hagenda]
  exact ⟨_, hstep, rfl, regValue_powerOnReset _, rfl, rfl, rfl, rfl, rfl, rfl, rfl, fun _ => rfl, rfl, rfl, rfl, rfl⟩

end Sys2Proof.Machine
end

-- ==== Proofs: completion and the order of the checks ====
section
/-! The proofs of `EveryPendingWordCompletes` (44_control.md R251), `BlockCommandsReportTheFirstError` and `ConstructionsReportTheFirstError`
(60_exceptions.md R273): a list of checks is walked through one check at a time, each tied to its rule by an `↔`. -/

namespace Sys2Proof.Machine

/-- A command leaves the parameters and the host's side alone, whether it raises or not. -/
theorem runCommand_surroundings (i : Instr) (s : State) : SameSurroundings s (runCommand i.opcode (checksOf i s) (effectOf i) s) := by
  obtain ⟨e, -, -, hrun⟩ | ⟨-, hrun⟩ := runCommand_cases i.opcode (checksOf i s) (effectOf i) s <;> rw [hrun]
  · exact ⟨rfl, rfl, rfl, rfl, rfl⟩
  · exact effectOf_surroundings i s

/-- A command reports a code of the table (60_exceptions.md R271). -/
theorem runCommand_err_le (op : Byte) (cs : List (Bool × ErrCode)) (f : State → State) (s : State) :
    (runCommand op cs f s).status.err.toNat ≤ 0x0F := by
  obtain ⟨e, -, -, hrun⟩ | ⟨-, hrun⟩ := runCommand_cases op cs f s <;> rw [hrun] <;> exact errByte_le _

/-- Settles O20: an illegal word completes with its error, a legal one as its command. -/
theorem everyPendingWordCompletes : Obligations.EveryPendingWordCompletes := by
  intro s w hw
  obtain ⟨_, _, hstep⟩ | ⟨i, _, hop, hstep⟩ := coreStep_cases s w hw
  · exact ⟨_, hstep, rfl, rfl, rfl, errByte_le _, rfl, rfl, rfl, rfl, rfl⟩
  · have hcmd := runCommand_cmd i.opcode (checksOf i s) (effectOf i) s
    exact ⟨_, hstep, hcmd, by rw [busy, hcmd]; rfl, (runCommand_lastOp ..).trans hop, runCommand_err_le .., runCommand_surroundings i s⟩

/-! ### The code of the first failing check -/

/-- The code that a list of checks makes a command report. -/
def reported (cs : List (Bool × ErrCode)) : Byte := errByte ((firstError cs).getD .ok)

/-- Every command answers, with the code of its first failing check (60_exceptions.md R273). -/
theorem exec_reports (i : Instr) (s : State) : ∃ t, exec i s = .next t ∧ t.status.err = reported (checksOf i s) := exec_err i s

/-- A check that fails is reported. -/
theorem reported_fail {b : Bool} {p : Prop} (hb : b = true ↔ p) (e : ErrCode) (cs : List (Bool × ErrCode)) (h : p) :
    reported ((b, e) :: cs) = errByte e := by
  rw [hb.mpr h, reported, firstError_true]
  rfl

/-- A check that passes leaves the report to the next. -/
theorem reported_pass {b : Bool} {p : Prop} (hb : b = true ↔ p) (e : ErrCode) (cs : List (Bool × ErrCode)) (h : ¬ p) :
    reported ((b, e) :: cs) = reported cs := by
  rw [Bool.eq_false_iff.mpr (mt hb.mp h), reported, firstError_false]
  rfl

/-- Three checks in order, which is how the commands that read a block end (60_exceptions.md R273). -/
theorem reported_three {b₁ b₂ b₃ : Bool} {p₁ p₂ p₃ : Prop} (h₁ : b₁ = true ↔ p₁) (h₂ : b₂ = true ↔ p₂) (h₃ : b₃ = true ↔ p₃)
    (e₁ e₂ e₃ : ErrCode) :
    (p₁ → reported [(b₁, e₁), (b₂, e₂), (b₃, e₃)] = errByte e₁) ∧
    (¬ p₁ → p₂ → reported [(b₁, e₁), (b₂, e₂), (b₃, e₃)] = errByte e₂) ∧
    (¬ p₁ → ¬ p₂ → p₃ → reported [(b₁, e₁), (b₂, e₂), (b₃, e₃)] = errByte e₃) ∧
    (¬ p₁ → ¬ p₂ → ¬ p₃ → reported [(b₁, e₁), (b₂, e₂), (b₃, e₃)] = 0) :=
  ⟨reported_fail h₁ _ _,
    fun n₁ p => (reported_pass h₁ _ _ n₁).trans (reported_fail h₂ _ _ p),
    fun n₁ n₂ p => (reported_pass h₁ _ _ n₁).trans ((reported_pass h₂ _ _ n₂).trans (reported_fail h₃ _ _ p)),
    fun n₁ n₂ n₃ => (reported_pass h₁ _ _ n₁).trans ((reported_pass h₂ _ _ n₂).trans (reported_pass h₃ _ _ n₃))⟩

/-- The squelch check fails exactly where the configuration is not legal (41_squelch.md R151). -/
theorem badSquelchConfig_iff (s : State) : badSquelchConfig s = true ↔ ¬ SquelchLegal s := by
  rw [← badSquelchConfig_eq_false, Bool.not_eq_false]

/-- The check for a unit that has not been constructed. -/
theorem not_valid_iff (valid : Bool) : (!valid) = true ↔ valid = false := by simp

/-- The check for a Morse decoder that a CW demodulator would feed (44_control.md R255). -/
theorem noMorse_iff (s : State) :
    (s.dm.valid && s.dm.mode == .cw && !s.mc.valid) = true ↔ s.dm.valid = true ∧ s.dm.mode = .cw ∧ s.mc.valid = false := by
  simp [and_assoc]

/-- Settles O22: each command reports what `reported` finds in its list of checks. -/
theorem blockCommandsReportTheFirstError : Obligations.BlockCommandsReportTheFirstError := by
  intro s badFft iqLong iqBad envLong envBad reports
  have hfft := badFftSize_iff s
  have hsq := badSquelchConfig_iff s
  have hlong := iqTooLong_iff s
  have hbad := iqNonfinite_iff s
  refine ⟨?analyze, ?squelch, ?demodulate, ?feed, ?process⟩
  case analyze =>
    obtain ⟨t, ht, herr⟩ := exec_reports .analyze s
    refine ⟨t, ht, herr ▸ ?_⟩
    exact reported_three hfft hlong hbad .cfgFft .length .nonfinite
  case squelch =>
    obtain ⟨t, ht, herr⟩ := exec_reports .sqEvaluate s
    refine ⟨t, ht, herr ▸ ?_⟩
    obtain ⟨r₁, r₂, r₃, r₄⟩ := reported_three hsq hlong hbad .cfgSquelch .length .nonfinite
    exact ⟨r₁, fun h => r₂ (not_not_intro h), fun h => r₃ (not_not_intro h), fun h => r₄ (not_not_intro h)⟩
  case demodulate =>
    obtain ⟨t, ht, herr⟩ := exec_reports .demodulate s
    refine ⟨t, ht, herr ▸ ?_⟩
    obtain ⟨r₁, r₂, r₃, r₄⟩ := reported_three (not_valid_iff s.dm.valid) hlong hbad .noDemod .length .nonfinite
    exact ⟨r₁, fun h => r₂ (ne_false_of_eq_true h), fun h => r₃ (ne_false_of_eq_true h), fun h => r₄ (ne_false_of_eq_true h)⟩
  case feed =>
    obtain ⟨t, ht, herr⟩ := exec_reports .morseFeed s
    refine ⟨t, ht, herr ▸ ?_⟩
    obtain ⟨r₁, r₂, r₃, r₄⟩ := reported_three (not_valid_iff s.mc.valid) (envTooLong_iff s) (envNonfinite_iff s) .noMorse .length .nonfinite
    exact ⟨r₁, fun h => r₂ (ne_false_of_eq_true h), fun h => r₃ (ne_false_of_eq_true h), fun h => r₄ (ne_false_of_eq_true h)⟩
  case process =>
    obtain ⟨t, ht, herr⟩ := exec_reports .processBlock s
    refine ⟨t, ht, herr ▸ ?_⟩
    obtain ⟨r₁, r₂, r₃, r₄⟩ := reported_three (noMorse_iff s) hlong hbad .noMorse .length .nonfinite
    have hskip (h₁ : ¬ badFft) (h₂ : SquelchLegal s) (cs : List (Bool × ErrCode)) :=
      (reported_pass hfft .cfgFft _ h₁).trans (reported_pass hsq .cfgSquelch cs (not_not_intro h₂))
    exact ⟨reported_fail hfft _ _, fun h₁ h₂ => (reported_pass hfft _ _ h₁).trans (reported_fail hsq _ _ h₂),
      fun h₁ h₂ h₃ => (hskip h₁ h₂ _).trans (r₁ h₃), fun h₁ h₂ h₃ h₄ => (hskip h₁ h₂ _).trans (r₂ h₃ h₄),
      fun h₁ h₂ h₃ h₄ h₅ => (hskip h₁ h₂ _).trans (r₃ h₃ h₄ h₅), fun h₁ h₂ h₃ h₄ h₅ => (hskip h₁ h₂ _).trans (r₄ h₃ h₄ h₅)⟩

/-! ### The constructions -/

/-- The codes 5, 6 and 7 select no mode (10_state.md R35). -/
theorem modeOfCode_eq_none_iff (c : BitVec 3) : (modeOfCode c == none) = true ↔ 5 ≤ c.toNat := by revert c; decide

/-- Only the code 1 selects FM (10_state.md R35). -/
theorem modeOfCode_eq_fm_iff (c : BitVec 3) : (modeOfCode c == some .fm) = true ↔ c.toNat = 1 := by revert c; decide

/-- The cutoffs of the post-filters by selector code (42_demod.md R172). -/
theorem badCutoff_iff (c : BitVec 3) (fa : Nat) :
    badCutoff c fa = true ↔ ((c.toNat = 0 ∨ c.toNat = 4) ∧ fa ≤ 30000) ∨ ((c.toNat = 2 ∨ c.toNat = 3) ∧ fa ≤ 6000) := by
  have hlt := c.isLt
  unfold badCutoff modeOfCode
  generalize c.toNat = n at *
  interval_cases n <;> simp

/-- Only FM checks the deviation (42_demod.md R173). -/
theorem badDeviation_iff (c : BitVec 3) (dev : F64) :
    badDeviation c dev = true ↔ c.toNat = 1 ∧ ¬ (f64IsFinite dev = true ∧ f64Lt f64Zero dev = true) := by
  rw [badDeviation, Bool.and_eq_true, modeOfCode_eq_fm_iff, Bool.not_eq_true', ← Bool.not_eq_true, Bool.and_eq_true]

/-- A rate of 0 is no rate (42_demod.md R171). -/
theorem noRate_iff (fs fa : U32) : (fs == 0 || fa == 0) = true ↔ fs.toNat = 0 ∨ fa.toNat = 0 := by
  simp [← BitVec.toNat_inj]

/-- Settles O23: the five checks of `DEMOD_INIT` and the three of `MORSE_INIT`, each tied to its rule. -/
theorem constructionsReportTheFirstError : Obligations.ConstructionsReportTheFirstError := by
  intro s sel fs fa dev noRate cutoff badDev badWpm badThr
  have hmode := modeOfCode_eq_none_iff s.csr.modeSel
  have hrate := noRate_iff s.csr.sampleRate s.csr.audioRate
  have hratio : (fs % fa != 0) = true ↔ fs % fa ≠ 0 := bne_iff_ne
  obtain ⟨t, ht, herr⟩ := exec_reports .demodInit s
  obtain ⟨u, hu, herr'⟩ := exec_reports .morseInit s
  refine ⟨⟨t, ht, ?demod⟩, ⟨u, hu, ?morse⟩⟩
  case demod =>
    rw [herr]
    obtain ⟨r₁, r₂, r₃, r₄⟩ := reported_three hratio (badCutoff_iff s.csr.modeSel fa) (badDeviation_iff s.csr.modeSel dev)
      .cfgDecim .cfgCutoff .cfgDeviation
    have hskip (h₁ : sel < 5) (h₂ : ¬ noRate) (cs : List (Bool × ErrCode)) :=
      (reported_pass hmode .cfgMode _ (Nat.not_le.mpr h₁)).trans (reported_pass hrate .cfgRate cs h₂)
    exact ⟨reported_fail hmode _ _, fun h₁ h₂ => (reported_pass hmode _ _ (Nat.not_le.mpr h₁)).trans (reported_fail hrate _ _ h₂),
      fun h₁ h₂ h₃ => (hskip h₁ h₂ _).trans (r₁ h₃), fun h₁ h₂ h₃ h₄ => (hskip h₁ h₂ _).trans (r₂ (not_not_intro h₃) h₄),
      fun h₁ h₂ h₃ h₄ h₅ => (hskip h₁ h₂ _).trans (r₃ (not_not_intro h₃) h₄ h₅),
      fun h₁ h₂ h₃ h₄ h₅ => (hskip h₁ h₂ _).trans (r₄ (not_not_intro h₃) h₄ h₅)⟩
  case morse =>
    rw [herr']
    have hwpm : (!(f64IsFinite s.csr.morseWpm && f64Lt f64Zero s.csr.morseWpm)) = true ↔ badWpm := by
      rw [Bool.not_eq_true', ← Bool.not_eq_true, Bool.and_eq_true]
    exact reported_three hwpm beq_iff_eq (not_valid_iff (f64IsFinite s.csr.morseDetThr)) _ _ _

end Sys2Proof.Machine
end

-- ==== Proofs: which command writes what ====
section
/-! The proofs of `OnlyTheNamedCommandsChangeAFlag` (10_state.md R33), `OnlyConstructionWritesTheDemodulatorConfiguration` (R62) and
`CommandsWriteOnlyTheirBuffers` (20_memory.md R83, R95): a command that raises changes none of these, and the effects of the others are read
off unit by unit. -/

namespace Sys2Proof.Machine

/-! ### The flags -/

/-- No command but `SOFT_RESET` touches the sticky flags of the host (10_state.md R33). -/
theorem effectOf_sticky {i : Instr} (hreset : i ≠ .softReset) (s : State) :
    (effectOf i s).status.cmdOvr = s.status.cmdOvr ∧ (effectOf i s).status.wrDrop = s.status.wrDrop := by
  cases i with
  | softReset => exact absurd rfl hreset
  | nop | morseInit | morseReset => exact ⟨rfl, rfl⟩
  | analyze => obtain ⟨hstatus, -⟩ := analyze_fields s; simp [effectOf, hstatus]
  | sqEvaluate => obtain ⟨hstatus, -⟩ := squelch_fields s; simp [effectOf, hstatus]
  | demodulate => obtain ⟨hstatus, -⟩ := demodulate_fields s; simp [effectOf, hstatus]
  | demodInit => simp only [effectOf, demodInitEffect]; split <;> exact ⟨rfl, rfl⟩
  | morseFeed => obtain ⟨-, -, -, -, hovr, hdrop, -⟩ := feed_fields s; exact ⟨hovr, hdrop⟩
  | processBlock => obtain ⟨hovr, hdrop, -⟩ := process_fields s; exact ⟨hovr, hdrop⟩

/-- No command but `DEMOD_INIT` and `SOFT_RESET` touches the configuration of the demodulator (10_state.md R62). -/
theorem effectOf_sameConfig {i : Instr} (hinit : i ≠ .demodInit) (hreset : i ≠ .softReset) (s : State) :
    SameConfig s.dm (effectOf i s).dm := by
  have hsame {d : Demod} (h : d = s.dm) : SameConfig s.dm d := h ▸ ⟨rfl, rfl, rfl, rfl, rfl, rfl, rfl, rfl, rfl, rfl, rfl⟩
  cases i with
  | softReset => exact absurd rfl hreset
  | demodInit => exact absurd rfl hinit
  | nop | morseInit | morseReset => exact hsame rfl
  | analyze => obtain ⟨-, hdm, -⟩ := analyze_fields s; exact hsame hdm
  | sqEvaluate => obtain ⟨-, hdm, -⟩ := squelch_fields s; exact hsame hdm
  | demodulate => exact demodulate_cfg s
  | morseFeed => obtain ⟨hdm, -⟩ := feed_fields s; exact hsame hdm
  | processBlock => obtain ⟨-, -, -, -, hcfg⟩ := process_fields s; exact hcfg

/-- No command but `MORSE_INIT` and `SOFT_RESET` makes or unmakes a Morse decoder (10_state.md R67). -/
theorem effectOf_morseValid {i : Instr} (hinit : i ≠ .morseInit) (hreset : i ≠ .softReset) (s : State) :
    (effectOf i s).mc.valid = s.mc.valid := by
  cases i with
  | softReset => exact absurd rfl hreset
  | morseInit => exact absurd rfl hinit
  | nop | morseReset => rfl
  | analyze => obtain ⟨-, -, -, hmc, -⟩ := analyze_fields s; simp [effectOf, hmc]
  | sqEvaluate => obtain ⟨-, -, -, hmc, -⟩ := squelch_fields s; simp [effectOf, hmc]
  | demodulate => obtain ⟨-, -, hmc, -⟩ := demodulate_fields s; simp [effectOf, hmc]
  | demodInit => simp only [effectOf, demodInitEffect]; split <;> rfl
  | morseFeed => obtain ⟨-, -, -, hvalid, -⟩ := feed_fields s; exact hvalid
  | processBlock => obtain ⟨-, -, hvalid, -⟩ := process_fields s; exact hvalid

/-- No command that can emit neither a character nor clear the text touches `TEXT_OVF` (10_state.md R33). -/
theorem effectOf_textOvf_same {i : Instr} (hreset : i ≠ .softReset) (hinit : i ≠ .morseInit) (hclear : i ≠ .morseReset)
    (hfeed : i ≠ .morseFeed) (hprocess : i ≠ .processBlock) (s : State) : (effectOf i s).status.textOvf = s.status.textOvf := by
  cases i with
  | softReset => exact absurd rfl hreset
  | morseInit => exact absurd rfl hinit
  | morseReset => exact absurd rfl hclear
  | morseFeed => exact absurd rfl hfeed
  | processBlock => exact absurd rfl hprocess
  | nop => rfl
  | analyze => obtain ⟨hstatus, -⟩ := analyze_fields s; simp [effectOf, hstatus]
  | sqEvaluate => obtain ⟨hstatus, -⟩ := squelch_fields s; simp [effectOf, hstatus]
  | demodulate => obtain ⟨hstatus, -⟩ := demodulate_fields s; simp [effectOf, hstatus]
  | demodInit => simp only [effectOf, demodInitEffect]; split <;> rfl

/-- A feed and the flow around it may set `TEXT_OVF` but not clear it (43_morse.md R233). -/
theorem effectOf_textOvf_kept {i : Instr} (hreset : i ≠ .softReset) (hinit : i ≠ .morseInit) (hclear : i ≠ .morseReset) {s : State}
    (hset : s.status.textOvf = true) : (effectOf i s).status.textOvf = true := by
  by_cases hfeed : i = .morseFeed
  · subst hfeed
    obtain ⟨-, -, -, -, -, -, hovf⟩ := feed_fields s
    exact hovf hset
  by_cases hprocess : i = .processBlock
  · subst hprocess
    obtain ⟨-, -, -, hovf, -⟩ := process_fields s
    exact hovf hset
  · exact (effectOf_textOvf_same hreset hinit hclear hfeed hprocess s).trans hset

/-- A construction that can raise no error leaves a valid demodulator: its mode check has passed (42_demod.md R170). -/
theorem demodInitEffect_valid {s : State} (h : s.dm.valid = true) : (demodInitEffect s).dm.valid = true := by
  unfold demodInitEffect
  split
  · rfl
  · exact h

/-- Settles O24: an error changes no flag, and the effects change those of the lemmas above alone. -/
theorem onlyTheNamedCommandsChangeAFlag : Obligations.OnlyTheNamedCommandsChangeAFlag := by
  intro i s t hexec
  obtain ⟨e, -, -, rfl⟩ | ⟨-, rfl⟩ := exec_cases hexec
  · exact ⟨fun _ => ⟨rfl, rfl⟩, fun _ _ => rfl, fun _ h => h, fun _ _ => rfl, fun _ h => h, fun _ _ _ h => h, fun _ _ _ _ _ => rfl⟩
  · exact ⟨fun hreset => effectOf_sticky hreset s, fun hreset hinit => (effectOf_sameConfig hinit hreset s).1,
      fun hi h => hi ▸ demodInitEffect_valid h, fun hreset hinit => effectOf_morseValid hinit hreset s,
      fun hi _ => hi ▸ rfl, fun h₁ h₂ h₃ => effectOf_textOvf_kept h₁ h₂ h₃,
      fun h₁ h₂ h₃ h₄ h₅ => effectOf_textOvf_same h₁ h₂ h₃ h₄ h₅ s⟩

/-- Settles O25: an error changes no configuration, and the effects of these commands keep it. -/
theorem onlyConstructionWritesTheDemodulatorConfiguration : Obligations.OnlyConstructionWritesTheDemodulatorConfiguration := by
  intro i s t hinit hreset hexec
  obtain ⟨e, -, -, rfl⟩ | ⟨-, rfl⟩ := exec_cases hexec
  · exact ⟨rfl, rfl, rfl, rfl, rfl, rfl, rfl, rfl, rfl, rfl, rfl⟩
  · exact effectOf_sameConfig hinit hreset s

/-! ### The bytes -/

/-- A byte that `ANALYZE` changes lies in the frame. -/
theorem analyze_changes {s : State} {a : Nat} (h : readByte (analyzeEffect s) a ≠ readByte s a) :
    0x200000 ≤ a ∧ a < 0x200000 + 8 * fftLength s := by
  by_contra hout
  exact h (analyze_bytes s a (by omega))

/-- A byte that `DEMODULATE` changes lies in the audio block or, in CW, in the envelope. -/
theorem demodulate_changes {s : State} {a : Nat} (h : readByte (demodulateEffect s) a ≠ readByte s a) :
    (0x300000 ≤ a ∧ a < 0x300000 + 8 * iqLength s) ∨ (s.dm.mode = .cw ∧ 0x400000 ≤ a ∧ a < 0x400000 + 8 * iqLength s) := by
  by_contra hout
  obtain ⟨haudio, henv⟩ := not_or.mp hout
  exact h (demodulate_bytes s a (by omega) fun hcw => by
    have := not_and.mp henv hcw
    omega)

/-- A byte that a feed changes lies in `TEXTBUF`. -/
theorem feed_changes {s : State} {a : Nat} (h : readByte (feedEffect s) a ≠ readByte s a) :
    0x500000 ≤ a ∧ a < 0x500000 + s.params.textCap := by
  by_contra hout
  exact h (feed_bytes s a (by omega))

/-- The first two units of `PROCESS_BLOCK` write the frame alone. -/
theorem pre_bytes (s : State) (a : Nat) : readByte (squelchEffect (analyzeEffect s)) a = readByte (analyzeEffect s) a := squelch_bytes _ a

/-- A byte that `PROCESS_BLOCK` changes was changed by one of the units it ran (44_control.md R255). -/
theorem process_changes {s : State} {a : Nat} (h : readByte (processEffect s) a ≠ readByte s a) :
    (0x200000 ≤ a ∧ a < 0x200000 + 8 * fftLength s) ∨
    (s.dm.valid = true ∧ 0x300000 ≤ a ∧ a < 0x300000 + 8 * iqLength s) ∨
    (s.dm.valid = true ∧ s.dm.mode = .cw ∧ 0x400000 ≤ a ∧ a < 0x400000 + 8 * iqLength s) ∨
    (s.dm.valid = true ∧ s.dm.mode = .cw ∧ 0x500000 ≤ a ∧ a < 0x500000 + s.params.textCap) := by
  obtain ⟨hiq, hparams⟩ := pre_iqLength s
  obtain ⟨-, hdm, -, -⟩ := pre_fields s
  have hpre (h : readByte (squelchEffect (analyzeEffect s)) a ≠ readByte s a) := analyze_changes (pre_bytes s a ▸ h)
  have hdemod (hvalid : s.dm.valid = true) (h : readByte (demodulateEffect (squelchEffect (analyzeEffect s))) a ≠ readByte s a) :
      (0x200000 ≤ a ∧ a < 0x200000 + 8 * fftLength s) ∨ (s.dm.valid = true ∧ 0x300000 ≤ a ∧ a < 0x300000 + 8 * iqLength s) ∨
      (s.dm.valid = true ∧ s.dm.mode = .cw ∧ 0x400000 ≤ a ∧ a < 0x400000 + 8 * iqLength s) := by
    by_cases hunit : readByte (demodulateEffect (squelchEffect (analyzeEffect s))) a = readByte (squelchEffect (analyzeEffect s)) a
    · exact .inl (hpre (hunit ▸ h))
    · have hin := demodulate_changes hunit
      rw [hiq, hdm] at hin
      exact .inr (hin.imp (⟨hvalid, ·⟩) (⟨hvalid, ·⟩))
  obtain ⟨hopen, hmode, hflow⟩ | ⟨hopen, -, hflow⟩ | ⟨-, hflow⟩ := process_cases s
  · rw [hdm] at hmode
    have hvalid : s.dm.valid = true := hdm ▸ (Bool.and_eq_true_iff.mp hopen).1
    by_cases hunit : readByte (processEffect s) a = readByte (demodulateEffect (squelchEffect (analyzeEffect s))) a
    · obtain hframe | haudio | henv := hdemod hvalid (hunit ▸ h)
      · exact .inl hframe
      · exact .inr (.inl haudio)
      · exact .inr (.inr (.inl henv))
    · obtain ⟨hparams', -⟩ := effectOf_surroundings .demodulate (squelchEffect (analyzeEffect s))
      have hin := feed_changes (hflow ▸ hunit)
      rw [show (demodulateEffect (squelchEffect (analyzeEffect s))).params = s.params from hparams'.trans hparams] at hin
      exact .inr (.inr (.inr ⟨hvalid, hmode, hin⟩))
  · have hvalid : s.dm.valid = true := hdm ▸ (Bool.and_eq_true_iff.mp hopen).1
    rw [hflow] at h
    obtain hframe | haudio | henv := hdemod hvalid h
    · exact .inl hframe
    · exact .inr (.inl haudio)
    · exact .inr (.inr (.inl henv))
  · rw [hflow] at h
    exact .inl (hpre h)

/-- Every buffer that a command writes lies above `IQBUF` (20_memory.md R81). -/
theorem not_iqbuf_of_above {p : Params} (hlegal : p.legal = true) {a : Nat} (h : 0x200000 ≤ a) :
    ¬ (0x100000 ≤ a ∧ a < 0x100000 + 16 * p.blockMax) := by
  obtain ⟨hmax, -⟩ := legal_bounds hlegal
  omega

/-- The checks of `MORSE_FEED`, passed. -/
theorem feed_checks_inv {s : State} (hpass : firstError (checksOf .morseFeed s) = none) : s.mc.valid = true ∧ EnvUsable s := by
  obtain ⟨hvalid, hlen, hfin⟩ : (!s.mc.valid) = false ∧ envTooLong s = false ∧ envNonfinite s = false := by
    simpa [checksOf, morseFeedChecks] using checks_pass hpass
  exact ⟨by simpa using hvalid, (envUsable_iff s).mpr ⟨hlen, hfin⟩⟩

/-- Settles O26: an error changes no byte, and each unit writes its buffer, as far as its checks let it. -/
theorem commandsWriteOnlyTheirBuffers : Obligations.CommandsWriteOnlyTheirBuffers := by
  intro i s t a hexec hchange
  suffices hin : _ from ⟨fun hlegal => not_iqbuf_of_above hlegal (by omega), hin⟩
  obtain ⟨e, -, -, rfl⟩ | ⟨hpass, rfl⟩ := exec_cases hexec
  · exact absurd rfl hchange
  have hbyte : readByte (effectOf i s) a ≠ readByte s a := hchange
  cases i with
  | nop | softReset | morseInit | morseReset => exact absurd rfl hbyte
  | sqEvaluate => exact absurd (squelch_bytes s a) hbyte
  | demodInit =>
    refine absurd ?_ hbyte
    simp only [effectOf, demodInitEffect]
    split <;> rfl
  | analyze =>
    obtain ⟨⟨-, hmax⟩, -⟩ := analyze_checks_inv hpass
    obtain ⟨hlo, hhi⟩ := analyze_changes hbyte
    exact .inl ⟨.inl rfl, hlo, by omega⟩
  | demodulate =>
    obtain ⟨hvalid, hmax, -⟩ := demodulate_checks_inv hpass
    obtain ⟨hlo, hhi⟩ | ⟨hcw, hlo, hhi⟩ := demodulate_changes hbyte
    · exact .inr (.inl ⟨.inl rfl, hvalid, hlo, by omega⟩)
    · exact .inr (.inr (.inl ⟨.inl rfl, hvalid, hcw, hlo, by omega⟩))
  | morseFeed => exact .inr (.inr (.inr ⟨.inl rfl, (feed_checks_inv hpass).1, feed_changes hbyte⟩))
  | processBlock =>
    obtain ⟨⟨-, hfft⟩, -, hmorse, hmax, -⟩ := process_checks_inv hpass
    obtain ⟨hlo, hhi⟩ | ⟨hvalid, hlo, hhi⟩ | ⟨hvalid, hcw, hlo, hhi⟩ | ⟨hvalid, hcw, hlo, hhi⟩ := process_changes hbyte
    · exact .inl ⟨.inr rfl, hlo, by omega⟩
    · exact .inr (.inl ⟨.inr rfl, hvalid, hlo, by omega⟩)
    · exact .inr (.inr (.inl ⟨.inr rfl, hvalid, hcw, hlo, by omega⟩))
    · exact .inr (.inr (.inr ⟨.inr rfl, hmorse hvalid hcw, hlo, hhi⟩))

end Sys2Proof.Machine
end

-- ==== Proofs: the spectral analyser on a block ====
section
/-! The proofs of `AnalyzeWritesTheSpectralFrame` (40_spectrum.md R130 to R136) and `AnalyzeDependsOnItsOperandsAlone` (R137): the frame is
written out bin by bin, and what a bin reads as is the settled value of the frame. -/

namespace Sys2Proof.Machine

/-- The effects of `ANALYZE` on a block that is not empty (40_spectrum.md R130). -/
theorem analyzeEffect_of_nonempty {s : State} (h : 0 < iqLength s) :
    analyzeEffect s = drawn (setSpecLen
      (storeValues (tagFrame s) (specAddr 0) (spectralFrame s.params.num (padBlock s (fftLength s)))) s.csr.fftSize) :=
  if_neg (Nat.ne_of_gt h)

/-- Bin `k` lies eight bytes times `k` above bin 0 (20_memory.md R85). -/
theorem specAddr_eq (k : Nat) : specAddr k = specAddr 0 + 8 * k := by simp [specAddr]

/-- The frame of a padded block has a bin for every sample. -/
theorem lt_spectralFrame_length {c : Numerics} {s : State} {n k : Nat} (hk : k < n) :
    k < (spectralFrame c (padBlock s n)).length := by simpa using hk

/-- What a bin reads as after `ANALYZE`: the frame's value, a NaN among them with a free pattern (log 1). -/
theorem readWord_analyzeEffect {s : State} (hne : 0 < iqLength s) {k : Nat} (hk : k < fftLength s) :
    readWord (analyzeEffect s) (specAddr k) = settle s.draws (.bufferWord (specAddr k))
      ((spectralFrame s.params.num (padBlock s (fftLength s)))[k]'(lt_spectralFrame_length hk)) := by
  rw [analyzeEffect_of_nonempty hne, specAddr_eq k]
  exact readWord_storeValues (tagFrame s) (specAddr 0) _ k (lt_spectralFrame_length hk)

/-- The windowed block sample by sample (40_spectrum.md R131, R135). -/
theorem windowed_padBlock (c : Numerics) (s : State) (n : Nat) :
    windowed c (padBlock s n) = (List.range n).map fun i =>
      cScale (hamming c i n) (if i < min (iqLength s) n then iqSample s i else (f64Zero, f64Zero)) := by
  refine List.ext_getElem (by simp) fun i _ _ => ?_
  simp [windowed, padBlock]

/-- The frame bin by bin: bin `k` holds transform bin `(k - ⌊n/2⌋) mod n` (40_spectrum.md R134, R136). -/
theorem spectralFrame_getElem (c : Numerics) (s : State) {n k : Nat} (hk : k < n) :
    (spectralFrame c (padBlock s n))[k]'(lt_spectralFrame_length hk) =
      binDb c (numDftBin c (windowed c (padBlock s n)) ((k + n - n / 2) % n)) := by
  have hhalf : k + n - n / 2 = k + (n - n / 2) := Nat.add_sub_assoc (Nat.div_le_self n 2) k
  simp [spectralFrame, centredBin, hhalf]

/-- Settles O27: the checks pass, and the bins of the frame are stored one after another from `specAddr 0`. -/
theorem analyzeWritesTheSpectralFrame : Obligations.AnalyzeWritesTheSpectralFrame := by
  intro s hfft hiq hne c n window x v bin
  have hrun := exec_of_checks (analyze_checks hfft hiq)
  have hbins : ∀ k < n, readWord (analyzeEffect s) (specAddr k) = settle s.draws (.bufferWord (specAddr k)) (bin k) := by
    intro k hk
    rw [readWord_analyzeEffect hne hk, spectralFrame_getElem c s hk, windowed_padBlock]
    rfl
  have hbytes : SameBytesOutside s (analyzeEffect s) (specAddr 0) (specAddr n) := by
    intro a ha
    exact analyze_bytes s a (by simpa [specAddr, regionBase] using ha)
  refine ⟨complete Instr.analyze.opcode .ok (analyzeEffect s), hrun, hbins, hbytes, ?_⟩
  rw [analyzeEffect_of_nonempty hne]
  exact ⟨rfl, rfl, rfl, rfl, ⟨rfl, rfl⟩, rfl, rfl, rfl, rfl, rfl⟩

/-- Equal operands pass or fail the same checks. -/
theorem analyzeChecks_congr {s s' : State} (hparams : s'.params = s.params) (hfft : s'.csr.fftSize = s.csr.fftSize)
    (hlen : s'.csr.iqLen = s.csr.iqLen) (hiq : ∀ n < iqLength s, iqSample s' n = iqSample s n) :
    analyzeChecks s' = analyzeChecks s := by
  have hblock : iqBlock s' (iqLength s) = iqBlock s (iqLength s) :=
    List.map_congr_left fun n hn => hiq n (List.mem_range.mp hn)
  have hlength : iqLength s' = iqLength s := by rw [iqLength, hlen, iqLength]
  have hsize : badFftSize s' = badFftSize s := by rw [badFftSize, fftLength, hparams, hfft, badFftSize, fftLength]
  have hlong : iqTooLong s' = iqTooLong s := by simp only [iqTooLong, hparams, hlength]
  have hbad : iqNonfinite s' = iqNonfinite s := by rw [iqNonfinite, hlength, hblock, iqNonfinite]
  rw [analyzeChecks, hsize, hlong, hbad, analyzeChecks]

/-- Equal operands give equal padded blocks (40_spectrum.md R131). -/
theorem padBlock_congr {s s' : State} (hlen : s'.csr.iqLen = s.csr.iqLen) (hiq : ∀ n < iqLength s, iqSample s' n = iqSample s n)
    (n : Nat) : padBlock s' n = padBlock s n := by
  have hlength : iqLength s' = iqLength s := by rw [iqLength, hlen, iqLength]
  refine List.map_congr_left fun i _ => ?_
  rw [hlength]
  split
  case isTrue hi => exact hiq i (lt_of_lt_of_le hi (Nat.min_le_left _ _))
  case isFalse => rfl

/-- Settles O29: the checks and the frame are functions of the operands, so the bins differ in the patterns of NaNs alone. -/
theorem analyzeDependsOnItsOperandsAlone : Obligations.AnalyzeDependsOnItsOperandsAlone := by
  intro s s' t t' hparams hfft hlen hiq hrun hrun'
  have hchecks : checksOf .analyze s' = checksOf .analyze s := analyzeChecks_congr hparams hfft hlen hiq
  have herr : t'.status.err = t.status.err := by
    obtain ⟨u, hu, hcode⟩ := exec_reports .analyze s
    obtain ⟨u', hu', hcode'⟩ := exec_reports .analyze s'
    obtain rfl := Host.Outcome.next.inj (hu.symm.trans hrun)
    obtain rfl := Host.Outcome.next.inj (hu'.symm.trans hrun')
    rw [hcode, hcode', hchecks]
  refine ⟨herr, fun hok => ?_⟩
  obtain ⟨-, rfl⟩ := exec_of_err_zero hrun hok
  obtain ⟨-, rfl⟩ := exec_of_err_zero hrun' (herr.trans hok)
  have hlength : iqLength s' = iqLength s := by rw [iqLength, hlen, iqLength]
  obtain hempty | hne := Nat.eq_zero_or_pos (iqLength s)
  case inl =>
    have hnone (u : State) (hu : iqLength u = 0) : (analyzeEffect u).csr.specLen = 0 := by rw [analyzeEffect_of_empty hu]; rfl
    refine ⟨(hnone s' (hlength.trans hempty)).trans (hnone s hempty).symm, fun k hk => absurd hk ?_⟩
    simp [effectOf, hnone s hempty]
  case inr =>
    have hne' : 0 < iqLength s' := hlength ▸ hne
    have hspec (u : State) (hu : 0 < iqLength u) : (analyzeEffect u).csr.specLen = u.csr.fftSize := by
      rw [analyzeEffect_of_nonempty hu]; rfl
    have hsize : fftLength s' = fftLength s := by rw [fftLength, hfft, fftLength]
    refine ⟨(hspec s' hne').trans (hfft.trans (hspec s hne).symm), fun k hk => ?_⟩
    replace hk : k < fftLength s := lt_of_lt_of_eq hk (congrArg BitVec.toNat (hspec s hne))
    have hframe : (spectralFrame s'.params.num (padBlock s' (fftLength s')))[k]'(lt_spectralFrame_length (hsize.symm ▸ hk)) =
        (spectralFrame s.params.num (padBlock s (fftLength s)))[k]'(lt_spectralFrame_length hk) := by
      simp only [hparams, hsize, padBlock_congr hlen hiq]
    have hread := readWord_analyzeEffect hne hk
    have hread' := (readWord_analyzeEffect hne' (hsize.symm ▸ hk)).trans (congrArg _ hframe)
    show f64IsNaN (readWord (analyzeEffect s') _) = f64IsNaN (readWord (analyzeEffect s) _) ∧
      (f64IsNaN (readWord (analyzeEffect s) _) = false → readWord (analyzeEffect s') _ = readWord (analyzeEffect s) _)
    rw [hread, hread', settle_isNaN, settle_isNaN]
    exact ⟨rfl, fun hnum => by rw [settle_of_not_nan _ _ hnum, settle_of_not_nan _ _ hnum]⟩

end Sys2Proof.Machine
end

-- ==== Proofs: the squelch gate on a block ====
section
/-! The proofs of `SqEvaluateAdvancesTheGate` (41_squelch.md R150 to R155) and `GateTogglesOnlyAcrossItsLevels` (R154, R155, R158): the gate is
one comparison of the smoothed estimate, and a comparison does not see the pattern that the estimate is stored with. -/

namespace Sys2Proof.Machine

/-- The effects of `SQ_EVALUATE` on a block that is not empty (41_squelch.md R150). -/
theorem squelchEffect_of_nonempty {s : State} (h : 0 < iqLength s) :
    squelchEffect s = drawn { s with
      sq := reportGate s.csr.sqEn (advanceSquelch s (powerDb s.params.num (meanPower (iqBlock s (iqLength s))))) } :=
  if_neg (Nat.ne_of_gt h)

/-- The mean power sample by sample (41_squelch.md R152). -/
theorem meanPower_iqBlock (s : State) (n : Nat) :
    meanPower (iqBlock s n) = f64Div (f64Sum ((List.range n).map fun i => cNormSq (iqSample s i))) (f64OfNat n) := by
  rw [meanPower, iqBlock_length, iqBlock, List.map_map, Function.comp_def]

/-- Settles O30: the checks pass, and the rule's estimate and gate are those of `advanceSquelch`. -/
theorem sqEvaluateAdvancesTheGate : Obligations.SqEvaluateAdvancesTheGate := by
  intro s hlegal hiq hne square p pdb smoothed gate
  have hpower : powerDb s.params.num (meanPower (iqBlock s (iqLength s))) = pdb := by rw [meanPower_iqBlock]; rfl
  refine ⟨_, exec_of_checks (squelch_checks hlegal hiq), ?_⟩
  rw [show effectOf .sqEvaluate s = squelchEffect s from rfl, squelchEffect_of_nonempty hne, hpower]
  exact ⟨rfl, rfl, rfl, rfl, fun _ => rfl, ⟨rfl, rfl⟩, rfl, rfl, rfl, rfl, rfl⟩

/-- The estimate and the gate that a block leaves, by the estimate that `SQ_POWER_DB` then shows (41_squelch.md R154). -/
theorem squelchEffect_gate {s : State} (hne : 0 < iqLength s) :
    (squelchEffect s).sq.lastOpen =
      gateOpen s.sq.lastOpen s.csr.sqThresholdDb s.csr.sqHystDb (regValue (squelchEffect s) .sqPowerDb) := by
  rw [squelchEffect_of_nonempty hne]
  simp [regValue, reportGate, advanceSquelch, gateOpen]

/-- `IS_OPEN` shows the gate, or 1 where squelch is disabled (41_squelch.md R155). -/
theorem squelchEffect_isOpen (s : State) :
    (regValue (squelchEffect s) .sqResult).getLsbD 0 = if s.csr.sqEn then (squelchEffect s).sq.lastOpen else true := by
  have hbit : (regValue (squelchEffect s) .sqResult).getLsbD 0 = (squelchEffect s).sq.isOpenOut :=
    (sqResultWord_get _ 0 (by decide)).trans (by simp)
  rw [hbit]
  unfold squelchEffect
  split <;> rfl

/-- Settles O32: an empty block keeps the gate; on any other the gate is the comparison of `squelchEffect_gate`. -/
theorem gateTogglesOnlyAcrossItsLevels : Obligations.GateTogglesOnlyAcrossItsLevels := by
  intro s t hrun hok
  obtain ⟨-, rfl⟩ := exec_of_err_zero hrun hok
  have hshown : regValue (complete Instr.sqEvaluate.opcode .ok (squelchEffect s)) .sqPowerDb = regValue (squelchEffect s) .sqPowerDb := rfl
  have hopen := squelchEffect_isOpen s
  simp only [effectOf, complete_sq, hshown]
  refine and_assoc.mp (and_assoc.mp (and_assoc.mp ⟨?gate, fun hoff => hopen.trans (by simp [hoff]), fun hon => hopen.trans (by simp [hon])⟩))
  obtain hempty | hne := Nat.eq_zero_or_pos (iqLength s)
  case inl =>
    have hkept : (squelchEffect s).sq.lastOpen = s.sq.lastOpen := by rw [squelchEffect_of_empty hempty]; rfl
    rw [hkept]
    refine ⟨⟨⟨fun h h' => ?_, fun h h' => ?_⟩, fun h => absurd hempty h⟩, fun h => absurd hempty h⟩
    · exact absurd (h.symm.trans h') (by decide)
    · exact absurd (h.symm.trans h') (by decide)
  case inr =>
    have hgate := squelchEffect_gate hne
    have hclosed (h : s.sq.lastOpen = false) :
        (squelchEffect s).sq.lastOpen = f64Lt s.csr.sqThresholdDb (regValue (squelchEffect s) .sqPowerDb) := by
      rw [hgate, gateOpen, h]; rfl
    have hopened (h : s.sq.lastOpen = true) :
        (squelchEffect s).sq.lastOpen =
          !(f64Lt (regValue (squelchEffect s) .sqPowerDb) (f64Sub s.csr.sqThresholdDb s.csr.sqHystDb)) := by
      rw [hgate, gateOpen, h]; rfl
    exact ⟨⟨⟨fun h h' => (hclosed h).symm.trans h', fun h h' => by simpa using (hopened h).symm.trans h'⟩,
      fun _ h h' => (hclosed h).trans h'⟩, fun _ h h' => (hopened h).trans (by rw [h']; rfl)⟩

end Sys2Proof.Machine
end

-- ==== Proofs: the signal paths ====
section
/-! The proofs of `DecimatorKeepsThePhaseZeroSamples` (42_demod.md R179), `FilterStepIsDirectFormTwoTransposed` (R176),
`SplitSequencesAgreeWithTheWhole` (R194), `UnwrapAddsTheRunningCorrection` (R182) and `NormalisationDividesByThePeak` (R188), each by
induction along the sequence. -/

namespace Sys2Proof.Machine

/-! ### The decimator -/

/-- Of a sequence with one more sample in front, the samples kept are the first, if it is at phase 0, and those kept of the rest. -/
theorem phaseZero_cons (d p : Nat) (x : F64) (xs : List F64) (hp : p < d) :
    ((List.range (x :: xs).length).filter fun n => (p + n) % d = 0).filterMap (fun n => (x :: xs)[n]?) =
      (if p = 0 then [x] else []) ++
        ((List.range xs.length).filter fun n => ((p + 1) % d + n) % d = 0).filterMap (fun n => xs[n]?) := by
  have hphase (n : Nat) : (p + (n + 1)) % d = ((p + 1) % d + n) % d := by rw [Nat.mod_add_mod]; congr 1; omega
  have hshift : (fun n => decide ((p + n) % d = 0)) ∘ Nat.succ = fun n => decide (((p + 1) % d + n) % d = 0) :=
    funext fun n => by rw [Function.comp_apply, Nat.succ_eq_add_one, hphase]
  rw [List.length_cons, List.range_succ_eq_map, List.filter_cons, List.filter_map, hshift]
  simp only [Nat.add_zero, Nat.mod_eq_of_lt hp, decide_eq_true_eq]
  split <;> simp [List.filterMap_map]

/-- Settles O37: by induction along the sequence; the phase of the rest is one more, modulo the ratio. -/
theorem decimatorKeepsThePhaseZeroSamples : Obligations.DecimatorKeepsThePhaseZeroSamples := by
  intro d p x hd
  induction x generalizing p with
  | nil => exact fun hp => ⟨rfl, (Nat.mod_eq_of_lt hp).symm⟩
  | cons x xs ih =>
    intro hp
    obtain ⟨hkept, hphase⟩ := ih ((p + 1) % d) (Nat.mod_lt _ hd)
    refine ⟨?_, ?_⟩
    · rw [phaseZero_cons d p x xs hp, ← hkept, decimate]
      split <;> rfl
    · rw [decimate, hphase, Nat.mod_add_mod, List.length_cons]
      congr 1
      omega

/-! ### Filters -/

/-- Settles O38: a step updates the delay line element by element, from its second element on (`delayUpdate_getD`). -/
theorem filterStepIsDirectFormTwoTransposed : Obligations.FilterStepIsDirectFormTwoTransposed := by
  refine ⟨fun b a z => ⟨rfl, fun _ _ => rfl⟩, fun k b a z x hk hb ha hz => ?_⟩
  match b, a, z with
  | b₀ :: bs, a₀ :: as, z₀ :: zs =>
    obtain rfl : zs.length + 1 = k := by simpa using hz
    have hbs : bs.length = zs.length + 1 := by simpa using hb
    have has : as.length = zs.length + 1 := by simpa using ha
    obtain ⟨hinner, hlast⟩ := delayUpdate_getD x (f64Add (f64Mul b₀ x) z₀) zs bs as hbs has
    exact ⟨rfl, delayUpdate_length _ _ _ _ _ hbs has, fun i hi => hinner i (by omega), hlast⟩
  | [], _, _ | _, [], _ => simp at hb ha
  | _, _, [] => simp at hz; omega

/-- A filter over a split sequence (42_demod.md R194). -/
theorem filterRun_append (b a x y : List F64) : ∀ z, filterRun b a z (x ++ y) =
    ((filterRun b a z x).1 ++ (filterRun b a (filterRun b a z x).2 y).1, (filterRun b a (filterRun b a z x).2 y).2) := by
  induction x with
  | nil => exact fun z => rfl
  | cons x xs ih => exact fun z => by simp [filterRun_cons, ih]

/-- The decimator over a split sequence (42_demod.md R194). -/
theorem decimate_append (d : Nat) (x y : List F64) : ∀ p, decimate d p (x ++ y) =
    ((decimate d p x).1 ++ (decimate d (decimate d p x).2 y).1, (decimate d (decimate d p x).2 y).2) := by
  induction x with
  | nil => exact fun p => rfl
  | cons x xs ih =>
    intro p
    simp only [List.cons_append, decimate, ih]
    split <;> rfl

/-- The de-emphasis over a split sequence (42_demod.md R194). -/
theorem deemphasis_append (alpha : F64) (x y : List F64) : ∀ y0, deemphasis alpha y0 (x ++ y) =
    deemphasis alpha y0 x ++ deemphasis alpha ((deemphasis alpha y0 x).getLastD y0) y := by
  induction x with
  | nil => exact fun y0 => rfl
  | cons x xs ih =>
    intro y0
    rw [List.cons_append, deemphasis, deemphasis, ih, List.getLastD_cons]
    rfl

/-- Settles O39. -/
theorem splitSequencesAgreeWithTheWhole : Obligations.SplitSequencesAgreeWithTheWhole :=
  fun x y => ⟨fun b a z => filterRun_append b a x y z, fun d p => decimate_append d x y p, fun alpha y0 => deemphasis_append alpha x y y0⟩

/-! ### The unwrap -/

/-- The wrap of one step, written out (42_demod.md R182). -/
theorem wrapStep_eq (dd : F64) : wrapStep dd =
    let r0 := f64Fmod (f64Add dd Config.pi) (f64Mul f64Two Config.pi)
    let r1 := if f64Lt r0 f64Zero then f64Add r0 (f64Mul f64Two Config.pi) else r0
    let r := if f64Eq r1 f64Zero then f64Zero else r1
    let dm := f64Sub r Config.pi
    if f64Eq dm (f64Negate Config.pi) ∧ f64Lt f64Zero dd then Config.pi else dm :=
  if_congr Bool.and_eq_true_iff rfl rfl

/-- Settles O40: the rule's `c` is the running correction that `unwrapFrom_get` asks for. -/
theorem unwrapAddsTheRunningCorrection : Obligations.UnwrapAddsTheRunningCorrection := by
  intro d c hzero hstep
  refine ⟨unwrap_length d, ?first, ?later⟩
  case first => cases d <;> rfl
  case later =>
    cases d with
    | nil => exact fun n _ hn => absurd hn (Nat.not_lt_zero n)
    | cons d ds =>
      have hcorr : ∀ n, n < ds.length → c (n + 1) = f64Add (if n = 0 then f64Zero else c n)
          (unwrapCorr (f64Sub (ds.getD n f64Zero) (if n = 0 then d else ds.getD (n - 1) f64Zero))) := by
        intro n hn
        have hnext := hstep n (Nat.succ_lt_succ hn)
        rw [hnext, unwrapCorr, wrapStep_eq]
        cases n with
        | zero => rw [hzero]; rfl
        | succ n => rfl
      intro n hn hlen
      obtain ⟨n, rfl⟩ : ∃ m, n = m + 1 := ⟨n - 1, by omega⟩
      exact unwrapFrom_get ds d f64Zero c hcorr n (Nat.lt_of_succ_lt_succ hlen)

/-! ### The peak -/

/-- The magnitude of a sample that is no NaN. -/
theorem absLike_abs {v : F64} (h : f64IsNaN v = false) : AbsLike (f64Abs v) := ⟨f64Neg_abs v, (f64IsNaN_abs v).trans h⟩

/-- A magnitude of zero is `+0.0`. -/
theorem f64Abs_eq_zero {v : F64} (h : f64Mag (f64Abs v) = 0) : f64Abs v = f64Zero :=
  BitVec.eq_of_toNat_eq ((f64Abs_toNat v).trans ((f64Mag_abs v).symm.trans h))

/-- The peak of a block without a NaN is the magnitude of a sample, and no sample has a larger one (42_demod.md R188). -/
theorem blockPeak_of_not_nan {y : List F64} (hne : y ≠ []) (h : ∀ v ∈ y, f64IsNaN v = false) :
    (∃ v ∈ y, blockPeak y = f64Abs v) ∧ ∀ v ∈ y, f64Le (f64Abs v) (blockPeak y) = true := by
  have hany : y.any f64IsNaN = false := List.any_eq_false.mpr fun v hv => by simp [h v hv]
  have hpeak : blockPeak y = (y.map f64Abs).foldl f64Max f64Zero := by rw [blockPeak, hany]; rfl
  obtain ⟨habs, -, hmax, hfrom⟩ := foldl_f64Max_spec (y.map f64Abs) f64Zero ⟨by decide, by decide⟩
    (List.forall_mem_map.mpr fun v hv => absLike_abs (h v hv))
  rw [← hpeak] at habs hmax hfrom
  have hbound : ∀ v ∈ y, f64Mag (f64Abs v) ≤ f64Mag (blockPeak y) := fun v hv => hmax _ (List.mem_map_of_mem hv)
  refine ⟨?_, fun v hv => by rw [f64Le_of_absLike (absLike_abs (h v hv)) habs]; exact decide_eq_true (hbound v hv)⟩
  obtain hzero | hmem := hfrom
  · obtain ⟨v, hv⟩ := List.exists_mem_of_ne_nil y hne
    have hsmall : f64Mag (f64Abs v) ≤ 0 := (hbound v hv).trans_eq (by rw [hzero]; rfl)
    exact ⟨v, hv, hzero.trans (f64Abs_eq_zero (Nat.le_zero.mp hsmall)).symm⟩
  · obtain ⟨v, hv, heq⟩ := List.mem_map.mp hmem
    exact ⟨v, hv, heq.symm⟩

/-- A NaN sample makes the peak a NaN (42_demod.md R188). -/
theorem blockPeak_of_nan {y : List F64} (h : ∃ v ∈ y, f64IsNaN v = true) : f64IsNaN (blockPeak y) = true := by
  have hpeak : blockPeak y = f64NaN := if_pos (List.any_eq_true.mpr h)
  rw [hpeak]
  decide

/-- Settles O42: the peak is that of `blockPeak`. -/
theorem normalisationDividesByThePeak : Obligations.NormalisationDividesByThePeak :=
  fun y hne => ⟨blockPeak y, blockPeak_of_nan, blockPeak_of_not_nan hne, fun hzero => if_pos hzero, fun hpos => if_neg (by simp [hpos])⟩

end Sys2Proof.Machine
end

-- ==== Proofs: the construction of a demodulator ====
section
/-! The proof of `DemodInitConstructsTheDemodulator` (42_demod.md R170, R195; 10_state.md R65): under the rule's hypotheses every check of
`DEMOD_INIT` passes, and the fields are read off `constructDemod`. -/

namespace Sys2Proof.Machine

/-- The selector code of a mode selects it (10_state.md R35). -/
theorem modeOfCode_modeCode (m : Mode) : modeOfCode (modeCode m) = some m := by cases m <;> rfl

/-- A legal cutoff passes its check (42_demod.md R172). -/
theorem badCutoff_of_legal {m : Mode} {fa : Nat} (h : CutoffLegal m fa) : badCutoff (modeCode m) fa = false := by
  cases m with
  | fm => rfl
  | am | cw | usb | lsb => exact decide_eq_false (Nat.not_le.mpr h)

/-- A legal deviation passes its check, which only FM makes (42_demod.md R173). -/
theorem badDeviation_of_legal {m : Mode} {dev : F64} (h : DeviationLegal m dev) : badDeviation (modeCode m) dev = false := by
  cases m with
  | fm =>
    obtain ⟨hfinite, hpos⟩ := h rfl
    simp [badDeviation, hfinite, hpos]
  | am | cw | usb | lsb => rfl

/-- When `DEMOD_INIT` raises nothing. -/
theorem demodInit_checks {s : State} {m : Mode} (hsel : s.csr.modeSel = modeCode m) (hfs : 1 ≤ s.csr.sampleRate.toNat)
    (hfa : 1 ≤ s.csr.audioRate.toNat) (hratio : s.csr.sampleRate.toNat % s.csr.audioRate.toNat = 0)
    (hcutoff : CutoffLegal m s.csr.audioRate.toNat) (hdev : DeviationLegal m s.csr.fmDeviationHz) :
    firstError (checksOf .demodInit s) = none := by
  have hrate : (s.csr.sampleRate == 0 || s.csr.audioRate == 0) = false :=
    Bool.eq_false_iff.mpr (mt (noRate_iff _ _).mp (by omega))
  simp only [checksOf, demodInitChecks, hsel, modeOfCode_modeCode, hrate, hratio, badCutoff_of_legal hcutoff, badDeviation_of_legal hdev]
  rfl

/-- The effects of a construction whose selector names a mode (42_demod.md R170). -/
theorem demodInitEffect_of_mode {s : State} {m : Mode} (hsel : s.csr.modeSel = modeCode m) :
    demodInitEffect s =
      drawn { s with dm := constructDemod s m, sq := Squelch.reset, csr := { s.csr with audioLen := 0 } } := by
  simp only [demodInitEffect, hsel, modeOfCode_modeCode]

/-- In FM the scale and the de-emphasis coefficient are latched (42_demod.md R183, R184). -/
theorem constructDemod_fm (s : State) :
    (constructDemod s .fm).kfm = settle s.draws .kfm (fmScale s.csr.sampleRate.toNat s.csr.fmDeviationHz) ∧
    (constructDemod s .fm).alpha = settle s.draws .alpha (deemphasisAlpha s.csr.audioRate.toNat) := ⟨rfl, rfl⟩

/-- With a ratio above 1 the anti-alias design is latched (42_demod.md R178). -/
theorem constructDemod_antiAlias (s : State) (m : Mode) (hd : 1 < s.csr.sampleRate.toNat / s.csr.audioRate.toNat) :
    (constructDemod s m).aaB =
      settleList s.draws .aaB (aaDesign s.params (s.csr.sampleRate.toNat / s.csr.audioRate.toNat)).1 ∧
    (constructDemod s m).aaA =
      settleList s.draws .aaA (aaDesign s.params (s.csr.sampleRate.toNat / s.csr.audioRate.toNat)).2 := by
  simp [constructDemod, hd]

/-- A mode with a post-filter latches its design and a delay line of its order, all zero (42_demod.md R187, R190; 10_state.md R65). -/
theorem constructDemod_post (s : State) {m : Mode} {k : Nat} {pf : List F64 × List F64} (hk : postOrder m = some k)
    (hpf : postDesign s.params.num m s.csr.audioRate.toNat = some pf) :
    (constructDemod s m).pfB = settleList s.draws .pfB pf.1 ∧ (constructDemod s m).pfA = settleList s.draws .pfA pf.2 ∧
    (constructDemod s m).pfZ = List.replicate k f64Zero := by
  have hfm : (m != .fm) = true := bne_iff_ne.mpr fun h => by rw [h] at hk; cases hk
  simp [constructDemod, hk, hpf, hfm]

/-- Settles O33: `constructDemod` holds what the rule lists, and everything else is read off the record of the effects. -/
theorem demodInitConstructsTheDemodulator : Obligations.DemodInitConstructsTheDemodulator := by
  intro s m hmode fs fa num nyquist hfs hfa hratio hcutoff hdev
  have hsel : s.csr.modeSel = modeCode m := hmode.trans (by cases m <;> rfl)
  have hrun := exec_of_checks (demodInit_checks hsel hfs hfa hratio hcutoff hdev)
  refine ⟨_, hrun, ?_⟩
  rw [show effectOf .demodInit s = demodInitEffect s from rfl, demodInitEffect_of_mode hsel]
  refine ⟨rfl, rfl, rfl, rfl, constructDemod_decim s m, ?inFm, constructDemod_antiAlias s m, ?lowPass, ?bandPass, rfl,
    fun v hv => List.eq_of_mem_replicate hv, rfl, rfl, rfl, rfl, rfl, rfl, fun _ => rfl, ⟨rfl, rfl⟩, rfl, rfl, rfl, rfl, rfl⟩
  case inFm => rintro rfl; exact constructDemod_fm s
  case lowPass => rintro (rfl | rfl) <;> exact constructDemod_post s rfl rfl
  case bandPass => rintro (rfl | rfl) <;> exact constructDemod_post s rfl rfl

end Sys2Proof.Machine
end

-- ==== Proofs: the demodulator on a block ====
section
/-! The proofs of `DemodulateInFmRunsThePipeline` (42_demod.md R177 to R185), `DemodulateInTheFilteredModesRunsThePipeline` (R186 to R191,
R196), `FmAudioIsClipped` (R185) and `UsbEqualsLsb` (R192). What one block does to the demodulator is written out once for FM and once for
the modes with a post-filter; what is stored of it is the same in every mode. -/

namespace Sys2Proof.Machine

/-- The effects of `DEMODULATE` on a block that is not empty (42_demod.md R177). -/
theorem demodulateEffect_of_nonempty {s : State} (h : 0 < iqLength s) :
    demodulateEffect s = drawn (storeAudio (storeEnvelope s (iqBlock s (iqLength s)))
      (demodBlock s.params.num s.draws s.dm (iqBlock s (iqLength s)))) :=
  if_neg (Nat.ne_of_gt h)

/-- Only CW stores its envelope (42_demod.md R196). -/
theorem storeEnvelope_of_ne_cw {s : State} (h : s.dm.mode ≠ .cw) (x : List Cplx) : storeEnvelope s x = s := if_neg h

/-- Sample `m` of the audio lies eight bytes times `m` above sample 0 (20_memory.md R86). -/
theorem audioAddr_eq (m : Nat) : audioAddr m = audioAddr 0 + 8 * m := by simp [audioAddr]

/-- What an audio sample reads as after `DEMODULATE`: the pipeline's value, a NaN with a free pattern (log 1). -/
theorem readWord_demodulate_audio {s : State} (hne : 0 < iqLength s) {audio : List F64}
    (haudio : (demodBlock s.params.num s.draws s.dm (iqBlock s (iqLength s))).1 = audio) {m : Nat} (hm : m < audio.length) :
    readWord (demodulateEffect s) (audioAddr m) = settle s.draws (.bufferWord (audioAddr m)) (audio.getD m f64Zero) := by
  subst haudio
  have hread := readWord_storeValues (storeEnvelope s (iqBlock s (iqLength s))) (audioAddr 0) _ m hm
  rw [storeEnvelope_draws, ← audioAddr_eq] at hread
  rw [demodulateEffect_of_nonempty hne, List.getD_eq_getElem _ _ hm]
  exact hread

/-- The bytes that `DEMODULATE` leaves alone: those outside the audio block and, in CW, outside the envelope. -/
theorem readByte_demodulate_frame {s : State} (hne : 0 < iqLength s) {audio : List F64}
    (haudio : (demodBlock s.params.num s.draws s.dm (iqBlock s (iqLength s))).1 = audio) {a : Nat}
    (hout : a < audioAddr 0 ∨ audioAddr audio.length ≤ a) (henv : s.dm.mode = .cw → a < envAddr 0 ∨ envAddr (iqLength s) ≤ a) :
    readByte (demodulateEffect s) a = readByte s a := by
  subst haudio
  rw [demodulateEffect_of_nonempty hne]
  refine (storeAudio_bytes _ _ a (by simpa [audioAddr, regionBase] using hout)).trans (storeEnvelope_bytes s _ a fun hcw => ?_)
  simpa [envAddr, regionBase] using henv hcw

/-- The registers that `DEMODULATE` writes: the length of the audio and, in CW, of the envelope (42_demod.md R180, R196). -/
theorem csr_demodulate {s : State} (hne : 0 < iqLength s) {audio : List F64}
    (haudio : (demodBlock s.params.num s.draws s.dm (iqBlock s (iqLength s))).1 = audio) :
    (demodulateEffect s).csr = { s.csr with
      audioLen := BitVec.ofNat 32 audio.length, envLen := if s.dm.mode = .cw then s.csr.iqLen else s.csr.envLen } := by
  have hlen : BitVec.ofNat 32 (iqLength s) = s.csr.iqLen := BitVec.ofNat_toNat ..
  rw [demodulateEffect_of_nonempty hne, drawn_csr, storeAudio_csr, haudio, storeEnvelope_csr, iqBlock_length, hlen]
  split <;> rfl

/-- What `DEMODULATE` leaves of the demodulator is what the block made of it. -/
theorem dm_demodulate {s : State} (hne : 0 < iqLength s) :
    (demodulateEffect s).dm = (demodBlock s.params.num s.draws s.dm (iqBlock s (iqLength s))).2 := by
  rw [demodulateEffect_of_nonempty hne]
  rfl

/-! ### What one block does -/

/-- The output of the anti-alias stage (42_demod.md R178). -/
theorem antiAlias_fst (draw : Nat) (dm : Demod) (x : List F64) :
    (antiAlias draw dm x).1 = (if 1 < dm.decim.toNat then filterRun dm.aaB dm.aaA dm.aaZ x else (x, dm.aaZ)).1 := by
  unfold antiAlias
  split <;> rfl

/-- The delay line that the anti-alias stage leaves (42_demod.md R178). -/
theorem antiAlias_snd (draw : Nat) (dm : Demod) (x : List F64) :
    (antiAlias draw dm x).2 = if 1 < dm.decim.toNat then
      settleList draw .aaZ (if 1 < dm.decim.toNat then filterRun dm.aaB dm.aaA dm.aaZ x else (x, dm.aaZ)).2 else dm.aaZ := by
  unfold antiAlias
  split <;> rfl

/-- One block in FM: discriminator, anti-alias filter, decimator, de-emphasis, clip (42_demod.md R177, R181 to R185). -/
theorem demodBlock_fm (c : Numerics) (draw : Nat) {dm : Demod} (hm : dm.mode = .fm) (x : List Cplx) :
    let f := coreFm c dm.kfm dm.fmLastPhase x
    let a := if 1 < dm.decim.toNat then filterRun dm.aaB dm.aaA dm.aaZ f else (f, dm.aaZ)
    let u := decimate dm.decim.toNat dm.decPhase.toNat a.1
    let y := deemphasis dm.alpha dm.fmDeY u.1
    demodBlock c draw dm x =
      (y.map clip,
       { dm with
          aaZ := if 1 < dm.decim.toNat then settleList draw .aaZ a.2 else dm.aaZ
          decPhase := BitVec.ofNat 32 u.2
          fmLastPhase := settle draw .fmLastPhase ((phases c x).getLastD dm.fmLastPhase)
          fmDeY := if u.1 = [] then dm.fmDeY else settle draw .fmDeY (y.getLastD dm.fmDeY) }) := by
  intro f a u y
  have hcore : coreTransform c dm x = f := by rw [coreTransform, hm]
  have hpost (v : List F64) : postFilter draw dm v = postDeemphasis draw dm v := by rw [postFilter, hm]
  have hlast : lastPhaseAfter c draw dm x = settle draw .fmLastPhase ((phases c x).getLastD dm.fmLastPhase) := if_pos hm
  rw [demodBlock, hcore, hpost, hlast, antiAlias_fst, antiAlias_snd, hm]
  rfl

/-- The core transform of a mode with a post-filter: the real part, or the envelope less its mean (42_demod.md R186, R189, R191, R196). -/
theorem coreTransform_filtered (c : Numerics) {dm : Demod} (hm : dm.mode ≠ .fm) (x : List Cplx) :
    coreTransform c dm x = if dm.mode = .usb ∨ dm.mode = .lsb then x.map Prod.fst
      else (envelope c x).map fun e => f64Sub e (meanOf (envelope c x)) := by
  unfold coreTransform
  cases hmode : dm.mode with
  | fm => exact absurd hmode hm
  | am | cw | usb | lsb => rfl

/-- Every mode but FM runs the IIR post-filter (42_demod.md R187, R190). -/
theorem postFilter_filtered (draw : Nat) {dm : Demod} (hm : dm.mode ≠ .fm) (u : List F64) : postFilter draw dm u = postIir draw dm u := by
  unfold postFilter
  cases hmode : dm.mode with
  | fm => exact absurd hmode hm
  | am | cw | usb | lsb => rfl

/-- Every mode but FM normalises by the peak (42_demod.md R188). -/
theorem normFor_filtered {m : Mode} (hm : m ≠ .fm) (y : List F64) : normFor m y = normalise y := by
  cases m with
  | fm => exact absurd rfl hm
  | am | cw | usb | lsb => rfl

/-- One block in a mode with a post-filter: core transform, anti-alias filter, decimator, post-filter, normalisation (42_demod.md R177). -/
theorem demodBlock_filtered (c : Numerics) (draw : Nat) {dm : Demod} (hm : dm.mode ≠ .fm) (x : List Cplx) :
    let core := coreTransform c dm x
    let a := if 1 < dm.decim.toNat then filterRun dm.aaB dm.aaA dm.aaZ core else (core, dm.aaZ)
    let u := decimate dm.decim.toNat dm.decPhase.toNat a.1
    let y := filterRun dm.pfB dm.pfA dm.pfZ u.1
    demodBlock c draw dm x =
      (normalise y.1,
       { dm with
          aaZ := if 1 < dm.decim.toNat then settleList draw .aaZ a.2 else dm.aaZ
          decPhase := BitVec.ofNat 32 u.2
          pfZ := if u.1 = [] then dm.pfZ else settleList draw .pfZ y.2 }) := by
  intro core a u y
  have hlast : lastPhaseAfter c draw dm x = dm.fmLastPhase := if_neg hm
  rw [demodBlock, postFilter_filtered draw hm, normFor_filtered hm, hlast, antiAlias_fst, antiAlias_snd]
  rfl

/-! ### FM -/

/-- An FM sample is stored clipped (42_demod.md R185). -/
theorem getD_map_clip (y : List F64) (m : Nat) : (y.map clip).getD m f64Zero = clip (y.getD m f64Zero) :=
  have hzero : clip f64Zero = f64Zero := by decide
  (congrArg _ hzero.symm).trans (List.getD_map y f64Zero clip)

/-- Settles O35: the differences and the recurrence are those of `phaseDiffs` and `deemphasis`, and the rest is what `demodBlock_fm` stores. -/
theorem demodulateInFmRunsThePipeline : Obligations.DemodulateInFmRunsThePipeline := by
  intro s hvalid hmode hiq hne x phase d f a u y out
  have hblock := demodBlock_fm s.params.num s.draws hmode x
  have haudio : (demodBlock s.params.num s.draws s.dm x).1 = y.map clip := congrArg Prod.fst hblock
  have hphases : phase.length = iqLength s := by simp [phase, x]
  have hdiff (n : Nat) (hn : n < iqLength s) := phaseDiffs_getD phase s.dm.fmLastPhase n (hphases.symm ▸ hn)
  have hcw : s.dm.mode ≠ .cw := by simp [hmode]
  obtain ⟨hstatus, hsq, hmc, -⟩ := demodulate_fields s
  refine ⟨(phaseDiffs_length ..).trans hphases, hdiff 0 hne, fun n hn => hdiff (n + 1) hn, deemphasis_length .., fun m hm => ?recurrence,
    complete Instr.demodulate.opcode .ok (demodulateEffect s), exec_of_checks (demodulate_checks hvalid hiq), fun m hm => ?audio,
    fun b hb => ?bytes, ?csr, (dm_demodulate hne).trans (congrArg Prod.snd hblock), hsq, hmc, ⟨rfl, ?status⟩,
    effectOf_surroundings .demodulate s⟩
  case recurrence => exact deemphasis_getD s.dm.alpha u.1 s.dm.fmDeY m ((deemphasis_length ..) ▸ hm)
  case audio =>
    have hread := readWord_demodulate_audio hne haudio (m := m) ((List.length_map clip).symm ▸ hm)
    rw [getD_map_clip] at hread
    exact hread
  case bytes => exact readByte_demodulate_frame hne haudio ((List.length_map clip).symm ▸ hb) fun h => absurd h hcw
  case csr =>
    have hcsr := csr_demodulate hne haudio
    rw [List.length_map, if_neg hcw] at hcsr
    exact hcsr
  case status => rw [complete_status]; simp only [hstatus]; rfl

/-- Settles O41: a sample of the block is a stored clip, and a comparison does not see the pattern of a NaN. -/
theorem fmAudioIsClipped : Obligations.FmAudioIsClipped := by
  intro s t hrun hok hmode _ m hm
  obtain ⟨-, rfl⟩ := exec_of_err_zero hrun hok
  have hm' : m < (demodulateEffect s).csr.audioLen.toNat := hm
  show f64Lt (readWord (demodulateEffect s) _) _ = false ∧ f64Lt _ (readWord (demodulateEffect s) _) = false
  obtain hempty | hne := Nat.eq_zero_or_pos (iqLength s)
  · rw [demodulateEffect_of_empty hempty] at hm'
    exact absurd hm' (Nat.not_lt_zero m)
  · have haudio := congrArg Prod.fst (demodBlock_fm s.params.num s.draws hmode (iqBlock s (iqLength s)))
    rw [csr_demodulate hne haudio] at hm'
    rw [readWord_demodulate_audio hne haudio (lt_of_lt_of_le hm' ((BitVec.toNat_ofNat _ _).trans_le (Nat.mod_le _ _))), getD_map_clip,
      f64Lt_settle_left, f64Lt_settle_right]
    exact clip_bounds _

/-! ### The modes with a post-filter -/

/-- Sample `n` of the envelope lies eight bytes times `n` above sample 0 (20_memory.md R87). -/
theorem envAddr_eq (n : Nat) : envAddr n = envAddr 0 + 8 * n := by simp [envAddr]

/-- What an envelope sample reads as after `DEMODULATE` in CW: the audio block, which is stored later, ends below `ENVBUF`. -/
theorem readWord_demodulate_env {s : State} (hne : 0 < iqLength s) (hmax : iqLength s ≤ 65536) (hcw : s.dm.mode = .cw) {n : Nat}
    (hn : n < iqLength s) :
    readWord (demodulateEffect s) (envAddr n) = settle s.draws (.bufferWord (envAddr n))
      ((envelope s.params.num (iqBlock s (iqLength s))).getD n f64Zero) := by
  have hn' : n < (envelope s.params.num (iqBlock s (iqLength s))).length := by simpa using hn
  have hread := readWord_storeValues s (envAddr 0) (envelope s.params.num (iqBlock s (iqLength s))) n hn'
  rw [← envAddr_eq] at hread
  rw [List.getD_eq_getElem _ _ hn', ← hread, demodulateEffect_of_nonempty hne]
  refine readWord_congr _ (fun i hi => ?_) (by simp)
  have hlen := demodBlock_length_le s.params.num s.draws s.dm (iqBlock s (iqLength s))
  rw [iqBlock_length] at hlen
  rw [drawn_mem, storeAudio_mem, memGet_memSetWords_outside, storeEnvelope_mem, if_pos hcw]
  · rfl
  · right
    simp [envAddr, audioAddr, regionBase]
    omega

/-- The envelope and its mean sample by sample (42_demod.md R186). -/
theorem envelope_mean (c : Numerics) (s : State) (n : Nat) :
    meanOf (envelope c (iqBlock s n)) = f64Div (f64Sum (envelope c (iqBlock s n))) (f64OfNat n) := by
  rw [meanOf, envelope_length, iqBlock_length]

/-- Settles O36: the core transform is that of `coreTransform_filtered`, and the rest is what `demodBlock_filtered` stores. -/
theorem demodulateInTheFilteredModesRunsThePipeline : Obligations.DemodulateInTheFilteredModesRunsThePipeline := by
  intro s hlegal hvalid hmode hiq hne x env mean core a u y out
  have hcore : coreTransform s.params.num s.dm x = core := by
    rw [coreTransform_filtered s.params.num hmode x, envelope_mean]
    rfl
  have hblock := demodBlock_filtered s.params.num s.draws hmode x
  simp only [hcore] at hblock
  have haudio : (demodBlock s.params.num s.draws s.dm x).1 = out := congrArg Prod.fst hblock
  obtain ⟨hmax, -⟩ := legal_bounds hlegal
  obtain ⟨hstatus, hsq, hmc, -⟩ := demodulate_fields s
  refine ⟨complete Instr.demodulate.opcode .ok (demodulateEffect s), exec_of_checks (demodulate_checks hvalid hiq),
    fun m hm => readWord_demodulate_audio hne haudio hm, fun hcw n hn => readWord_demodulate_env hne (hiq.1.trans hmax) hcw hn,
    fun b hb henv => readByte_demodulate_frame hne haudio hb henv, csr_demodulate hne haudio,
    (dm_demodulate hne).trans (congrArg Prod.snd hblock), hsq, hmc, ⟨rfl, ?status⟩, effectOf_surroundings .demodulate s⟩
  case status => rw [complete_status]; simp only [hstatus]; rfl

/-! ### USB and LSB -/

/-- The state with its demodulator in LSB. -/
def inLsb (s : State) : State := { s with dm := { s.dm with mode := .lsb } }

/-- In LSB a block comes out as in USB, but for the mode held (42_demod.md R192). -/
theorem demodBlock_lsb (c : Numerics) (draw : Nat) {dm : Demod} (hm : dm.mode = .usb) (x : List Cplx) :
    demodBlock c draw { dm with mode := .lsb } x =
      ((demodBlock c draw dm x).1, { (demodBlock c draw dm x).2 with mode := .lsb }) := by
  have hfm : dm.mode ≠ .fm := by simp [hm]
  have hcore : coreTransform c { dm with mode := .lsb } x = coreTransform c dm x := by
    rw [coreTransform_filtered c hfm, if_pos (.inl hm)]
    rfl
  rw [demodBlock_filtered c draw hfm, demodBlock_filtered c draw (dm := { dm with mode := .lsb }) (by simp), hcore]

/-- An empty block outside CW clears the audio length alone (42_demod.md R193). -/
theorem emptyAudio_of_ne_cw {s : State} (h : s.dm.mode ≠ .cw) : emptyAudio s = { s with csr := { s.csr with audioLen := 0 } } := by
  rw [emptyAudio, if_neg h]

/-- The effects of `DEMODULATE` do not see which of the two modes it is. -/
theorem demodulateEffect_inLsb {s : State} (hm : s.dm.mode = .usb) : demodulateEffect (inLsb s) = inLsb (demodulateEffect s) := by
  have hcw : s.dm.mode ≠ .cw := by simp [hm]
  obtain hempty | hne := Nat.eq_zero_or_pos (iqLength s)
  · rw [demodulateEffect_of_empty hempty, demodulateEffect_of_empty (s := inLsb s) hempty, emptyAudio_of_ne_cw hcw,
      emptyAudio_of_ne_cw (s := inLsb s) (by simp [inLsb])]
    rfl
  · rw [demodulateEffect_of_nonempty hne, demodulateEffect_of_nonempty (s := inLsb s) hne, storeEnvelope_of_ne_cw hcw,
      storeEnvelope_of_ne_cw (s := inLsb s) (by simp [inLsb])]
    have hblock := demodBlock_lsb s.params.num s.draws hm (iqBlock s (iqLength s))
    rw [show demodBlock (inLsb s).params.num (inLsb s).draws (inLsb s).dm (iqBlock (inLsb s) (iqLength (inLsb s))) = _ from hblock]
    rfl

/-- Settles O43: neither the checks nor the effects see which of the two modes it is. -/
theorem usbEqualsLsb : Obligations.UsbEqualsLsb := by
  intro s t hmode hrun
  show exec .demodulate (inLsb s) = .next (inLsb t)
  have hchecks : checksOf .demodulate (inLsb s) = checksOf .demodulate s := rfl
  rw [exec_eq]
  obtain ⟨e, hfail, -, rfl⟩ | ⟨hpass, rfl⟩ := exec_cases hrun
  · rw [runCommand_raise _ _ _ (hchecks ▸ hfail)]
    rfl
  · rw [runCommand_ok _ _ _ (hchecks ▸ hpass)]
    simp only [effectOf, demodulateEffect_inLsb hmode]
    rfl

end Sys2Proof.Machine
end

-- ==== Proofs: the Morse decoder on a block ====
section
/-! The proofs of `MorseInitConstructsTheDecoder` (43_morse.md R220) and of the statements about `MORSE_FEED` on a block that is not empty
(R226 to R235): the block is in the standing state, or ends a tone, or ends a gap, and each of the three is written out once. -/

namespace Sys2Proof.Machine

/-- Settles O44: the three checks pass, and the effects are a latch and a clear. -/
theorem morseInitConstructsTheDecoder : Obligations.MorseInitConstructsTheDecoder := by
  intro s hfinite hpos hrate hthr
  have hrate' : (s.csr.morseRate == 0) = false := beq_eq_false_iff_ne.mpr hrate
  have hpass : firstError (checksOf .morseInit s) = none := by
    simp only [checksOf, morseInitChecks, hfinite, hpos, hrate', hthr]
    rfl
  exact ⟨_, exec_of_checks hpass, rfl, rfl, rfl, rfl, rfl, rfl, fun _ => rfl, rfl, rfl, rfl, rfl, rfl⟩

/-! ### The three kinds of block -/

/-- The mean of the envelope block (43_morse.md R226). -/
def envMean (s : State) : F64 := f64Div (f64Sum ((List.range (envLength s)).map (envSample s))) (f64OfNat (envLength s))

/-- The time that the envelope block lasts (43_morse.md R231). -/
def envSeconds (s : State) : F64 := f64Div (f64OfNat (envLength s)) (f64OfNat s.mc.rate.toNat)

/-- A feed after its transition: the new on/off state, and the duration that the block lengthens (43_morse.md R231). -/
def lengthen (s : State) (cur : Bool) (g : Feed) : Feed :=
  { g with mc := { g.mc with dur := settle s.draws .dur (f64Add g.mc.dur (envSeconds s)), last := cur } }

/-- A transition keeps the rate of the decoder. -/
theorem feedTransition_rate (cap : Nat) (cur : Bool) (f : Feed) : (feedTransition cap cur f).mc.rate = f.mc.rate :=
  (FeedKeeps.transition cap cur f).rate

/-- The effects of `MORSE_FEED` on a block that is not empty, by its on/off decision (43_morse.md R224, R227). -/
theorem feedEffect_of_nonempty {s : State} (h : 0 < envLength s) {cur : Bool} (hcur : f64Lt s.mc.thr (envMean s) = cur) :
    feedEffect s = drawn (feedInto s (lengthen s cur (feedTransition s.params.textCap cur (feedOf s)))) := by
  have hmean : meanOf (envBlock s (envLength s)) = envMean s := by rw [meanOf, envBlock_length]; rfl
  have hthr : (feedOf s).mc.thr = s.mc.thr := rfl
  have hrate : (feedOf s).mc.rate = s.mc.rate := rfl
  rw [feedEffect, if_neg (Nat.ne_of_gt h), feedBlock, hmean, hthr, hcur, hrate, envBlock_length]
  rfl

/-- A feed completes with its effects where a decoder is valid and the envelope usable. -/
theorem exec_morseFeed {s : State} (hvalid : s.mc.valid = true) (henv : EnvUsable s) :
    exec .morseFeed s = .next (complete Instr.morseFeed.opcode .ok (feedEffect s)) := exec_of_checks (feed_checks hvalid henv)

/-- The word of an empty increment is 0. -/
theorem textIncWord_nil : textIncWord [] = 0 := by decide

/-- A feed that emits nothing clears `TEXT_INC` and leaves every other register. -/
theorem csr_feedInto_of_silent (s : State) {g : Feed} (h : g.inc = []) :
    (drawn (feedInto s g)).csr = { s.csr with textInc := 0 } := by
  rw [drawn_csr, feedInto_csr, h, textIncWord_nil]

/-! ### The standing state -/

/-- Settles O47: without a transition only the duration grows. -/
theorem morseFeedWithoutATransitionLengthensTheState : Obligations.MorseFeedWithoutATransitionLengthensTheState := by
  intro s hvalid henv hne avg ds hcur
  have hstand : feedTransition s.params.textCap s.mc.last (feedOf s) = feedOf s := if_pos rfl
  refine ⟨_, exec_morseFeed hvalid henv, ?_⟩
  rw [feedEffect_of_nonempty hne hcur, hstand]
  exact ⟨rfl, csr_feedInto_of_silent s rfl, rfl, rfl, fun _ => rfl, ⟨rfl, rfl⟩, rfl, rfl, rfl, rfl, rfl⟩

/-! ### A tone that ends -/

/-- `APPEND` changes the code alone (43_morse.md R232). -/
theorem feedAppend_eq (y : Symbol) (f : Feed) : feedAppend y f = { f with mc := { f.mc with code := (feedAppend y f).mc.code } } := by
  unfold feedAppend
  split <;> rfl

/-- The end of a tone changes the code alone (43_morse.md R228). -/
theorem leaveTone_eq (f : Feed) : leaveTone f = { f with mc := { f.mc with code := (leaveTone f).mc.code } } := by
  unfold leaveTone
  split
  · exact feedAppend_eq _ _
  · split
    · exact feedAppend_eq _ _
    · rfl

/-- A long tone appends a dash (43_morse.md R228). -/
theorem leaveTone_of_dash {f : Feed} (h : f64Le (dashThreshold f.mc.dot) f.mc.dur = true) : leaveTone f = feedAppend .dash f := if_pos h

/-- A shorter one appends a dot (43_morse.md R228). -/
theorem leaveTone_of_dot {f : Feed} (h : ¬ f64Le (dashThreshold f.mc.dot) f.mc.dur = true)
    (h' : f64Le (dotThreshold f.mc.dot) f.mc.dur = true) : leaveTone f = feedAppend .dot f := (if_neg h).trans (if_pos h')

/-- A tone shorter than that is noise (43_morse.md R228). -/
theorem leaveTone_of_noise {f : Feed} (h : ¬ f64Le (dashThreshold f.mc.dot) f.mc.dur = true)
    (h' : ¬ f64Le (dotThreshold f.mc.dot) f.mc.dur = true) : leaveTone f = f := (if_neg h).trans (if_neg h')

/-- A full code takes no symbol (43_morse.md R232). -/
theorem leaveTone_of_full {f : Feed} (h : 32 ≤ f.mc.code.length) : (leaveTone f).mc.code = f.mc.code := by
  have hfull (y : Symbol) : (feedAppend y f).mc.code = f.mc.code := by rw [feedAppend_code, if_neg (Nat.not_lt.mpr h)]
  unfold leaveTone
  split
  · exact hfull _
  · split
    · exact hfull _
    · rfl

/-- A block that is off after a tone: the code takes the symbol and the duration starts again (43_morse.md R231). -/
theorem feedTransition_tone (cap : Nat) {f : Feed} (h : f.mc.last = true) :
    feedTransition cap false f = { f with mc := { f.mc with code := (leaveTone f).mc.code, dur := f64Zero } } := by
  rw [feedTransition, if_neg (by simp [h]), if_pos h, leaveTone_eq f]

/-- Settles O48: the symbol is that of `leaveTone`. -/
theorem morseFeedAfterAToneAppendsItsSymbol : Obligations.MorseFeedAfterAToneAppendsItsSymbol := by
  intro s hvalid henv hne avg ds isDash isDot hlast hcur
  refine ⟨_, exec_morseFeed hvalid henv, ?_⟩
  rw [feedEffect_of_nonempty hne hcur, feedTransition_tone s.params.textCap (f := feedOf s) hlast]
  have happend (y : Symbol) (hroom : s.mc.code.length < 32) : (feedAppend y (feedOf s)).mc.code = s.mc.code ++ [y] :=
    (feedAppend_code y (feedOf s)).trans (if_pos hroom)
  exact ⟨fun hdash hroom => (congrArg (·.mc.code) (leaveTone_of_dash (f := feedOf s) hdash)).trans (happend .dash hroom),
    fun hdash hdot hroom => (congrArg (·.mc.code) (leaveTone_of_dot (f := feedOf s) hdash hdot)).trans (happend .dot hroom),
    fun hdash hdot => congrArg (·.mc.code) (leaveTone_of_noise (f := feedOf s) hdash hdot),
    fun hfull => leaveTone_of_full (f := feedOf s) hfull, rfl, csr_feedInto_of_silent s rfl, rfl, rfl, fun _ => rfl, ⟨rfl, rfl⟩, rfl, rfl, rfl, rfl, rfl⟩

/-! ### A gap that ends -/

/-- What the end of a gap emits: nothing for an empty code, else the character and, after a word gap, a space (43_morse.md R229, R230). -/
def gapOutput (mc : Morse) : List Byte :=
  if mc.code = [] then []
  else if f64Le (wordGapThreshold mc.dot) mc.dur then [morseChar mc.code, 0x20]
  else if f64Le (charGapThreshold mc.dot) mc.dur then [morseChar mc.code]
  else []

/-- The code after a gap: cleared where the gap was long enough (43_morse.md R229). -/
def gapCode (mc : Morse) : List Symbol :=
  if f64Le (wordGapThreshold mc.dot) mc.dur || f64Le (charGapThreshold mc.dot) mc.dur then [] else mc.code

/-- A gap emits nothing, a character, or a character and a space (43_morse.md R235). -/
theorem gapOutput_cases (mc : Morse) : gapOutput mc = [] ∨ ∃ c, gapOutput mc = [c] ∨ gapOutput mc = [c, 0x20] := by
  unfold gapOutput
  split
  · exact .inl rfl
  · split
    · exact .inr ⟨_, .inr rfl⟩
    · split
      · exact .inr ⟨_, .inl rfl⟩
      · exact .inl rfl

/-- The increment holds at most two characters. -/
theorem gapOutput_length_le (mc : Morse) : (gapOutput mc).length ≤ 2 := by
  obtain h | ⟨c, h | h⟩ := gapOutput_cases mc <;> simp [h]

/-- The emitted bytes in a feed: into the increment and, where they fit, into the text and its buffer (43_morse.md R233). -/
def emitted (cap : Nat) (out : List Byte) (code : List Symbol) (f : Feed) : Feed :=
  { mc := { f.mc with text := f.mc.text ++ out.take (cap - f.mc.text.length), code := code }
    mem := memSetBytes f.mem (textAddr f.mc.text.length) (out.take (cap - f.mc.text.length))
    textOvf := f.textOvf || decide (cap < f.mc.text.length + out.length ∧ out ≠ [])
    inc := f.inc ++ out }

/-- Nothing emitted changes the code alone. -/
theorem emitted_nil (cap : Nat) (code : List Symbol) (f : Feed) : emitted cap [] code f = { f with mc := { f.mc with code := code } } := by
  simp [emitted, memSetBytes]

/-- `FINALISE` of an empty code emits nothing (43_morse.md R230). -/
theorem feedFinalise_of_empty (cap : Nat) (sp : Bool) {f : Feed} (h : f.mc.code = []) : feedFinalise cap sp f = emitted cap [] [] f := by
  rw [emitted_nil, feedFinalise, if_pos h]

/-- `FINALISE` of a pending code emits its character and perhaps a space (43_morse.md R230). -/
theorem feedFinalise_of_pending (cap : Nat) (sp : Bool) {f : Feed} (h : f.mc.code ≠ []) :
    feedFinalise cap sp f = emitted cap (if sp then [morseChar f.mc.code, 0x20] else [morseChar f.mc.code]) [] f := by
  have hne : (if sp then [morseChar f.mc.code, 0x20] else [morseChar f.mc.code]) ≠ [] := by cases sp <;> simp
  simp only [feedFinalise_eq cap sp f h, emitted, hne, ne_eq, not_false_eq_true, and_true]

/-- The end of a gap: its output emitted and, where it was long enough, the code cleared (43_morse.md R229). -/
theorem leaveGap_eq (cap : Nat) (f : Feed) : leaveGap cap f = emitted cap (gapOutput f.mc) (gapCode f.mc) f := by
  unfold leaveGap gapOutput gapCode
  by_cases hcode : f.mc.code = []
  · have hsame : emitted cap [] [] f = f := by rw [emitted_nil, ← hcode]
    rw [feedFinalise_of_empty cap true hcode, feedFinalise_of_empty cap false hcode, if_pos hcode, hcode, ite_self, hsame, ite_self, ite_self]
  · rw [feedFinalise_of_pending cap true hcode, feedFinalise_of_pending cap false hcode, if_neg hcode]
    cases f64Le (wordGapThreshold f.mc.dot) f.mc.dur with
    | true => rfl
    | false =>
      cases f64Le (charGapThreshold f.mc.dot) f.mc.dur with
      | true => rfl
      | false => exact (emitted_nil cap f.mc.code f).symm

/-- A block that is on after a gap: the gap's output is emitted and the duration starts again (43_morse.md R231). -/
theorem feedTransition_gap (cap : Nat) {f : Feed} (h : f.mc.last = false) :
    feedTransition cap true f =
      { emitted cap (gapOutput f.mc) (gapCode f.mc) f with
        mc := { (emitted cap (gapOutput f.mc) (gapCode f.mc) f).mc with dur := f64Zero } } := by
  rw [feedTransition, if_neg (by simp [h]), if_neg (by simp [h]), leaveGap_eq]

/-- Settles O49: the output is that of `gapOutput`, and `emitted` says where it goes. -/
theorem morseFeedAfterAGapFinalisesTheCode : Obligations.MorseFeedAfterAGapFinalisesTheCode := by
  intro s hvalid henv hne avg ds wordGap charGap out stored at0 hlast hcur
  have hout : out = gapOutput s.mc := rfl
  refine ⟨complete Instr.morseFeed.opcode .ok (feedEffect s), exec_morseFeed hvalid henv, ?_⟩
  rw [feedEffect_of_nonempty hne hcur, feedTransition_gap s.params.textCap (f := feedOf s) hlast]
  obtain ⟨hinside, houtside⟩ := readByte_memSetBytes s
    (complete Instr.morseFeed.opcode .ok (drawn (feedInto s (lengthen s true
      { emitted s.params.textCap (gapOutput s.mc) (gapCode s.mc) (feedOf s) with
        mc := { (emitted s.params.textCap (gapOutput s.mc) (gapCode s.mc) (feedOf s)).mc with dur := f64Zero } }))))
    at0 stored rfl rfl
  exact ⟨rfl, hinside, houtside, rfl, textIncWord_toNat out (gapOutput_length_le s.mc), rfl, rfl, rfl, rfl, rfl, rfl, rfl, rfl, rfl⟩

/-! ### The increment -/

/-- The fields of the word of an increment of at most two characters (10_state.md R56). -/
theorem textIncWord_fields {inc : List Byte} (h : inc.length ≤ 2) :
    ((textIncWord inc).extractLsb' 16 2).toNat = inc.length ∧ (textIncWord inc).extractLsb' 18 46 = 0 ∧
    (textIncWord inc).extractLsb' 8 8 = inc.getD 1 0 := by
  have hval := textIncWord_toNat inc h
  have h0 := (inc.getD 0 0).isLt
  have h1 := (inc.getD 1 0).isLt
  refine ⟨?_, BitVec.eq_of_toNat_eq ?_, BitVec.eq_of_toNat_eq ?_⟩ <;>
    rw [BitVec.extractLsb'_toNat, Nat.shiftRight_eq_div_pow, hval] <;> simp <;> omega

/-- What a transition emits, and how much of it reaches the text (43_morse.md R235). -/
theorem feedTransition_emits (cap : Nat) (cur : Bool) (f : Feed) :
    ∃ out : List Byte, (out = [] ∨ ∃ c, out = [c] ∨ out = [c, 0x20]) ∧ (feedTransition cap cur f).inc = f.inc ++ out ∧
      (feedTransition cap cur f).mc.text = f.mc.text ++ out.take (cap - f.mc.text.length) := by
  by_cases hsame : cur = f.mc.last
  · have hstand : feedTransition cap cur f = f := if_pos hsame
    exact ⟨[], .inl rfl, by simp [hstand], by simp [hstand]⟩
  · cases hlast : f.mc.last with
    | true =>
      obtain rfl : cur = false := by simpa [hlast] using hsame
      exact ⟨[], .inl rfl, by simp [feedTransition_tone cap hlast], by simp [feedTransition_tone cap hlast]⟩
    | false =>
      obtain rfl : cur = true := by simpa [hlast] using hsame
      rw [feedTransition_gap cap hlast]
      exact ⟨gapOutput f.mc, gapOutput_cases f.mc, rfl, rfl⟩

/-- Settles O50: an empty envelope emits nothing, and a transition what `feedTransition_emits` says. -/
theorem morseIncrementIsAtMostACharacterAndASpace : Obligations.MorseIncrementIsAtMostACharacterAndASpace := by
  intro s t hrun hok
  obtain ⟨-, rfl⟩ := exec_of_err_zero hrun hok
  obtain ⟨out, stored, hout, hinc, htext, hstored⟩ : ∃ out stored : List Byte, (out = [] ∨ ∃ c, out = [c] ∨ out = [c, 0x20]) ∧
      (feedEffect s).csr.textInc = textIncWord out ∧ (feedEffect s).mc.text = s.mc.text ++ stored ∧ stored.length ≤ out.length := by
    obtain hempty | hne := Nat.eq_zero_or_pos (envLength s)
    · rw [feedEffect_of_empty hempty]
      exact ⟨[], [], .inl rfl, textIncWord_nil.symm, (List.append_nil _).symm, Nat.le_refl 0⟩
    · obtain ⟨out, hout, hinc, htext⟩ := feedTransition_emits s.params.textCap (f64Lt s.mc.thr (envMean s)) (feedOf s)
      rw [feedEffect_of_nonempty hne rfl]
      exact ⟨out, _, hout, congrArg textIncWord hinc, htext, (List.length_take_le' _ _)⟩
  have hlen : out.length ≤ 2 := by obtain rfl | ⟨c, rfl | rfl⟩ := hout <;> simp
  obtain ⟨hcount, hrest, hsecond⟩ := textIncWord_fields hlen
  simp only [effectOf, complete_csr, complete_mc, hinc, hcount, hrest, hsecond]
  refine ⟨hlen, trivial, fun htwo => ?_, stored, htext, hstored⟩
  obtain rfl | ⟨c, rfl | rfl⟩ := hout
  · cases htwo
  · cases htwo
  · rfl

end Sys2Proof.Machine
end

-- ==== Proofs: the per-block flow ====
section
/-! The proofs of `ProcessBlockRunsTheUnitsInOrder` (44_control.md R255, R256) and `ClosedGateStopsAudioAndMorse` (R257). The units ignore the
completion fields, so a unit run as a command of its own has the effects that it has inside `PROCESS_BLOCK`. -/

namespace Sys2Proof.Machine

/-- When `PROCESS_BLOCK` raises nothing. -/
theorem process_checks {s : State} (hfft : FftLegal s) (hsq : SquelchLegal s)
    (hmorse : s.dm.valid = true → s.dm.mode = .cw → s.mc.valid = true) (hiq : IqUsable s) :
    firstError (checksOf .processBlock s) = none := by
  obtain ⟨hlen, hfin⟩ := (iqUsable_iff s).mp hiq
  have hdecoder : (s.dm.valid && s.dm.mode == .cw && !s.mc.valid) = false :=
    Bool.eq_false_iff.mpr (mt (noMorse_iff s).mp fun ⟨hvalid, hcw, hnone⟩ => Bool.noConfusion (hnone.symm.trans (hmorse hvalid hcw)))
  simp only [checksOf, processChecks, (badFftSize_eq_false s).mpr hfft, (badSquelchConfig_eq_false s).mpr hsq, hdecoder, hlen, hfin]
  rfl

/-! ### The IQ block along the flow -/

/-- A word is its eight bytes. -/
theorem readWord_congr_bytes {s t : State} (a : Nat) (h : ∀ i < 8, readByte t (a + i) = readByte s (a + i)) :
    readWord t a = readWord s a :=
  congrArg wordOfBytes (List.map_congr_left fun i hi => h i (List.mem_range.mp hi))

/-- `ANALYZE` leaves the samples: `IQBUF` lies below `SPECBUF` (20_memory.md R81). -/
theorem iqSample_analyzeEffect {s : State} (hlegal : s.params.legal = true) {n : Nat} (hn : n < s.params.blockMax) :
    iqSample (analyzeEffect s) n = iqSample s n := by
  obtain ⟨hmax, -⟩ := legal_bounds hlegal
  have hword (a : Nat) (ha : a + 8 ≤ 0x200000) : readWord (analyzeEffect s) a = readWord s a :=
    readWord_congr_bytes a fun i hi => analyze_bytes s (a + i) (by omega)
  have haddr : iqAddr n = 0x100000 + 16 * n := rfl
  exact Prod.ext (hword _ (by omega)) (hword _ (by omega))

/-- A block usable before `ANALYZE` is usable after it. -/
theorem iqUsable_analyzeEffect {s : State} (hlegal : s.params.legal = true) (hiq : IqUsable s) : IqUsable (analyzeEffect s) := by
  obtain ⟨hmax, hfin⟩ := hiq
  obtain ⟨-, -, -, -, -, hlen, -, -⟩ := analyze_fields s
  obtain ⟨hparams, -⟩ := effectOf_surroundings .analyze s
  have hlength : iqLength (analyzeEffect s) = iqLength s := by rw [iqLength, hlen, iqLength]
  have hcap : (analyzeEffect s).params = s.params := hparams
  refine ⟨by rw [hlength, hcap]; exact hmax, fun n hn => ?_⟩
  rw [hlength] at hn
  rw [iqSample_analyzeEffect hlegal (hn.trans_le hmax)]
  exact hfin n hn

/-- `SQ_EVALUATE` leaves the block as it is. -/
theorem iqUsable_squelchEffect {s : State} (hiq : IqUsable s) : IqUsable (squelchEffect s) := by
  unfold squelchEffect
  split <;> exact hiq

/-- `ANALYZE` leaves the squelch configuration. -/
theorem squelchLegal_analyzeEffect {s : State} (hsq : SquelchLegal s) : SquelchLegal (analyzeEffect s) := by
  unfold analyzeEffect
  split <;> exact hsq

/-! ### The units as commands -/

/-- The state that `ANALYZE` and `SQ_EVALUATE` leave inside `PROCESS_BLOCK` (44_control.md R255). -/
def flowStart (s : State) : State := squelchEffect (analyzeEffect s)

/-- `ANALYZE` and then `SQ_EVALUATE` succeed where the checks of the flow pass, and leave its state but for the completion. -/
theorem exec_flowStart {s : State} (hlegal : s.params.legal = true) (hfft : FftLegal s) (hsq : SquelchLegal s) (hiq : IqUsable s) :
    exec .analyze s = .next (complete Instr.analyze.opcode .ok (analyzeEffect s)) ∧
    exec .sqEvaluate (complete Instr.analyze.opcode .ok (analyzeEffect s)) =
      .next (complete Instr.sqEvaluate.opcode .ok (flowStart s)) := by
  have hpass : firstError (checksOf .sqEvaluate (analyzeEffect s)) = none :=
    squelch_checks (squelchLegal_analyzeEffect hsq) (iqUsable_analyzeEffect hlegal hiq)
  refine ⟨exec_of_checks (analyze_checks hfft hiq), (exec_of_checks (s := complete Instr.analyze.opcode .ok (analyzeEffect s)) hpass).trans ?_⟩
  rw [show effectOf .sqEvaluate (complete Instr.analyze.opcode .ok (analyzeEffect s)) = _ from squelchEffect_complete _ _]
  rfl

/-- `DEMODULATE` after them succeeds where a demodulator is valid. -/
theorem exec_flowDemodulate {s : State} (hlegal : s.params.legal = true) (hiq : IqUsable s) (hvalid : s.dm.valid = true) :
    exec .demodulate (complete Instr.sqEvaluate.opcode .ok (flowStart s)) =
      .next (complete Instr.demodulate.opcode .ok (demodulateEffect (flowStart s))) := by
  obtain ⟨-, hdm, -, -⟩ := pre_fields s
  have hpass : firstError (checksOf .demodulate (flowStart s)) = none :=
    demodulate_checks (by rw [flowStart, hdm]; exact hvalid) (iqUsable_squelchEffect (iqUsable_analyzeEffect hlegal hiq))
  refine (exec_of_checks (s := complete Instr.sqEvaluate.opcode .ok (flowStart s)) hpass).trans ?_
  rw [show effectOf .demodulate (complete Instr.sqEvaluate.opcode .ok (flowStart s)) = _ from demodulateEffect_complete _ _]
  rfl

/-! ### The three ways of the flow -/

/-- With a closed gate or no demodulator there is no audio (44_control.md R255). -/
theorem processEffect_of_closed {s : State} (h : (flowStart s).dm.valid = false ∨ (flowStart s).sq.isOpenOut = false) :
    processEffect s = noAudio (flowStart s) :=
  if_neg (Bool.eq_false_iff.mp (Bool.and_eq_false_iff.mpr h))

/-- With an open gate and a demodulator the audio part runs (44_control.md R255). -/
theorem processEffect_of_open {s : State} (hvalid : (flowStart s).dm.valid = true) (hopen : (flowStart s).sq.isOpenOut = true) :
    processEffect s = processAudio (flowStart s) :=
  if_pos (Bool.and_eq_true_iff.mpr ⟨hvalid, hopen⟩)

/-- Outside CW the audio part is the demodulator alone (44_control.md R256). -/
theorem processAudio_of_ne_cw {s : State} (h : s.dm.mode ≠ .cw) :
    processAudio s = { demodulateEffect s with csr := { (demodulateEffect s).csr with textInc := 0 } } := if_neg h

/-- In CW the audio part feeds the fresh envelope to the Morse decoder (44_control.md R256). -/
theorem processAudio_of_cw {s : State} (h : s.dm.mode = .cw) : processAudio s = feedEffect (demodulateEffect s) := if_pos h

/-- A Morse decoder stays through the flow up to the feed. -/
theorem flowDemodulate_morseValid (s : State) : (demodulateEffect (flowStart s)).mc.valid = s.mc.valid := by
  obtain ⟨-, -, hmc, -⟩ := demodulate_fields (flowStart s)
  obtain ⟨-, -, hmc', -⟩ := pre_fields s
  rw [hmc, flowStart, hmc']

/-- The completion of `PROCESS_BLOCK` over that of its last unit: `ERR` is 0 in both. -/
theorem complete_processBlock (q : Byte) (s : State) :
    complete Instr.processBlock.opcode .ok s =
      { complete q .ok s with status := { (complete q .ok s).status with lastOp := Instr.processBlock.opcode } } := rfl

/-- The same over the completions of the last two units. -/
theorem complete_processBlock_twice (q r : Byte) (s : State) :
    complete Instr.processBlock.opcode .ok s =
      { complete q .ok (complete r .ok s) with
        status := { (complete q .ok (complete r .ok s)).status with lastOp := Instr.processBlock.opcode } } := rfl

/-- Settles O52: the effects of the flow are those of the units, and only the last completion stands. -/
theorem processBlockRunsTheUnitsInOrder : Obligations.ProcessBlockRunsTheUnitsInOrder := by
  intro s hlegal hfft hsq hmorse hiq
  obtain ⟨hanalyze, hsquelch⟩ := exec_flowStart hlegal hfft hsq hiq
  obtain ⟨-, hdm, -, -⟩ := pre_fields s
  have hprocess : exec .processBlock s = .next (complete Instr.processBlock.opcode .ok (processEffect s)) :=
    exec_of_checks (process_checks hfft hsq hmorse hiq)
  refine ⟨_, _, hanalyze, rfl, hsquelch, rfl, fun hclosed => ?closed, fun hvalid hopen => ?opened⟩
  case closed =>
    rw [hprocess, processEffect_of_closed hclosed]
    rfl
  case opened =>
    have hvalid' : s.dm.valid = true := hdm ▸ hvalid
    rw [hprocess, processEffect_of_open hvalid hopen]
    refine ⟨_, exec_flowDemodulate hlegal hiq hvalid', rfl, fun hmode => ?filtered, fun hmode => ?cw⟩
    case filtered =>
      rw [processAudio_of_ne_cw (by rw [flowStart, hdm]; exact hmode)]
      rfl
    case cw =>
      have hfeed := feedEffect_complete Instr.demodulate.opcode (demodulateEffect (flowStart s))
      rw [processAudio_of_cw (by rw [flowStart, hdm]; exact hmode), hfeed]
      refine ⟨congrArg _ (complete_processBlock Instr.demodulate.opcode _), fun henv => ⟨_, exec_morseFeed ?_ henv, ?_⟩⟩
      · exact (flowDemodulate_morseValid s).trans (hmorse hvalid' hmode)
      · rw [hfeed]
        exact congrArg _ (complete_processBlock_twice Instr.morseFeed.opcode Instr.demodulate.opcode _)

/-! ### The closed gate -/

/-- The bytes that `ANALYZE` changes lie in the frame that `SPEC_LEN` then tells (40_spectrum.md R133). -/
theorem analyze_frame (s : State) :
    SameBytesOutside s (analyzeEffect s) (specAddr 0) (specAddr (analyzeEffect s).csr.specLen.toNat) := by
  intro a ha
  obtain hempty | hne := Nat.eq_zero_or_pos (iqLength s)
  · rw [analyzeEffect_of_empty hempty]
    rfl
  · have hspec : (analyzeEffect s).csr.specLen = s.csr.fftSize := by rw [analyzeEffect_of_nonempty hne]; rfl
    rw [hspec] at ha
    exact analyze_bytes s a (by simpa [specAddr, regionBase, fftLength] using ha)

/-- After a flow with an open gate and a demodulator the gate still shows open. -/
theorem processEffect_isOpen {s : State} (hvalid : (flowStart s).dm.valid = true) (hopen : (flowStart s).sq.isOpenOut = true) :
    (processEffect s).sq.isOpenOut = true := by
  obtain ⟨-, hsq, -, -⟩ := demodulate_fields (flowStart s)
  obtain ⟨-, hsq', -⟩ := feed_fields (demodulateEffect (flowStart s))
  rw [processEffect_of_open hvalid hopen]
  by_cases hmode : (flowStart s).dm.mode = .cw
  · rw [processAudio_of_cw hmode, hsq', hsq, hopen]
  · rw [processAudio_of_ne_cw hmode]
    exact (congrArg (·.isOpenOut) hsq).trans hopen

/-- Settles O53: only the flow without audio leaves the gate closed or has no demodulator, and it is the start of the flow. -/
theorem closedGateStopsAudioAndMorse : Obligations.ClosedGateStopsAudioAndMorse := by
  intro s t hrun hok hclosed
  obtain ⟨-, rfl⟩ := exec_of_err_zero hrun hok
  obtain ⟨hstatus, hdm, hmc, -⟩ := pre_fields s
  obtain ⟨-, -, -, -, -, -, henv, -⟩ := analyze_fields s
  obtain ⟨-, -, -, -, -, hcsr⟩ := squelch_fields (analyzeEffect s)
  have hgate : (flowStart s).dm.valid = false ∨ (flowStart s).sq.isOpenOut = false := by
    by_contra hopen
    obtain ⟨hvalid, hopen⟩ := not_or.mp hopen
    rw [Bool.not_eq_false] at hvalid hopen
    obtain hshut | hnone := hclosed
    · exact Bool.noConfusion (hshut.symm.trans (processEffect_isOpen hvalid hopen))
    · exact Bool.noConfusion (hnone.symm.trans (hdm ▸ hvalid))
  have hflow : effectOf .processBlock s = noAudio (flowStart s) := processEffect_of_closed hgate
  rw [hflow]
  refine ⟨hdm, hmc, (congrArg Status.textOvf hstatus :), rfl, rfl, (congrArg Csr.envLen hcsr).trans henv, fun a ha => ?_⟩
  exact (pre_bytes s a).trans (analyze_frame s a ((congrArg Csr.specLen hcsr) ▸ ha))

end Sys2Proof.Machine
end

-- ==== Proofs: host accesses while a command is pending, and the WAIT ====
section
/-! The proofs of `HostAccessesWhileBusyDoNotReachTheCore` (93_implementation_defined.md I8) and `WaitEndsWithAnIdleBlock` (30_encoding.md R118).
While busy the host can set its sticky flags and count its reads; no check and no effect reads these, so they commute with a core step. -/

namespace Sys2Proof.Machine

/-- The state after the host has touched what it can while busy: its two sticky flags and the count of its reads. -/
def hostTouched (ovr drop : Bool) (reads : Nat) (s : State) : State :=
  { s with status := { s.status with cmdOvr := ovr, wrDrop := drop }, busyReads := reads }

/-- The core does not see what the host touched. -/
theorem sameForCore_hostTouched (ovr drop : Bool) (reads : Nat) (s : State) : SameForCore s (hostTouched ovr drop reads s) :=
  ⟨rfl, rfl, rfl, rfl, rfl, rfl, rfl, rfl, rfl, rfl, rfl, rfl⟩

/-- An access while busy is such a touch (70_reset_and_hazards.md R310 to R312). -/
theorem hostAccess_busy {s : State} (hbusy : busy s = true) (a : Access) :
    ∃ ovr drop reads, (hostAccess a s).2 = hostTouched ovr drop reads s := by
  cases a with
  | read addr =>
    obtain hread | ⟨-, -, hread⟩ := hostRead_state s addr
    · exact ⟨s.status.cmdOvr, s.status.wrDrop, s.busyReads, hread⟩
    · exact ⟨s.status.cmdOvr, s.status.wrDrop, s.busyReads + 1, congrArg Prod.snd hread⟩
  | write addr v =>
    obtain hwrite | hwrite | hwrite := hostWrite_busy s addr v hbusy
    · exact ⟨s.status.cmdOvr, s.status.wrDrop, s.busyReads, hwrite⟩
    · exact ⟨true, s.status.wrDrop, s.busyReads, hwrite⟩
    · exact ⟨s.status.cmdOvr, true, s.busyReads, hwrite⟩

/-- Accesses while busy are together such a touch, since the block stays busy between them. -/
theorem hostRun_busy (as : List Access) : ∀ {s : State}, busy s = true → ∃ ovr drop reads, hostRun as s = hostTouched ovr drop reads s := by
  induction as with
  | nil => exact fun {s} _ => ⟨s.status.cmdOvr, s.status.wrDrop, s.busyReads, rfl⟩
  | cons a as ih =>
    intro s hbusy
    obtain ⟨ovr, drop, reads, haccess⟩ := hostAccess_busy hbusy a
    obtain ⟨ovr', drop', reads', hrest⟩ := ih (s := hostTouched ovr drop reads s) hbusy
    exact ⟨ovr', drop', reads', (congrArg (hostRun as) haccess).trans hrest⟩

/-! ### Touches and commands commute -/

section
variable (ovr drop : Bool) (reads : Nat) (s : State)

/-- No check reads what the host touches. -/
theorem checksOf_hostTouched (i : Instr) : checksOf i (hostTouched ovr drop reads s) = checksOf i s := by cases i <;> rfl

theorem analyzeEffect_hostTouched :
    analyzeEffect (hostTouched ovr drop reads s) = hostTouched ovr drop reads (analyzeEffect s) := by
  obtain hempty | hne := Nat.eq_zero_or_pos (iqLength s)
  · rw [analyzeEffect_of_empty hempty, analyzeEffect_of_empty (s := hostTouched ovr drop reads s) hempty]
    rfl
  · rw [analyzeEffect_of_nonempty hne, analyzeEffect_of_nonempty (s := hostTouched ovr drop reads s) hne]
    rfl

theorem squelchEffect_hostTouched :
    squelchEffect (hostTouched ovr drop reads s) = hostTouched ovr drop reads (squelchEffect s) := by
  obtain hempty | hne := Nat.eq_zero_or_pos (iqLength s)
  · rw [squelchEffect_of_empty hempty, squelchEffect_of_empty (s := hostTouched ovr drop reads s) hempty]
    rfl
  · rw [squelchEffect_of_nonempty hne, squelchEffect_of_nonempty (s := hostTouched ovr drop reads s) hne]
    rfl

theorem storeEnvelope_hostTouched (x : List Cplx) :
    storeEnvelope (hostTouched ovr drop reads s) x = hostTouched ovr drop reads (storeEnvelope s x) := by
  have hdm : (hostTouched ovr drop reads s).dm = s.dm := rfl
  unfold storeEnvelope
  rw [hdm]
  split <;> rfl

theorem demodulateEffect_hostTouched :
    demodulateEffect (hostTouched ovr drop reads s) = hostTouched ovr drop reads (demodulateEffect s) := by
  obtain hempty | hne := Nat.eq_zero_or_pos (iqLength s)
  · rw [demodulateEffect_of_empty hempty, demodulateEffect_of_empty (s := hostTouched ovr drop reads s) hempty]
    rfl
  · rw [demodulateEffect_of_nonempty hne, demodulateEffect_of_nonempty (s := hostTouched ovr drop reads s) hne, storeEnvelope_hostTouched]
    rfl

theorem demodInitEffect_hostTouched :
    demodInitEffect (hostTouched ovr drop reads s) = hostTouched ovr drop reads (demodInitEffect s) := by
  have hsel : (hostTouched ovr drop reads s).csr.modeSel = s.csr.modeSel := rfl
  unfold demodInitEffect
  rw [hsel]
  cases modeOfCode s.csr.modeSel <;> rfl

theorem feedEffect_hostTouched :
    feedEffect (hostTouched ovr drop reads s) = hostTouched ovr drop reads (feedEffect s) := by
  obtain hempty | hne := Nat.eq_zero_or_pos (envLength s)
  · rw [feedEffect_of_empty hempty, feedEffect_of_empty (s := hostTouched ovr drop reads s) hempty]
    rfl
  · rw [feedEffect_of_nonempty hne rfl, feedEffect_of_nonempty (s := hostTouched ovr drop reads s) hne rfl]
    rfl

theorem processAudio_hostTouched :
    processAudio (hostTouched ovr drop reads s) = hostTouched ovr drop reads (processAudio s) := by
  by_cases hmode : s.dm.mode = .cw
  · rw [processAudio_of_cw hmode, processAudio_of_cw (s := hostTouched ovr drop reads s) hmode, demodulateEffect_hostTouched,
      feedEffect_hostTouched]
  · rw [processAudio_of_ne_cw hmode, processAudio_of_ne_cw (s := hostTouched ovr drop reads s) hmode, demodulateEffect_hostTouched]
    rfl

theorem processEffect_hostTouched :
    processEffect (hostTouched ovr drop reads s) = hostTouched ovr drop reads (processEffect s) := by
  unfold processEffect
  rw [analyzeEffect_hostTouched, squelchEffect_hostTouched]
  generalize squelchEffect (analyzeEffect s) = t
  dsimp only
  have hgate : ((hostTouched ovr drop reads t).dm.valid && (hostTouched ovr drop reads t).sq.isOpenOut) = (t.dm.valid && t.sq.isOpenOut) := rfl
  rw [hgate]
  cases t.dm.valid && t.sq.isOpenOut with
  | true => exact processAudio_hostTouched ovr drop reads t
  | false => rfl

/-- No effect but that of `SOFT_RESET`, which clears them, reads or writes what the host touches. -/
theorem effectOf_hostTouched {i : Instr} (hreset : i ≠ .softReset) :
    effectOf i (hostTouched ovr drop reads s) = hostTouched ovr drop reads (effectOf i s) := by
  cases i with
  | softReset => exact absurd rfl hreset
  | nop | morseInit | morseReset => rfl
  | analyze => exact analyzeEffect_hostTouched ovr drop reads s
  | sqEvaluate => exact squelchEffect_hostTouched ovr drop reads s
  | demodInit => exact demodInitEffect_hostTouched ovr drop reads s
  | demodulate => exact demodulateEffect_hostTouched ovr drop reads s
  | morseFeed => exact feedEffect_hostTouched ovr drop reads s
  | processBlock => exact processEffect_hostTouched ovr drop reads s

/-- The effects of a command are the same for the core, touched or not. -/
theorem sameForCore_effectOf (i : Instr) : SameForCore (effectOf i s) (effectOf i (hostTouched ovr drop reads s)) := by
  by_cases hreset : i = .softReset
  · subst hreset
    exact ⟨rfl, rfl, rfl, rfl, rfl, rfl, rfl, rfl, rfl, rfl, rfl, rfl⟩
  · rw [effectOf_hostTouched ovr drop reads s hreset]
    exact sameForCore_hostTouched ovr drop reads _

/-- A completion keeps the sameness. -/
theorem sameForCore_complete {s t : State} (h : SameForCore s t) (op : Byte) (code : ErrCode) :
    SameForCore (complete op code s) (complete op code t) := by
  obtain ⟨hcsr, hdm, hsq, hmc, -, hmem, hparams, hdraws, hepoch, hovf, -, -⟩ := h
  exact ⟨hcsr, hdm, hsq, hmc, rfl, hmem, hparams, hdraws, hepoch, hovf, rfl, rfl⟩

/-- A command is the same for the core, touched or not. -/
theorem sameForCore_runCommand (i : Instr) :
    SameForCore (runCommand i.opcode (checksOf i s) (effectOf i) s)
      (runCommand i.opcode (checksOf i (hostTouched ovr drop reads s)) (effectOf i) (hostTouched ovr drop reads s)) := by
  rw [checksOf_hostTouched]
  cases hfirst : firstError (checksOf i s) with
  | some e =>
    rw [runCommand_raise _ _ _ hfirst, runCommand_raise _ _ _ hfirst]
    exact sameForCore_complete (sameForCore_hostTouched ovr drop reads s) _ _
  | none =>
    rw [runCommand_ok _ _ _ hfirst, runCommand_ok _ _ _ hfirst]
    exact sameForCore_complete (sameForCore_effectOf ovr drop reads s i) _ _

end

/-- Settles O54: the accesses are a touch, and a core step before it and after it decodes the same word. -/
theorem hostAccessesWhileBusyDoNotReachTheCore : Obligations.HostAccessesWhileBusyDoNotReachTheCore := by
  intro s as hbusy
  obtain ⟨w, hw⟩ := Option.isSome_iff_exists.mp hbusy
  obtain ⟨ovr, drop, reads, hrun⟩ := hostRun_busy as hbusy
  have hw' : (hostTouched ovr drop reads s).cmd = some w := hw
  rw [hrun]
  cases hdecode : decode w with
  | error e =>
    have hillegal {t : State} (ht : t.cmd = some w) : coreStep t = .next (rejectWord w t) := by simp [coreStep, fetchWord, ht, hdecode]
    exact ⟨_, _, hillegal hw, hillegal hw', sameForCore_complete (sameForCore_hostTouched ovr drop reads s) _ _⟩
  | ok i =>
    exact ⟨_, _, (coreStep_of_decode hw hdecode).trans (exec_eq i s), (coreStep_of_decode hw' hdecode).trans (exec_eq i _),
      sameForCore_runCommand ovr drop reads s i⟩

/-! ### The WAIT -/

/-- The read of `STATUS` of a `WAIT`: no output, so it shows the value (70_reset_and_hazards.md R312). -/
theorem hostRead_status (s : State) : hostRead s (regAddr .status) = (shown (regValue s .status), s) :=
  hostRead_shows (locate_regAddr s.params .status) (.inr rfl)

/-- A `WAIT` at the head of the agenda takes its next read (30_encoding.md R118). -/
theorem step_of_agenda_wait {s : State} {rest : List Event} (h : s.agenda = .wait :: rest) :
    step s = .next (hostWait { s with agenda := rest }) := by simp [step, h]

/-- A read that shows `BUSY = 0` ends the `WAIT`. -/
theorem hostWait_of_idle {s : State} (h : busy s = false) : hostWait s = recordReply (shown (regValue s .status), s) := by
  rw [← hostRead_status]
  exact if_neg (by simp [h])

/-- After a read that shows `BUSY = 1` the core gets a turn before the next read (log 11). -/
theorem hostWait_of_busy {s : State} (h : busy s = true) :
    hostWait s = { recordReply (shown (regValue s .status), s) with agenda := .core :: .wait :: s.agenda } := by
  rw [← hostRead_status]
  refine (if_pos h).trans ?_
  rw [hostRead_status]
  rfl

/-- On an idle block a `WAIT` is one read, which shows `BUSY = 0`. -/
theorem wait_of_idle {s : State} {rest : List Event} (hagenda : s.agenda = .wait :: rest) (hidle : busy s = false) :
    ∃ t r rs, step s = .next t ∧ t.agenda = rest ∧ busy t = false ∧ t.replies = r :: rs ∧ r.response = .okay ∧
      r.data = regValue t .status ∧ r.data.getLsbD 0 = false := by
  have hidle' : busy { s with agenda := rest } = false := hidle
  refine ⟨_, _, s.replies, (step_of_agenda_wait hagenda).trans (congrArg _ (hostWait_of_idle hidle')), rfl, hidle, rfl, rfl, rfl, ?_⟩
  exact (statusWord_get { s with agenda := rest } 0 (by decide)).trans (by simp [hidle'])

/-- On a busy block a `WAIT` reads and gives the core a turn; the read changes no more than the replies (log 11). -/
theorem wait_of_busy {s : State} {rest : List Event} (hagenda : s.agenda = .wait :: rest) (hbusy : busy s = true) :
    ∃ t, step s = .next t ∧ t.agenda = .core :: .wait :: rest ∧ t.cmd = s.cmd :=
  have hbusy' : busy { s with agenda := rest } = true := hbusy
  ⟨_, (step_of_agenda_wait hagenda).trans (congrArg _ (hostWait_of_busy hbusy')), rfl, rfl⟩

/-- Settles O55: an idle block needs one step; a busy one needs a read, the core step that completes the command, and the last read. -/
theorem waitEndsWithAnIdleBlock : Obligations.WaitEndsWithAnIdleBlock := by
  intro s rest hagenda
  cases hbusy : busy s with
  | false =>
    obtain ⟨t, r, rs, hstep, hlast⟩ := wait_of_idle hagenda hbusy
    exact ⟨1, t, r, rs, by decide, by simp [runSteps, hstep], hlast⟩
  | true =>
    obtain ⟨w, hw⟩ := Option.isSome_iff_exists.mp hbusy
    obtain ⟨t₁, hstep₁, hagenda₁, hcmd₁⟩ := wait_of_busy hagenda hbusy
    obtain ⟨t₂, hcore, -, hidle, -, -, -, hagenda₂, -⟩ :=
      everyPendingWordCompletes { t₁ with agenda := .wait :: rest } w (hcmd₁.trans hw)
    have hstep₂ : step t₁ = .next t₂ := (step_of_agenda_core hagenda₁).trans hcore
    obtain ⟨t, r, rs, hstep₃, hlast⟩ := wait_of_idle hagenda₂ hidle
    exact ⟨3, t, r, rs, by decide, by simp [runSteps, hstep₁, hstep₂, hstep₃], hlast⟩

end Sys2Proof.Machine
end

-- ==== Proofs: numbers ====
section
/-! The proofs of `IntegerConversionIsExact` (00_scope.md R21), `ArithmeticRoundsToNearestEven` and
`SumsComparisonsRemaindersAndAnglesAreAsStated` (R15). Every operation on finite values is one rounding of a natural number that stands for the
exact result, so `f64Round_nearest` and `f64Round_exact` say what comes out. -/

namespace Sys2Proof.Machine

/-- Settles O58: an integer of at most 32 bits has a significand of at most 53. -/
theorem integerConversionIsExact : Obligations.IntegerConversionIsExact := by
  intro n hn
  obtain ⟨hfinite, -, hunits⟩ := f64Round_exact (neg := false) (m := n) (e := 1074) (hn.trans (by decide)) (by decide)
  exact ⟨hfinite, hunits.trans (by rw [if_neg Bool.false_ne_true, Nat.cast_mul, Nat.cast_pow, Nat.cast_ofNat])⟩

/-! ### Addition and subtraction -/

/-- A signed magnitude. -/
def signed (neg : Bool) (n : Nat) : Int := if neg then -(n : Int) else n

/-- A value in units is its sign and its scaled significand. -/
theorem f64Units_eq_signed (x : F64) : f64Units x = signed (f64Neg x) (f64Sig x * 2 ^ f64Scale x) := rfl

/-- A power of two moves into the magnitude. -/
theorem signed_mul_two_pow (neg : Bool) (n k : Nat) : signed neg n * 2 ^ k = signed neg (n * 2 ^ k) := by
  cases neg <;> simp [signed]

/-- A value in units, its significand aligned to a smaller scale. -/
theorem f64Units_aligned (x : F64) {e : Nat} (he : e ≤ f64Scale x) :
    f64Units x = signed (f64Neg x) (f64Sig x * 2 ^ (f64Scale x - e)) * 2 ^ e := by
  have hscale : f64Sig x * 2 ^ f64Scale x = f64Sig x * 2 ^ (f64Scale x - e) * 2 ^ e := by
    rw [Nat.mul_assoc, ← Nat.pow_add, Nat.sub_add_cancel he]
  rw [f64Units_eq_signed, hscale, signed_mul_two_pow]

/-- The sum of two signed magnitudes, by their signs and sizes. -/
theorem signed_add (p q : Bool) (a b : Nat) :
    signed p a + signed q b =
      if p = q then signed p (a + b) else if a = b then 0 else if b < a then signed p (a - b) else signed q (b - a) := by
  by_cases h : p = q
  · subst h
    rw [if_pos rfl]
    cases p <;> simp only [signed] <;> split_ifs <;> omega
  · obtain rfl : q = !p := Bool.eq_not.mpr (Ne.symm h)
    rw [if_neg h]
    obtain hlt | rfl | hgt := lt_trichotomy a b
    · rw [if_neg hlt.ne, if_neg hlt.not_gt]
      cases p <;> simp [signed, Nat.cast_sub hlt.le] <;> ring
    · rw [if_pos rfl]
      cases p <;> simp [signed]
    · rw [if_neg hgt.ne', if_pos hgt]
      cases p <;> simp [signed, Nat.cast_sub hgt.le] <;> ring

/-- The sum of finite values is one rounding of the exact sum (00_scope.md R15). -/
theorem f64Add_eq_round {x y : F64} (hx : f64IsFinite x = true) (hy : f64IsFinite y = true) :
    ∃ neg m e, f64Add x y = f64Round neg m e 0 ∧ f64Units x + f64Units y = signed neg (m * 2 ^ e) := by
  obtain ⟨hxnan, hxinf⟩ := finite_spec hx
  obtain ⟨hynan, hyinf⟩ := finite_spec hy
  unfold f64Add
  simp only [hxnan, hynan, hxinf, hyinf, Bool.or_self, Bool.false_eq_true, if_false]
  generalize he : min (f64Scale x) (f64Scale y) = e
  rw [f64Units_aligned x (e := e) (by omega), f64Units_aligned y (e := e) (by omega), ← add_mul, signed_add]
  generalize f64Sig x * 2 ^ (f64Scale x - e) = a
  generalize f64Sig y * 2 ^ (f64Scale y - e) = b
  split_ifs
  · exact ⟨_, _, _, rfl, signed_mul_two_pow ..⟩
  · exact ⟨false, 0, e, by simp [f64Round, f64Pack, f64Zero], by simp [signed]⟩
  · exact ⟨_, _, _, rfl, signed_mul_two_pow ..⟩
  · exact ⟨_, _, _, rfl, signed_mul_two_pow ..⟩

/-- A finite sum is nearest to the exact one, ties to even (00_scope.md R15). -/
theorem f64Add_nearest {x y : F64} (hx : f64IsFinite x = true) (hy : f64IsFinite y = true) (h : f64IsFinite (f64Add x y) = true) :
    NearestEven (f64Units x + f64Units y) 1 (f64Add x y) := by
  obtain ⟨neg, m, e, hround, hexact⟩ := f64Add_eq_round hx hy
  rw [hround] at h ⊢
  rw [hexact]
  exact f64Round_nearest Nat.one_pos (approximates_exact m e 0) h

/-- Subtraction is the addition of the negated value (00_scope.md R15). -/
theorem f64Sub_nearest {x y : F64} (hx : f64IsFinite x = true) (hy : f64IsFinite y = true) (h : f64IsFinite (f64Sub x y) = true) :
    NearestEven (f64Units x - f64Units y) 1 (f64Sub x y) := by
  obtain ⟨hunits, hfinite⟩ := f64Units_negate y
  rw [sub_eq_add_neg, ← hunits]
  exact f64Add_nearest hx (hfinite.trans hy) h

/-! ### Multiplication and division -/

/-- The product of two signed magnitudes. -/
theorem signed_mul (p q : Bool) (a b : Nat) : signed p a * signed q b = signed (p != q) (a * b) := by
  cases p <;> cases q <;> simp [signed]

/-- A finite product is nearest to the exact one, ties to even (00_scope.md R15). -/
theorem f64Mul_nearest {x y : F64} (hx : f64IsFinite x = true) (hy : f64IsFinite y = true) (h : f64IsFinite (f64Mul x y) = true) :
    NearestEven (f64Units x * f64Units y) (2 ^ 1074) (f64Mul x y) := by
  obtain ⟨hxnan, hxinf⟩ := finite_spec hx
  obtain ⟨hynan, hyinf⟩ := finite_spec hy
  have hround : f64Mul x y = f64Round (f64Neg x != f64Neg y) (f64Sig x * f64Sig y) (f64Scale x + f64Scale y) 1074 := by
    simp only [f64Mul, hxnan, hynan, hxinf, hyinf, Bool.or_self, Bool.false_eq_true, if_false]
  have hexact : f64Units x * f64Units y = signed (f64Neg x != f64Neg y) (f64Sig x * f64Sig y * 2 ^ (f64Scale x + f64Scale y)) := by
    rw [f64Units_eq_signed, f64Units_eq_signed, signed_mul, Nat.pow_add, Nat.mul_mul_mul_comm]
  rw [hround] at h ⊢
  rw [hexact, ← Nat.cast_ofNat (n := 2), ← Nat.cast_pow]
  exact f64Round_nearest (Nat.two_pow_pos _) (approximates_exact _ _ 1074) h

/-- A quotient may change both signs. -/
theorem nearestEven_neg {num den : Int} {r : F64} (h : NearestEven num den r) : NearestEven (-num) (-den) r := by
  have hflip (u : Int) : |-num - u * -den| = |num - u * den| := by rw [← abs_neg]; congr 1; ring
  intro z hz
  rw [hflip, hflip]
  exact h z hz

/-- The quotient of the significands with its sticky bit stands for the exact quotient (00_scope.md R15). -/
theorem f64Div_approximates {x y : F64} (h0 : f64IsZero y = false) :
    Approximates (stickyDiv (f64Sig x * 2 ^ 120) (f64Sig y)) (f64Scale x + 1074) (f64Scale y + 121)
      (f64Sig x * 2 ^ f64Scale x * 2 ^ 1074) (f64Sig y * 2 ^ f64Scale y) := by
  have hpos := sig_pos h0
  have hbits := finite_sig (x := y)
  refine stickyDiv_approximates hpos ?size ?value (Nat.mul_pos hpos (Nat.two_pow_pos _))
  case size => omega
  case value =>
    rw [Nat.pow_add 2 (f64Scale x) 1074, Nat.pow_add 2 (f64Scale y) 121, show 2 ^ 121 = 2 * 2 ^ 120 from rfl]
    generalize 2 ^ 1074 = p
    generalize 2 ^ 120 = q
    ring

/-- A finite quotient is nearest to the exact one, ties to even (00_scope.md R15). -/
theorem f64Div_nearest {x y : F64} (hx : f64IsFinite x = true) (hy : f64IsFinite y = true) (h0 : f64IsZero y = false)
    (h : f64IsFinite (f64Div x y) = true) : NearestEven (f64Units x * 2 ^ 1074) (f64Units y) (f64Div x y) := by
  obtain ⟨hxnan, hxinf⟩ := finite_spec hx
  obtain ⟨hynan, hyinf⟩ := finite_spec hy
  have hround : f64Div x y = f64Round (f64Neg x != f64Neg y) (stickyDiv (f64Sig x * 2 ^ 120) (f64Sig y)) (f64Scale x + 1074)
      (f64Scale y + 121) := by
    simp only [f64Div, hxnan, hynan, hxinf, hyinf, h0, Bool.or_self, Bool.false_eq_true, if_false]
  rw [hround] at h ⊢
  have hnear := f64Round_nearest (Nat.mul_pos (sig_pos h0) (Nat.two_pow_pos _)) (f64Div_approximates h0) h
  rw [f64Units_eq_signed x, signed_mul_two_pow, f64Units_eq_signed y]
  revert hnear
  generalize f64Round _ _ _ _ = r
  generalize f64Sig x * 2 ^ f64Scale x * 2 ^ 1074 = n
  generalize f64Sig y * 2 ^ f64Scale y = d
  intro hnear
  cases hsign : f64Neg y with
  | false => simpa [signed, hsign] using hnear
  | true =>
    have hneg := nearestEven_neg hnear
    cases hsign' : f64Neg x <;> simpa [signed, hsign, hsign'] using hneg

/-- Settles O59. -/
theorem arithmeticRoundsToNearestEven : Obligations.ArithmeticRoundsToNearestEven :=
  fun _ _ hx hy => ⟨f64Add_nearest hx hy, f64Sub_nearest hx hy, f64Mul_nearest hx hy, f64Div_nearest hx hy⟩

/-! ### Comparisons and angles -/

/-- `=` of finite values compares them exactly (00_scope.md R15). -/
theorem f64Eq_iff {x y : F64} (hx : f64IsFinite x = true) (hy : f64IsFinite y = true) : f64Eq x y = true ↔ f64Units x = f64Units y := by
  rw [f64Eq, Bool.and_eq_true, f64Le_iff hx hy, f64Le_iff hy hx, le_antisymm_iff]

/-- A NaN operand makes every comparison false (00_scope.md R15). -/
theorem comparisons_of_nan {x y : F64} (h : f64IsNaN x = true ∨ f64IsNaN y = true) :
    f64Lt x y = false ∧ f64Le x y = false ∧ f64Eq x y = false := by
  obtain h | h := h <;> simp [f64Lt, f64Le, f64Eq, h]

/-- A value below zero has its sign set. -/
theorem f64Neg_of_lt_zero {x : F64} (h : f64Lt x f64Zero = true) : f64Neg x = true := by
  cases hsign : f64Neg x with
  | true => rfl
  | false =>
    have hzero : f64Neg f64Zero = false ∧ f64Mag f64Zero = 0 := by decide
    simp [f64Lt, hsign, hzero] at h

/-- A value above zero has its sign clear. -/
theorem f64Neg_of_zero_lt {x : F64} (h : f64Lt f64Zero x = true) : f64Neg x = false := by
  cases hsign : f64Neg x with
  | false => rfl
  | true =>
    have hzero : f64Neg f64Zero = false := by decide
    simp [f64Lt, hsign, hzero] at h

/-- `atan2` of a zero first argument, in every numerics configuration (00_scope.md R15). -/
theorem numAtan2_of_zero (c : Numerics) {y x : F64} (hy : f64IsZero y = true) (hx : f64IsNaN x = false) :
    numAtan2 c y x = if f64Neg x then f64Pack (f64Neg y) (f64Mag Config.pi) else y :=
  if_pos (by simp [hy, hx])

/-- Settles O60: the clauses are those of the lemmas on sums, comparisons, `fmod` and `atan2`. -/
theorem sumsComparisonsRemaindersAndAnglesAreAsStated : Obligations.SumsComparisonsRemaindersAndAnglesAreAsStated := by
  refine ⟨fun _ => rfl, f64Sum_append, fun x y hx hy => ⟨f64Lt_iff hx hy, f64Le_iff hx hy, f64Eq_iff hx hy, f64Fmod_exact hx hy⟩,
    fun x y h => comparisons_of_nan h, fun c y x hy hx => ⟨fun hneg => ?below, fun hpos => ?above, ?range⟩⟩
  case below =>
    have hsign : f64Neg x = true := hneg.elim f64Neg_of_lt_zero fun h => h ▸ (by decide)
    constructor <;> rintro rfl <;> rw [numAtan2_of_zero c (by decide) hx, if_pos hsign] <;> decide
  case above =>
    have hsign : ¬ f64Neg x = true := by simpa using hpos.elim f64Neg_of_zero_lt fun h => h ▸ (by decide)
    constructor <;> rintro rfl <;> rw [numAtan2_of_zero c (by decide) hx, if_neg hsign]
  case range => exact inPiRange_bounds (inPiRange_numAtan2 c hy hx)

end Sys2Proof.Machine
end
